-- ==== Sys2Proof/Word.lean ====
section
/-! DEFINITION. The machine's data widths: the 32-bit word of rule R1 and the 8-bit byte of rule R62.
Arithmetic on words is `BitVec`'s own: `+` and `-` and `*` modulo 2^32 (R2, R3), `<<<` and `>>>` logical by a
constant (R4), `^^^` and `&&&` bitwise (R5). -/

namespace Sys2Proof

/-- A data value of the engine: a 32-bit unsigned bit vector (R1). -/
abbrev Word := BitVec 32

/-- A byte of the buffer memory (R62). -/
abbrev Byte := BitVec 8

end Sys2Proof
end

