-- ==== Sys2Proof/Config.lean ====
section
/-! DEFINITION. What an implementation or its platform fixes (00_scope.md section 4): the two build parameters, the
window's base, the answers of the platform's memory; and the values the spec leaves open, as constants without a body.

The parameters are configuration (R20): no command and no host access changes them. `State` carries them as plain data
(log entries 1, 2 and 3), so that a statement about every state speaks of every build and every platform. -/

namespace Sys2Proof

/-- `STRUCTURE`, the round structure built into the datapath (R102, 00_scope.md section 4). -/
inductive CipherStructure where
  | tea
  | xtea
deriving DecidableEq, Repr

/-- `BYTE_ORDER`, the order of a word's bytes in memory (R8, R63). -/
inductive ByteOrder where
  | le
  | be
deriving DecidableEq, Repr

/-- The parameters fixed when the engine is built (R20, R22). -/
structure Build where
  /-- `STRUCTURE` -/
  cipher : CipherStructure
  /-- `BYTE_ORDER` -/
  order : ByteOrder
deriving DecidableEq, Repr

/-- The two kinds of byte access the master port makes (R65). -/
inductive AccessKind where
  | read
  | write
deriving DecidableEq, Repr

/-- What the platform answers to one byte access of the master port: it completes, it returns a bus error (R66), or it
is never answered (R240). -/
inductive MemReply where
  | completes
  | busError
  | neverAnswers
deriving DecidableEq, Repr

/-- A run of byte addresses, `first` and `last` included, with the platform's answer to a read and to a write there. -/
structure Region where
  first : Nat
  last : Nat
  onRead : MemReply
  onWrite : MemReply
deriving DecidableEq, Repr

/-- The platform's open parameters: `REG_BASE` (R61), and `MEM_OK` (R66) as a list of regions of which the first that
holds an address answers for it. An address in no region completes. Every predicate on the 2^32 addresses is such a
list (log entry 3). -/
structure Platform where
  regBase : Nat
  regions : List Region
deriving DecidableEq, Repr

/-- The number of byte addresses of the buffer memory space (R62). -/
abbrev Config.addrSpace : Nat := 2 ^ 32

/-- The default build: `STRUCTURE = TEA`, `BYTE_ORDER = LE` (00_scope.md section 4). -/
def Config.defaultBuild : Build := { cipher := .tea, order := .le }

/-- The platform of `State.reset`: the window at 0 and every access completing (DESIGN CHOICE, unsafe, log entries 2
and 3: the spec leaves both open). -/
def Config.defaultPlatform : Platform := { regBase := 0, regions := [] }

/-- Free value: whether the byte of a write that was not completed holds the value written (`true`) or its old value
(R67, R231, items S3 and S4 of 93_implementation_defined.md). Applied to the counter `State.world.draws`
(log entry 9). -/
opaque Config.freeDraw : Nat → Bool

/-- Free value: a byte whose contents the spec leaves unspecified because an agent broke the exclusive access of R77
(item S2 of 93_implementation_defined.md). Applied to the counter `State.world.draws` (log entry 11). -/
opaque Config.freeByte : Nat → Byte

end Sys2Proof
end

