-- ==== Sys2Proof/Syntax.lean ====
section
/-! DEFINITION. The machine's instructions, the command words of TXE-1 (R81), and the events that reach the engine
from outside: the host's transactions (R180), its own memory accesses (R60), the reset input (R230) and the
platform. -/

namespace Sys2Proof

/-- The commands of the TXE-1 command set, one constructor for each row of spec/opcode_table.json (R81). No command
has an immediate or a register field (R84). -/
inductive Instr where
  /-- `ENC_BLOCK`, word `0x00000001` (R120) -/
  | encBlock
  /-- `DEC_BLOCK`, word `0x00000002` (R121) -/
  | decBlock
  /-- `ENC_BUF`, word `0x00000003` (R150) -/
  | encBuf
  /-- `DEC_BUF`, word `0x00000004` (R151) -/
  | decBuf
deriving DecidableEq, Repr

/-- The registers of the window by name (R21). -/
inductive Reg where
  | id | ctrl | status | cmd | rounds
  | key0 | key1 | key2 | key3
  | v0 | v1 | addr | size | progress | faultAddr
deriving DecidableEq, Repr

/-- An access of the host's bus: its byte address and its width in bytes. Only an aligned access of four bytes inside
the window is a transaction of the engine (R180, R181). -/
structure Access where
  addr : Nat
  bytes : Nat
deriving DecidableEq, Repr

/-- One thing that happens at the engine's boundary. The list of them in `State` is the interleaving of host and engine
(R182). -/
inductive Event where
  /-- The engine takes one of its own steps. -/
  | engine
  /-- A host read on the bus of the register window. -/
  | regRead (a : Access)
  /-- A host write on the bus of the register window. -/
  | regWrite (a : Access) (d : Word)
  /-- The host looks at the interrupt output. -/
  | irqSample
  /-- The host, or another agent, reads a byte of platform memory by its own means. -/
  | memRead (a : BitVec 32)
  /-- The host, or another agent, writes a byte of platform memory by its own means. -/
  | memWrite (a : BitVec 32) (b : Byte)
  /-- The platform asserts the reset input. -/
  | resetAssert
  /-- The platform releases the reset input. -/
  | resetRelease
  /-- The platform's answers to the master port change (program P4 of 95_test_vectors.md). -/
  | platformRegions (rs : List Region)
deriving DecidableEq, Repr

end Sys2Proof
end

