-- ==== Sys2Proof/WellFormed.lean ====
section
/-! DEFINITION. Well-formed terms. A command has no operand, so every `Instr` is well formed (R84). What can be
ill formed is a host access (R180, R181), a region of the platform's map (R62) and the platform (R61). -/

namespace Sys2Proof

/-- Every command is well formed: it has no field that could hold a value its encoding does not admit (R84). -/
def Instr.wf (i : Instr) : Bool :=
  match i with
  | .encBlock => true
  | .decBlock => true
  | .encBuf => true
  | .decBuf => true

/-- The access is a host transaction: 32 bits wide, at a multiple of 4 bytes from `REG_BASE`, inside the window
(R180). -/
def Access.wf (base : Nat) (a : Access) : Bool :=
  a.bytes == 4 && decide (base ≤ a.addr) && decide (a.addr < base + 0x100) && (a.addr - base) % 4 == 0

/-- The region names addresses of the buffer memory space, in order (R62). -/
def Region.wf (r : Region) : Bool :=
  decide (r.first ≤ r.last) && decide (r.last < Config.addrSpace)

/-- `REG_BASE` is aligned to the window's size, the platform duty of R61, and every region is well formed. -/
def Platform.wf (p : Platform) : Bool :=
  p.regBase % 0x100 == 0 && p.regions.all Region.wf

/-- An event the platform and the host may cause: a register access is one of R180, a map names addresses. -/
def Event.wf (base : Nat) : Event → Bool
  | .engine => true
  | .regRead a => a.wf base
  | .regWrite a _ => a.wf base
  | .irqSample => true
  | .memRead _ => true
  | .memWrite _ _ => true
  | .resetAssert => true
  | .resetRelease => true
  | .platformRegions rs => rs.all Region.wf

end Sys2Proof
end

