-- ==== Sys2Proof/Decode.lean ====
section
/-! DEFINITION. The command words: the format `CMD32` (R80), the opcode map (R81), the illegal words (R82) and the
encoder. Decoding is total (R83). -/

namespace Sys2Proof

/-- Why a word is illegal (R82). -/
inductive DecodeError where
  /-- A bit of the field MBZ, `word[31:4]`, is set. -/
  | mbzNotZero
  /-- The field OP, `word[3:0]`, is `0x0` or one of `0x5 .. 0xF`. -/
  | reservedOp
deriving DecidableEq, Repr

/-- The field OP, bits 3:0 (R80). -/
def opField (w : Word) : BitVec 4 := w.extractLsb' 0 4

/-- The field MBZ, bits 31:4 (R80). -/
def mbzField (w : Word) : BitVec 28 := w.extractLsb' 4 28

/-- The operation that the field OP names (R81). -/
def decodeOp (op : BitVec 4) : Except DecodeError Instr :=
  match op.toNat with
  | 1 => .ok .encBlock
  | 2 => .ok .decBlock
  | 3 => .ok .encBuf
  | 4 => .ok .decBuf
  | _ => .error .reservedOp

/-- Decodes a word written to `CMD`: exactly one of the four commands, or illegal (R82, R83). -/
def decode (w : Word) : Except DecodeError Instr :=
  if mbzField w = 0 then decodeOp (opField w) else .error .mbzNotZero

/-- The command word of a command (R81). -/
def encode (i : Instr) : Word :=
  match i with
  | .encBlock => 0x00000001#32
  | .decBlock => 0x00000002#32
  | .encBuf => 0x00000003#32
  | .decBuf => 0x00000004#32

/-- The command word held in the low `nbits` bits of `w`, the bits above being 0. A command is one 32-bit word
(R80). -/
def tableWord (nbits w : Nat) : Word := BitVec.ofNat 32 (w % 2 ^ nbits)

/-- The instruction the decoder reads from a word of spec/opcode_table.json, bits numbered as the table numbers
them. -/
def decodeTableWord (nbits w : Nat) : Option Instr :=
  match decode (tableWord nbits w) with
  | .ok i => some i
  | .error _ => none

end Sys2Proof
end

