-- ==== Sys2Proof/Machine/State.lean ====
section
/-! DEFINITION. The machine's state as plain data, its faults and refusals, and the state after reset (10_state.md).

`Regs` is the register map (R21), `Engine` the internal state (R35 to R37) with the two transfer registers of the model,
`World` what the model keeps of the host and the platform's agents between steps. -/

namespace Sys2Proof.Machine

/-- The key words `k0 .. k3` (R28). -/
structure Key where
  k0 : Word
  k1 : Word
  k2 : Word
  k3 : Word
deriving DecidableEq, Repr

/-- The result codes of `STATUS.ERR` (R202). Codes 5 to 15 are never produced. -/
inductive ErrCode where
  | ok
  | illegalCmd
  | misaligned
  | range
  | busError
deriving DecidableEq, Repr

/-- `PHASE`, the sequencer state (R37). -/
inductive Phase where
  | idle
  | runBlock
  | bufRead
  | bufRounds
  | bufWrite
deriving DecidableEq, Repr

/-- The architectural registers that hold something (R21 to R33). `ID` is a constant of the build (R22), `CMD` holds
nothing (R26), and `STATUS.BUSY` is `PHASE != IDLE` (R37). Reserved bits hold nothing (R34). -/
structure Regs where
  /-- `CTRL.COMPAT` (R23) -/
  compat : Bool
  /-- `CTRL.IRQ_EN` (R23) -/
  irqEn : Bool
  /-- `STATUS.DONE` (R24) -/
  done : Bool
  /-- `STATUS.WIGN` (R24) -/
  wign : Bool
  /-- `STATUS.ERR` (R24, R202) -/
  err : ErrCode
  /-- `ROUNDS` (R27) -/
  rounds : Word
  /-- `KEY0` to `KEY3` (R28) -/
  key : Key
  /-- `V0` (R29) -/
  v0 : Word
  /-- `V1` (R29) -/
  v1 : Word
  /-- `ADDR` (R30) -/
  addr : Word
  /-- `SIZE` (R31) -/
  size : Word
  /-- `PROGRESS` (R32) -/
  progress : Word
  /-- `FAULTADDR` (R33) -/
  faultAddr : Word
deriving DecidableEq, Repr

/-- The internal state of the engine (R35 to R37). `beat` and `rbuf` are the model's own: the byte of the current group
of eight that comes next, and the bytes the group has read (R65, log entry 8). -/
structure Engine where
  /-- `LOP` (R35) -/
  lop : Instr
  /-- `LK[0..3]` (R35) -/
  lk : Key
  /-- `LR` (R35) -/
  lr : Word
  /-- `LBASE` (R35) -/
  lbase : Word
  /-- `LNB` (R35, R141) -/
  lnb : BitVec 30
  /-- `W0` (R36) -/
  w0 : Word
  /-- `W1` (R36) -/
  w1 : Word
  /-- `SUM` (R36) -/
  sum : Word
  /-- `RCNT` (R36) -/
  rcnt : Word
  /-- `BIDX` (R36) -/
  bidx : BitVec 30
  /-- `PHASE` (R37) -/
  phase : Phase
  /-- The model's own: which byte of the block the next byte access moves. -/
  beat : Fin 8
  /-- The model's own: the bytes of the block read so far. -/
  rbuf : Vector Byte 8
deriving DecidableEq, Repr

/-- What the host's bus, or the memory's, gave back for the latest event of the host. -/
inductive HostResp where
  /-- No transaction yet. -/
  | none
  /-- A register read's value (R183). -/
  | data (w : Word)
  /-- A register write was taken. -/
  | written
  /-- An error response, with the data a read of that kind returns (R181). -/
  | error (w : Word)
  /-- The engine took no transaction: the address is outside the window, or reset is asserted (R230). -/
  | notTaken
  /-- The level of the interrupt output (R207). -/
  | irq (level : Bool)
  /-- A byte the host read from platform memory. -/
  | memData (b : Byte)
  /-- A byte the host wrote to platform memory. -/
  | memWritten
deriving DecidableEq, Repr

/-- The byte range of a buffer command that other agents must not touch (R77): `blocks` blocks of 8 bytes from
`base`. -/
structure Window where
  base : Nat
  blocks : Nat
deriving DecidableEq, Repr

/-- What the model keeps of the world around the engine. -/
structure World where
  /-- The events still to come, in order; when there is none left the engine takes every step (R182, log entry 6). -/
  inputs : List Event
  /-- The latest answer to the host. -/
  resp : HostResp
  /-- The reset input (R230). -/
  resetLine : Bool
  /-- The ranges under the exclusive access rule R77. -/
  windows : List Window
  /-- The first addresses of the blocks that an agent wrote into against R77 while a command ran. -/
  raced : List Nat
  /-- How many free values have been drawn. -/
  draws : Nat
deriving DecidableEq, Repr

/-- The buffer memory (R62) in its one canonical form, `Memory.wf`. -/
abbrev Memory := List Host.Cell

/-- What an address that is not listed reads as: the contents of memory that nothing has written. DESIGN CHOICE,
unsafe (log entry 4). -/
def Memory.blank : Byte := 0#8

/-- The canonical form: addresses strictly rising and inside the address space (R62), no entry equal to what an
unlisted address reads as. -/
abbrev Memory.wf (m : Memory) : Prop :=
  m.Pairwise (fun c d => c.1 < d.1) ∧ ∀ c ∈ m, c.2 ≠ Memory.blank ∧ c.1 < Config.addrSpace

/-- The whole machine. -/
structure State where
  /-- The build parameters (R20, R22); configuration. -/
  build : Build
  /-- The platform's parameters (R61, R66); configuration. -/
  plat : Platform
  /-- The architectural registers (R21). -/
  regs : Regs
  /-- The internal state (R35 to R37). -/
  eng : Engine
  /-- The buffer memory (R62). -/
  mem : Memory
  /-- The host, the reset input and the model's bookkeeping. -/
  world : World
deriving DecidableEq, Repr

/-- Why the machine stops. Neither fault is reached from a state that `State.Inv` of Safety.lean holds in (log entry
19). -/
inductive Fault where
  /-- Raised by the meaning of a command that is in flight in a phase that is not one of its phases (R37): the spec
  gives the sequencer no transition there. Safe: the machine stops. -/
  | phaseNotOfCommand (p : Phase)
  /-- Raised by a byte access of a buffer command at an address of 2^32 or more, which does not exist (R62); R143
  refuses such a buffer before any access. Safe: the machine stops. -/
  | outsideAddressSpace (a : Nat)
deriving DecidableEq, Repr

/-- Why the model gives no meaning. -/
inductive Refusal where
  /-- Raised by the arm of `exec` of an instruction that has no meaning yet; no arm raises it. Safe. -/
  | notModelled (mnemonic : String)
deriving DecidableEq, Repr

/-- The result of one step. -/
abbrev Result := Host.Outcome State Fault Refusal

/-- The registers after reset (10_state.md section 5, R230). -/
def Regs.reset : Regs where
  compat := false
  irqEn := false
  done := false
  wign := false
  err := .ok
  rounds := 0x00000020#32
  key := { k0 := 0#32, k1 := 0#32, k2 := 0#32, k3 := 0#32 }
  v0 := 0#32
  v1 := 0#32
  addr := 0#32
  size := 0#32
  progress := 0#32
  faultAddr := 0#32

/-- The internal state after reset: `PHASE` is `IDLE` (R37). The others are unspecified (R36, R230) and never read
before a command writes them. DESIGN CHOICE: 0, and `LOP` the first command (log entry 5). -/
def Engine.reset : Engine where
  lop := .encBlock
  lk := { k0 := 0#32, k1 := 0#32, k2 := 0#32, k3 := 0#32 }
  lr := 0#32
  lbase := 0#32
  lnb := 0#30
  w0 := 0#32
  w1 := 0#32
  sum := 0#32
  rcnt := 0#32
  bidx := 0#30
  phase := .idle
  beat := 0
  rbuf := Vector.replicate 8 0#8

/-- No event is to come, none has been answered, the reset input is released. -/
def World.reset : World where
  inputs := []
  resp := .none
  resetLine := false
  windows := []
  raced := []
  draws := 0

/-- The machine right after reset (R230): the default build, memory with nothing listed, no host program. -/
def State.reset : State where
  build := Config.defaultBuild
  plat := Config.defaultPlatform
  regs := Regs.reset
  eng := Engine.reset
  mem := []
  world := World.reset

end Sys2Proof.Machine
end

