-- ==== Sys2Proof/Machine/Flags.lean ====
section
/-! DEFINITION. The flags: the words `ID`, `CTRL` and `STATUS` as a host reads them (R22 to R24, R183), the interrupt
output (R207), and every update of a flag (R24): by acceptance, by the end of a command, by an ignored write, by a
write of 1, by a write of `CTRL`. -/

namespace Sys2Proof.Machine

/-- A flag as a word: its bit at position `n`. -/
def flagBit (b : Bool) (n : Nat) : Word := if b then 1#32 <<< n else 0#32

/-- The numeric result code (R202). -/
def ErrCode.code : ErrCode → Word
  | .ok => 0#32
  | .illegalCmd => 1#32
  | .misaligned => 2#32
  | .range => 3#32
  | .busError => 4#32

/-- The engine is busy: `STATUS.BUSY = 1` exactly when `PHASE != IDLE` (R37). -/
def State.busy (s : State) : Bool := s.eng.phase != .idle

/-- `STATUS` as a host reads it: `BUSY | DONE << 1 | WIGN << 2 | ERR << 4` (R183). -/
def statusWord (s : State) : Word :=
  flagBit s.busy 0 ||| flagBit s.regs.done 1 ||| flagBit s.regs.wign 2 ||| (s.regs.err.code <<< 4)

/-- `CTRL` as a host reads it, bits 31:2 zero (R23, R183). -/
def ctrlWord (r : Regs) : Word := flagBit r.compat 0 ||| flagBit r.irqEn 1

/-- `ID`, the build constant of R22. -/
def idWord (b : Build) : Word :=
  0x54450100#32 ||| flagBit (b.order == .be) 1 ||| flagBit (b.cipher == .xtea) 0

/-- The interrupt output: `IRQ = CTRL.IRQ_EN & STATUS.DONE` (R207). -/
def State.irq (s : State) : Bool := s.regs.irqEn && s.regs.done

/-- Acceptance of a command: DONE and ERR are cleared, WIGN is left as it was (R24, R200). -/
def Regs.acceptFlags (r : Regs) : Regs := { r with done := false, err := .ok }

/-- The end of a command with result code `e`: DONE is set, ERR is the code (R24, R201, R204, R205). -/
def Regs.endFlags (e : ErrCode) (r : Regs) : Regs := { r with done := true, err := e }

/-- A host write ignored because the engine was busy: WIGN is set (R24, R185, R214). -/
def Regs.dropFlag (r : Regs) : Regs := { r with wign := true }

/-- A host write of `d` at `STATUS`: bit 1 clears DONE, bit 2 clears WIGN, the other bits are ignored (R187). -/
def Regs.clearFlags (d : Word) (r : Regs) : Regs :=
  { r with done := r.done && !d.getLsbD 1, wign := r.wign && !d.getLsbD 2 }

/-- A host write of `d` at `CTRL` while idle: `x[CTRL] <- d & 0x00000003` (R184). -/
def Regs.writeCtrl (d : Word) (r : Regs) : Regs := { r with compat := d.getLsbD 0, irqEn := d.getLsbD 1 }

end Sys2Proof.Machine
end

