-- ==== Sys2Proof/Machine/Transform.lean ====
section
/-! DEFINITION. The Block Transform (40_block_transform.md): the rounds of the TEA-style and XTEA-style structures,
and `Encipher` and `Decipher` as their repetition. -/

namespace Sys2Proof.Machine

/-- `DELTA` (R101). -/
def delta : Word := 0x9E3779B9#32

/-- A block, two words (R100). -/
structure Block where
  v0 : Word
  v1 : Word
deriving DecidableEq, Repr

/-- What one iteration of a round loop reads and writes: the block words and the accumulator `sum`. -/
structure Mix where
  v0 : Word
  v1 : Word
  sum : Word
deriving DecidableEq, Repr

/-- Which of the two functions of the Block Transform (R100). -/
inductive Direction where
  | encipher
  | decipher
deriving DecidableEq, Repr

/-- `F_TEA`, the TEA mixing term (R103). -/
def fTea (x s ka kb : Word) : Word := ((x <<< 4) + ka) ^^^ (x + s) ^^^ ((x >>> 5) + kb)

/-- `G_XTEA`, the XTEA mixing term (R115). -/
def gXtea (x : Word) : Word := ((x <<< 4) ^^^ (x >>> 5)) + x

/-- `idx0(s) = s & 3` (R115). -/
def idx0 (s : Word) : Nat := (s &&& 3#32).toNat

/-- `idx1(s) = (s >> 11) & 3` (R115). -/
def idx1 (s : Word) : Nat := ((s >>> 11) &&& 3#32).toNat

/-- `k[n]`, the key word of index `n` in 0..3 (R115). -/
def Key.word (k : Key) (n : Nat) : Word :=
  match n with
  | 0 => k.k0
  | 1 => k.k1
  | 2 => k.k2
  | _ => k.k3

/-- One iteration of `TEA_Encipher` (R110). -/
def teaEncRound (k : Key) (m : Mix) : Mix :=
  let sum := m.sum + delta
  let v0 := m.v0 + fTea m.v1 sum k.k0 k.k1
  let v1 := m.v1 + fTea v0 sum k.k2 k.k3
  { v0 := v0, v1 := v1, sum := sum }

/-- One iteration of `TEA_Decipher`: first `v1`, then `v0` from the `v1` just restored, then `sum` (R111, R112). -/
def teaDecRound (k : Key) (m : Mix) : Mix :=
  let v1 := m.v1 - fTea m.v0 m.sum k.k2 k.k3
  let v0 := m.v0 - fTea v1 m.sum k.k0 k.k1
  { v0 := v0, v1 := v1, sum := m.sum - delta }

/-- One iteration of `XTEA_Encipher` (R116). -/
def xteaEncRound (k : Key) (m : Mix) : Mix :=
  let v0 := m.v0 + (gXtea m.v1 ^^^ (m.sum + k.word (idx0 m.sum)))
  let sum := m.sum + delta
  let v1 := m.v1 + (gXtea v0 ^^^ (sum + k.word (idx1 sum)))
  { v0 := v0, v1 := v1, sum := sum }

/-- One iteration of `XTEA_Decipher` (R117). -/
def xteaDecRound (k : Key) (m : Mix) : Mix :=
  let v1 := m.v1 - (gXtea m.v0 ^^^ (m.sum + k.word (idx1 m.sum)))
  let sum := m.sum - delta
  let v0 := m.v0 - (gXtea v1 ^^^ (sum + k.word (idx0 sum)))
  { v0 := v0, v1 := v1, sum := sum }

/-- One datapath round of the built structure (R102, R125). -/
def mixRound (c : CipherStructure) (d : Direction) (k : Key) (m : Mix) : Mix :=
  match c, d with
  | .tea, .encipher => teaEncRound k m
  | .tea, .decipher => teaDecRound k m
  | .xtea, .encipher => xteaEncRound k m
  | .xtea, .decipher => xteaDecRound k m

/-- `sum` before the first round: 0 to encipher, `R * DELTA` to decipher (R110, R111, R116, R117, R125). -/
def startSum (d : Direction) (r : Word) : Word :=
  match d with
  | .encipher => 0#32
  | .decipher => r * delta

/-- `repeat n times` (R10). -/
def repeatRounds (f : Mix → Mix) : Nat → Mix → Mix
  | 0, m => m
  | n + 1, m => repeatRounds f n (f m)

/-- The whole loop of R110, R111, R116 or R117 from its initial `sum`: the block and the final `sum` (R119). -/
def runRounds (c : CipherStructure) (d : Direction) (b : Block) (k : Key) (r : Word) : Mix :=
  repeatRounds (mixRound c d k) r.toNat { v0 := b.v0, v1 := b.v1, sum := startSum d r }

/-- `Encipher` or `Decipher` of the structure `c` (R100, R102). -/
def transform (c : CipherStructure) (d : Direction) (b : Block) (k : Key) (r : Word) : Block :=
  { v0 := (runRounds c d b k r).v0, v1 := (runRounds c d b k r).v1 }

end Sys2Proof.Machine
end

