-- ==== Sys2Proof/Machine/Operands.lean ====
section
/-! DEFINITION. The commands' operands: what acceptance latches (R35, R84, R200), the block count and the two checks of
a buffer command (R141 to R143), the address of a byte access (R145), and the bytes of a block as words (R8, R64). -/

namespace Sys2Proof.Machine

/-- `load32` of four bytes, lowest address first (R8). -/
def load32 (o : ByteOrder) (b0 b1 b2 b3 : Byte) : Word :=
  match o with
  | .le => b3 ++ b2 ++ b1 ++ b0
  | .be => b0 ++ b1 ++ b2 ++ b3

/-- The byte of `store32(w)` at the `j`-th address from the lowest (R8). -/
def store32 (o : ByteOrder) (w : Word) (j : Nat) : Byte :=
  match o with
  | .le => w.extractLsb' (8 * j) 8
  | .be => w.extractLsb' (8 * (3 - j)) 8

/-- The block that eight bytes hold: `v0` at the lower address (R64). -/
def loadBlock (o : ByteOrder) (bs : Vector Byte 8) : Block where
  v0 := load32 o bs[0] bs[1] bs[2] bs[3]
  v1 := load32 o bs[4] bs[5] bs[6] bs[7]

/-- Byte `j` of `store32(v0) ++ store32(v1)` (R64, R145). -/
def blockByte (o : ByteOrder) (b : Block) (j : Nat) : Byte :=
  if j < 4 then store32 o b.v0 j else store32 o b.v1 (j - 4)

/-- The block count `nb = ceil(x[SIZE] / 8)`, on unbounded integers (R11, R141). -/
def blockCount (size : Word) : Nat := (size.toNat + 7) / 8

/-- The safe-mode alignment check fails: `CTRL.COMPAT = 0` and `x[SIZE] mod 8 != 0` (R142). -/
def Regs.misaligned (r : Regs) : Bool := !r.compat && r.size.toNat % 8 != 0

/-- The range check fails: `x[ADDR] + 8*nb > 2^32`, on unbounded integers (R143). -/
def Regs.outOfRange (r : Regs) : Bool :=
  decide (Config.addrSpace < r.addr.toNat + 8 * blockCount r.size)

/-- Acceptance latches the opcode, the key and the round count (R35, R200). -/
def Engine.latch (i : Instr) (r : Regs) (e : Engine) : Engine :=
  { e with lop := i, lk := r.key, lr := r.rounds }

/-- A transform starts on the block `b`: `RCNT <- LR`, `SUM <- 0` or `LR * DELTA`, in the phase that runs its rounds
(R125). -/
def Engine.startRounds (d : Direction) (b : Block) (p : Phase) (e : Engine) : Engine :=
  { e with w0 := b.v0, w1 := b.v1, sum := startSum d e.lr, rcnt := e.lr, phase := p }

/-- One datapath round on `(W0, W1, SUM)`, then `RCNT <- RCNT - 1` (R125). -/
def Engine.oneRound (c : CipherStructure) (d : Direction) (e : Engine) : Engine :=
  let m := mixRound c d e.lk { v0 := e.w0, v1 := e.w1, sum := e.sum }
  { e with w0 := m.v0, w1 := m.v1, sum := m.sum, rcnt := e.rcnt - 1#32 }

/-- The block in `W0`, `W1` (R36). -/
def Engine.block (e : Engine) : Block := { v0 := e.w0, v1 := e.w1 }

/-- The address of the current block, `LBASE + 8*BIDX`, on unbounded integers (R11, R145). -/
def Engine.blockAddr (e : Engine) : Nat := e.lbase.toNat + 8 * e.bidx.toNat

/-- The address of the byte access that comes next (R65, R145). -/
def Engine.byteAddr (e : Engine) : Nat := e.blockAddr + e.beat.val

end Sys2Proof.Machine
end

