-- ==== Sys2Proof/Machine/Ops.lean ====
section
/-! DEFINITION. The shared operations: the buffer memory and the platform's answers (20_memory.md), the start and the
two ends of a command (60_exceptions.md), and the engine's turn.

`raise` is this machine's taking of an exception (R204) and `acknowledge` the return from it (R206). -/

namespace Sys2Proof.Machine

/-- The byte at an address. -/
def Memory.read : Memory → Nat → Byte
  | [], _ => Memory.blank
  | c :: m, a => if c.1 = a then c.2 else Memory.read m a

/-- The cells before `m` with the byte `b` put at the address `a`, unless `b` is what an unlisted address reads as. -/
def Memory.put (a : Nat) (b : Byte) (m : Memory) : Memory := if b = Memory.blank then m else (a, b) :: m

/-- Memory with the byte `b` at the address `a`, in canonical form. -/
def Memory.write : Memory → Nat → Byte → Memory
  | [], a, b => Memory.put a b []
  | c :: m, a, b =>
    if a < c.1 then Memory.put a b (c :: m)
    else if a = c.1 then Memory.put a b m
    else c :: Memory.write m a b

/-- The region speaks of the address. -/
def regionHolds (r : Region) (a : Nat) : Bool := decide (r.first ≤ a) && decide (a ≤ r.last)

/-- The region's answer to an access of the kind. -/
def regionReply (r : Region) (k : AccessKind) : MemReply :=
  match k with
  | .read => r.onRead
  | .write => r.onWrite

/-- The platform's answer to one byte access of the master port (R66): the first region that holds the address
answers, and an address in none completes. -/
def platformReply (p : Platform) (k : AccessKind) (a : Nat) : MemReply :=
  match p.regions.find? (fun r => regionHolds r a) with
  | some r => regionReply r k
  | none => .completes

/-- The state with other registers. -/
def State.setRegs (s : State) (r : Regs) : State := { s with regs := r }

/-- The state with other internal state. -/
def State.setEng (s : State) (e : Engine) : State := { s with eng := e }

/-- The state with another memory. -/
def State.setMem (s : State) (m : Memory) : State := { s with mem := m }

/-- The state with another world. -/
def State.setWorld (s : State) (w : World) : State := { s with world := w }

/-- A free value has been drawn. -/
def State.drawn (s : State) : State := s.setWorld { s.world with draws := s.world.draws + 1 }

/-- The byte at `a` after a write of `b` there that was not completed: its old value or `b`, a free draw (R67). -/
def State.halfWrite (s : State) (a : Nat) (b : Byte) : State :=
  (s.setMem (if Config.freeDraw s.world.draws then s.mem.write a b else s.mem)).drawn

/-- `PHASE <- IDLE` (R204, R205). The other internal registers keep what the command left in them: DESIGN CHOICE (log
entry 5), for R36 and item S1 of 93_implementation_defined.md leave their values between commands unspecified. -/
def Engine.toIdle (e : Engine) : Engine := { e with phase := .idle }

/-- What acceptance of the command `i` does before its checks: `DONE` and `ERR` are cleared, the opcode, the key and the
round count are latched (R200). -/
def State.accept (i : Instr) (s : State) : State :=
  (s.setRegs s.regs.acceptFlags).setEng (s.eng.latch i s.regs)

/-- `raise E`, taking an error (R9, R204): `PHASE <- IDLE`, `DONE <- 1`, `ERR <- code(E)`. Nothing else is saved, and
control goes to no vector. -/
def State.raise (e : ErrCode) (s : State) : State :=
  (s.setRegs (s.regs.endFlags e)).setEng s.eng.toIdle

/-- `raise BUS_ERROR(a)`: as every error, and `FAULTADDR` gets the byte's address (R204, R211). -/
def State.raiseBusError (a : Nat) (s : State) : State :=
  (s.setRegs { s.regs with faultAddr := BitVec.ofNat 32 a }).raise .busError

/-- `complete OK`, a command's successful end (R205): `PHASE <- IDLE`, `DONE <- 1`, `ERR <- OK`. -/
def State.complete (s : State) : State := (s.setRegs (s.regs.endFlags .ok)).setEng s.eng.toIdle

/-- An illegal word written to `CMD` while idle: `DONE <- 1`, `ERR <- ILLEGAL_CMD`, nothing else (R201). -/
def State.illegalWord (s : State) : State := s.setRegs (s.regs.endFlags .illegalCmd)

/-- The return from an end, whether an error or not: the host's write of `d` at `STATUS`, which clears `DONE` where its
bit 1 is set (R187, R206). -/
def State.acknowledge (d : Word) (s : State) : State := s.setRegs (s.regs.clearFlags d)

/-- A host write ignored because the engine is busy: `WIGN <- 1` and nothing else (R185, R214). -/
def State.dropWrite (s : State) : State := s.setRegs s.regs.dropFlag

/-- The engine is given to the command `i` for one step: idle, it accepts the command (R200); busy with `i`, it takes
one of its own steps (R124, R145); busy with another command, `i` is turned away like every write of `CMD` (R185).
One shape of the four meanings (log entry 7). -/
def withEngine (i : Instr) (start advance : State → Result) (s : State) : Result :=
  if s.eng.phase = .idle then start s
  else if s.eng.lop = i then advance s
  else .next s.dropWrite

/-- One byte access of the master port at `a` (R66): an access that completes goes on with `ok`, a bus error with
`err`, and one that is not answered leaves the engine where it is (R240). It is asked again at the engine's next step, so
a platform that has changed its answers by then ends the hang: DESIGN CHOICE, unsafe (log entry 29), for the spec is
silent on a late answer. An address that does not exist faults (R62). -/
def memAccess (k : AccessKind) (a : Nat) (ok err : State → Result) (s : State) : Result :=
  if a < Config.addrSpace then
    match platformReply s.plat k a with
    | .completes => ok s
    | .busError => err s
    | .neverAnswers => .next s
  else .fault (.outsideAddressSpace a)

end Sys2Proof.Machine
end

