-- ==== Sys2Proof/Machine/Block.lean ====
section
/-! DEFINITION. `ENC_BLOCK` and `DEC_BLOCK` (R120, R121): the transform of the block in `V0`, `V1`. -/

namespace Sys2Proof.Machine

/-- Acceptance of a single-block command: the block and the operands are latched, `PHASE <- RUN_BLOCK` (R120, R124,
R200). -/
def startBlock (i : Instr) (d : Direction) (s : State) : State :=
  let t := s.accept i
  t.setEng (t.eng.startRounds d { v0 := t.regs.v0, v1 := t.regs.v1 } .runBlock)

/-- The end of a single-block command: `V0` and `V1` are written, both at once, and the command completes (R120,
R205). -/
def finishBlock (s : State) : State :=
  (s.setRegs { s.regs with v0 := s.eng.w0, v1 := s.eng.w1 }).complete

/-- One datapath round of the command in flight (R125). -/
def roundStep (d : Direction) (s : State) : State := s.setEng (s.eng.oneRound s.build.cipher d)

/-- One engine step of a single-block command in flight: a round while `RCNT` is not 0, then the end (R124, R125). -/
def advanceBlock (d : Direction) (s : State) : Result :=
  match s.eng.phase with
  | .runBlock => if s.eng.rcnt = 0#32 then .next (finishBlock s) else .next (roundStep d s)
  | p => .fault (.phaseNotOfCommand p)

/-- `ENC_BLOCK` (R120). -/
def execEncBlock (s : State) : Result :=
  withEngine .encBlock (fun t => .next (startBlock .encBlock .encipher t)) (advanceBlock .encipher) s

/-- `DEC_BLOCK` (R121). -/
def execDecBlock (s : State) : Result :=
  withEngine .decBlock (fun t => .next (startBlock .decBlock .decipher t)) (advanceBlock .decipher) s

end Sys2Proof.Machine
end

