-- ==== Sys2Proof/Machine/Buffer.lean ====
section
/-! DEFINITION. `ENC_BUF` and `DEC_BUF` (R150, R151): the checks at acceptance and the block iterator of R145, one byte
access or one round a step. -/

namespace Sys2Proof.Machine

/-- The iteration starts: `LBASE`, `LNB` and `PHASE` as R145 and R200 say, and the command's byte range comes under the
exclusive access rule (R77). -/
def startIteration (s : State) : State :=
  let nb := blockCount s.regs.size
  let e := { s.eng with
    lbase := s.regs.addr, lnb := BitVec.ofNat 30 nb, bidx := 0#30, beat := 0, phase := .bufRead }
  (s.setEng e).setWorld
    { s.world with windows := { base := s.regs.addr.toNat, blocks := nb } :: s.world.windows }

/-- What acceptance of a buffer command does before its checks: as for every command, and `PROGRESS <- 0` (R200). -/
def acceptBuffer (i : Instr) (s : State) : State :=
  let t := s.accept i
  t.setRegs { t.regs with progress := 0#32 }

/-- Acceptance of a buffer command: the alignment check, the range check, the empty buffer, the iteration, in this order
(R150, R200, R203). -/
def startBuffer (i : Instr) (s : State) : State :=
  let t := acceptBuffer i s
  if t.regs.misaligned then t.raise .misaligned
  else if t.regs.outOfRange then t.raise .range
  else if blockCount t.regs.size = 0 then t.complete
  else startIteration t

/-- The byte read in `BUF_READ` arrives; the eighth one gives `W0`, `W1` and starts the rounds (R64, R145). -/
def byteRead (d : Direction) (s : State) : State :=
  let bs := s.eng.rbuf.set s.eng.beat.val (s.mem.read s.eng.byteAddr) s.eng.beat.isLt
  let e := { s.eng with rbuf := bs }
  if s.eng.beat = 7 then s.setEng ({ e with beat := 0 }.startRounds d (loadBlock s.build.order bs) .bufRounds)
  else s.setEng { e with beat := s.eng.beat + 1 }

/-- The byte that the write access of this step carries (R64, R145). -/
def outByte (s : State) : Byte := blockByte s.build.order s.eng.block s.eng.beat.val

/-- A block has been written back in full: `PROGRESS` counts it, and the next block starts or the command completes
(R145, R148). All of this happens in the step of the eighth write, so no host read finds `PROGRESS = nb` with `BUSY = 1`:
DESIGN CHOICE, unsafe (log entry 28), for R145, R148 and R205 list the three apart and do not say that a host transaction
may not fall between them. -/
def nextBlock (s : State) : State :=
  let t := s.setRegs { s.regs with progress := BitVec.ofNat 32 (s.eng.bidx.toNat + 1) }
  if s.eng.bidx.toNat + 1 < s.eng.lnb.toNat then
    t.setEng { s.eng with bidx := s.eng.bidx + 1#30, beat := 0, phase := .bufRead }
  else t.complete

/-- The byte written in `BUF_WRITE` is stored; the eighth one ends the block (R145, R148). -/
def byteWritten (s : State) : State :=
  let t := s.setMem (s.mem.write s.eng.byteAddr (outByte s))
  if s.eng.beat = 7 then nextBlock t else t.setEng { t.eng with beat := t.eng.beat + 1 }

/-- One engine step of a buffer command in flight (R145): one byte read, one round, one byte write, or the step from
the rounds to the writes. -/
def advanceBuffer (d : Direction) (s : State) : Result :=
  match s.eng.phase with
  | .bufRead =>
    memAccess .read s.eng.byteAddr (fun t => .next (byteRead d t))
      (fun t => .next (t.raiseBusError t.eng.byteAddr)) s
  | .bufRounds =>
    if s.eng.rcnt = 0#32 then .next (s.setEng { s.eng with beat := 0, phase := .bufWrite })
    else .next (roundStep d s)
  | .bufWrite =>
    memAccess .write s.eng.byteAddr (fun t => .next (byteWritten t))
      (fun t => .next ((t.halfWrite t.eng.byteAddr (outByte t)).raiseBusError t.eng.byteAddr)) s
  | p => .fault (.phaseNotOfCommand p)

/-- `ENC_BUF` (R150). -/
def execEncBuf (s : State) : Result :=
  withEngine .encBuf (fun t => .next (startBuffer .encBuf t)) (advanceBuffer .encipher) s

/-- `DEC_BUF` (R151). -/
def execDecBuf (s : State) : Result :=
  withEngine .decBuf (fun t => .next (startBuffer .decBuf t)) (advanceBuffer .decipher) s

end Sys2Proof.Machine
end

