-- ==== Sys2Proof/Machine/Exclusive.lean ====
section
/-! DEFINITION. The host's own accesses to platform memory (R60), and the exclusive access rule (R77): what an agent
reads in a command's range before the end of the command has been observed is unspecified, and so are the final
contents of a block it writes into there (item S2 of 93_implementation_defined.md; log entries 10 and 11). -/

namespace Sys2Proof.Machine

/-- The window's byte range holds the address. -/
def Window.holds (w : Window) (a : Nat) : Bool := decide (w.base ≤ a) && decide (a < w.base + 8 * w.blocks)

/-- The first address of the window's block that holds the address. -/
def Window.blockOf (w : Window) (a : Nat) : Nat := w.base + 8 * ((a - w.base) / 8)

/-- The blocks under the exclusive access rule that hold the address, by their first addresses. -/
def State.ownedBlocks (s : State) (a : Nat) : List Nat :=
  (s.world.windows.filter (fun w => w.holds a)).map (fun w => w.blockOf a)

/-- The `n` bytes from `a` on get unspecified values, each drawn afresh. -/
def scrambleBytes : Nat → Nat → State → State
  | 0, _, s => s
  | n + 1, a, s => scrambleBytes n (a + 1) (s.setMem (s.mem.write a (Config.freeByte s.world.draws))).drawn

/-- Each of the blocks gets unspecified contents. -/
def scrambleBlocks : List Nat → State → State
  | [], s => s
  | a :: as, s => scrambleBlocks as (scrambleBytes 8 a s)

/-- Once no command is in flight, the blocks that were written into during it have unspecified final contents (R77). -/
def settleRaces (s : State) : State :=
  if s.eng.phase = .idle then
    let t := scrambleBlocks s.world.raced s
    t.setWorld { t.world with raced := [] }
  else s

/-- The answer to the host's latest event. -/
def State.respond (s : State) (r : HostResp) : State := s.setWorld { s.world with resp := r }

/-- The end of every command so far has been observed by the host: the exclusive access rule asks nothing more (R71,
R77, R234). -/
def State.closeWindows (s : State) : State := s.setWorld { s.world with windows := [] }

/-- An agent other than the engine reads a byte of platform memory. Inside a range under R77 the value is free. The
access completes at every address, whatever `MEM_OK` says there of the master port: DESIGN CHOICE, unsafe (log entry
26). -/
def hostMemRead (a : BitVec 32) (s : State) : State :=
  if s.ownedBlocks a.toNat = [] then s.respond (.memData (s.mem.read a.toNat))
  else (s.respond (.memData (Config.freeByte s.world.draws))).drawn

/-- An agent other than the engine writes a byte of platform memory. The blocks under R77 that it writes into get
unspecified contents, now and again when the command in flight ends. The access completes at every address, whatever `MEM_OK` says
there of the master port: DESIGN CHOICE, unsafe (log entry 26). -/
def hostMemWrite (a : BitVec 32) (b : Byte) (s : State) : State :=
  let owned := s.ownedBlocks a.toNat
  let t := scrambleBlocks owned (s.setMem (s.mem.write a.toNat b))
  let u := if s.busy then t.setWorld { t.world with raced := owned ++ t.world.raced } else t
  u.respond .memWritten

end Sys2Proof.Machine
end

