-- ==== Sys2Proof/Machine/HostAccess.lean ====
section
/-! DEFINITION. Host register access (42_register_access.md): the register map (R21), which accesses are transactions
(R180, R181), what a read returns (R183) and what a write does, idle (R184), busy (R185) and at `STATUS` (R187). -/

namespace Sys2Proof.Machine

/-- The offset of a register in the window (R21). -/
def regOffset (r : Reg) : Nat :=
  match r with
  | .id => 0x00
  | .ctrl => 0x04
  | .status => 0x08
  | .cmd => 0x0C
  | .rounds => 0x10
  | .key0 => 0x14
  | .key1 => 0x18
  | .key2 => 0x1C
  | .key3 => 0x20
  | .v0 => 0x24
  | .v1 => 0x28
  | .addr => 0x2C
  | .size => 0x30
  | .progress => 0x34
  | .faultAddr => 0x38

/-- The register at an offset, none where the offset is reserved (R21, R34). -/
def regAt (off : Nat) : Option Reg :=
  match off with
  | 0x00 => some .id
  | 0x04 => some .ctrl
  | 0x08 => some .status
  | 0x0C => some .cmd
  | 0x10 => some .rounds
  | 0x14 => some .key0
  | 0x18 => some .key1
  | 0x1C => some .key2
  | 0x20 => some .key3
  | 0x24 => some .v0
  | 0x28 => some .v1
  | 0x2C => some .addr
  | 0x30 => some .size
  | 0x34 => some .progress
  | 0x38 => some .faultAddr
  | _ => none

/-- What an access of the host's bus reaches. -/
inductive Target where
  /-- An address outside the window: not a transaction of this engine (R61). -/
  | outside
  /-- An access of another width or alignment: an error response (R181). -/
  | erroneous
  /-- A reserved offset (R34). -/
  | reserved
  /-- A register. -/
  | register (r : Reg)
deriving DecidableEq, Repr

/-- What the access reaches: the window is `REG_BASE .. REG_BASE + 0xFF` (R61), a transaction is 32 bits wide at a
multiple of 4 (R180). -/
def accessTarget (base : Nat) (a : Access) : Target :=
  if a.addr < base ∨ base + 0x100 ≤ a.addr then .outside
  else if a.bytes ≠ 4 ∨ (a.addr - base) % 4 ≠ 0 then .erroneous
  else
    match regAt (a.addr - base) with
    | some r => .register r
    | none => .reserved

/-- The access that reaches a register: 32 bits at `REG_BASE + offset` (R85, R180). -/
def regAccess (base : Nat) (r : Reg) : Access := { addr := base + regOffset r, bytes := 4 }

/-- What a host read of a register returns, in every phase (R183). -/
def readReg (r : Reg) (s : State) : Word :=
  match r with
  | .id => idWord s.build
  | .ctrl => ctrlWord s.regs
  | .status => statusWord s
  | .cmd => 0#32
  | .rounds => s.regs.rounds
  | .key0 => 0#32
  | .key1 => 0#32
  | .key2 => 0#32
  | .key3 => 0#32
  | .v0 => s.regs.v0
  | .v1 => s.regs.v1
  | .addr => s.regs.addr
  | .size => s.regs.size
  | .progress => s.regs.progress
  | .faultAddr => s.regs.faultAddr

/-- Reading `STATUS` while no command is in flight observes the end of the last one (R71, R234). -/
def observesEnd (r : Reg) (s : State) : Bool := r == .status && !s.busy

/-- A host read (R181, R183). No register changes by being read (R182). -/
def hostRead (a : Access) (s : State) : State :=
  match accessTarget s.plat.regBase a with
  | .outside => s.respond .notTaken
  | .erroneous => s.respond (.error 0#32)
  | .reserved => s.respond (.data 0#32)
  | .register r =>
    let t := s.respond (.data (readReg r s))
    if observesEnd r s then t.closeWindows else t

/-- A host write of `d` at a register other than `CMD` while the engine is idle (R184). -/
def writeRegIdle (r : Reg) (d : Word) (s : State) : State :=
  match r with
  | .id => s
  | .ctrl => s.setRegs (s.regs.writeCtrl d)
  | .status => s.acknowledge d
  | .cmd => s
  | .rounds => s.setRegs { s.regs with rounds := d }
  | .key0 => s.setRegs { s.regs with key := { s.regs.key with k0 := d } }
  | .key1 => s.setRegs { s.regs with key := { s.regs.key with k1 := d } }
  | .key2 => s.setRegs { s.regs with key := { s.regs.key with k2 := d } }
  | .key3 => s.setRegs { s.regs with key := { s.regs.key with k3 := d } }
  | .v0 => s.setRegs { s.regs with v0 := d }
  | .v1 => s.setRegs { s.regs with v1 := d }
  | .addr => s.setRegs { s.regs with addr := d }
  | .size => s.setRegs { s.regs with size := d }
  | .progress => s
  | .faultAddr => s

/-- A host write of `d` at a register while the engine is busy (R185, R187). -/
def writeRegBusy (r : Reg) (d : Word) (s : State) : State :=
  match r with
  | .id => s
  | .ctrl => s.dropWrite
  | .status => s.acknowledge d
  | .cmd => s.dropWrite
  | .rounds => s.dropWrite
  | .key0 => s.dropWrite
  | .key1 => s.dropWrite
  | .key2 => s.dropWrite
  | .key3 => s.dropWrite
  | .v0 => s.dropWrite
  | .v1 => s.dropWrite
  | .addr => s.dropWrite
  | .size => s.dropWrite
  | .progress => s
  | .faultAddr => s

/-- A host write of `d`, but for a write at `CMD` while idle, which issues a command (R186). -/
def hostWrite (a : Access) (d : Word) (s : State) : State :=
  match accessTarget s.plat.regBase a with
  | .outside => s.respond .notTaken
  | .erroneous => s.respond (.error 0#32)
  | .reserved => s.respond .written
  | .register r => (if s.busy then writeRegBusy r d s else writeRegIdle r d s).respond .written

/-- The access is a write at `CMD` that issues a command: the engine is idle (R186). -/
def issuesCommand (a : Access) (s : State) : Bool :=
  !s.busy && accessTarget s.plat.regBase a == .register .cmd

/-- The host looks at the interrupt output (R207). Seeing it at 1 observes the end of the command (R71). -/
def hostIrq (s : State) : State :=
  let t := s.respond (.irq s.irq)
  if s.irq then t.closeWindows else t

end Sys2Proof.Machine
end

