-- ==== Sys2Proof/Machine/Reset.lean ====
section
/-! DEFINITION. The reset input (R230 to R232). -/

namespace Sys2Proof.Machine

/-- A byte write in progress is cut short: the byte holds its old or its new value, a free draw (R231). -/
def cutWrite (s : State) : State :=
  if s.eng.phase = .bufWrite ∧ s.eng.byteAddr < Config.addrSpace then s.halfWrite s.eng.byteAddr (outByte s) else s

/-- Every piece of engine state takes its reset value (R230). Memory keeps what it holds (R231). -/
def State.resetEngine (s : State) : State := (s.setRegs Regs.reset).setEng Engine.reset

/-- The platform asserts the reset input. A command in flight is abandoned: no `DONE`, no interrupt, and the block in
progress partly written (R231). -/
def assertReset (s : State) : State :=
  let t := settleRaces (cutWrite s).resetEngine
  t.setWorld { t.world with windows := [], resetLine := true }

/-- The platform releases the reset input: every piece of state has its reset value (R230). -/
def releaseReset (s : State) : State :=
  if s.world.resetLine then s.resetEngine.setWorld { s.world with resetLine := false } else s

end Sys2Proof.Machine
end

