-- ==== Sys2Proof/Machine/Agents.lean ====
section
/-! DEFINITION. The agents' steps: the engine's turn, the issue of a command, and what each event does (R182, R186). -/

namespace Sys2Proof.Machine

/-- The engine takes one of its own steps: the command in flight goes on. Idle, or held in reset, it does nothing
(R219, R230, R232). -/
def engineTurn (s : State) : Result :=
  if s.world.resetLine ∨ s.eng.phase = .idle then .next s
  else
    match exec s.eng.lop s with
    | .next t => .next (settleRaces t)
    | .fault f => .fault f
    | .refused r => .refused r

/-- The word written to `CMD` while idle is decoded and, where it is legal, given to its command's meaning; an illegal
word ends at once (R83, R186, R201). -/
def issueCommand (w : Word) (s : State) : Result :=
  match decode w with
  | .ok i => exec i s
  | .error _ => .next s.illegalWord

/-- What one event does. While reset is asserted no host transaction is taken (R230). -/
def takeEvent (e : Event) (s : State) : Result :=
  match e with
  | .engine => engineTurn s
  | .regRead a => .next (if s.world.resetLine then s.respond .notTaken else hostRead a s)
  | .regWrite a d =>
    if s.world.resetLine then .next (s.respond .notTaken)
    else if issuesCommand a s then issueCommand d (s.respond .written)
    else .next (hostWrite a d s)
  | .irqSample => .next (hostIrq s)
  | .memRead a => .next (hostMemRead a s)
  | .memWrite a b => .next (hostMemWrite a b s)
  | .resetAssert => .next (assertReset s)
  | .resetRelease => .next (releaseReset s)
  | .platformRegions rs => .next { s with plat := { s.plat with regions := rs } }

/-- The state with the events still to come. -/
def State.withInputs (s : State) (es : List Event) : State := s.setWorld { s.world with inputs := es }

/-- The host's write of a command word at `CMD`, as an event (R80, R85). -/
def commandEvent (base : Nat) (w : Word) : Event := .regWrite (regAccess base .cmd) w

end Sys2Proof.Machine
end

