-- ==== Sys2Proof/Machine/Step.lean ====
section
/-! DEFINITION. One step of the whole machine, and the placing of a command where the next step takes it. -/

namespace Sys2Proof.Machine

/-- One step: the next event of the interleaving happens; when no event is left, the engine takes its turn (R182, R240,
log entry 6). -/
def step (s : State) : Host.Outcome State Fault Refusal :=
  match s.world.inputs with
  | [] => engineTurn s
  | e :: rest => takeEvent e (s.withInputs rest)

/-- `s` with the host about to write the command word at `CMD`, and the engine in the condition in which such a write is
taken: reset released and idle (R186, log entry 16). -/
def State.withFetchWord (s : State) (nbits w : Nat) : State :=
  { s with
    eng := s.eng.toIdle
    world := { s.world with
      resetLine := false
      inputs := commandEvent s.plat.regBase (tableWord nbits w) :: s.world.inputs } }

end Sys2Proof.Machine
end

