-- ==== Sys2Proof/Machine/HostProgram.lean ====
section
/-! DEFINITION. The host's notation and its four pseudo-operations (R85, R86), and how a host program runs against the
machine. Host software is outside the hardware (00_scope.md section 3); it is here because R85 and R86 give it. -/

namespace Sys2Proof.Machine

/-- One line of a host program (R85). -/
inductive HostOp where
  /-- `WR <REG>, <value>` -/
  | wr (r : Reg) (d : Word)
  /-- `RD <REG>` -/
  | rd (r : Reg)
  /-- `WAIT_DONE`: `RD STATUS` until bit 1 (DONE) reads 1. -/
  | waitDone
  /-- `MEM`, a read of one byte of platform memory by the host's own means. -/
  | memRead (a : BitVec 32)
  /-- `MEM`, a write of one byte of platform memory by the host's own means. -/
  | memWrite (a : BitVec 32) (b : Byte)
deriving DecidableEq, Repr

/-- `MEM <addr>: <bytes>` as a write of the bytes, lowest address first (R85). -/
def memBytes : BitVec 32 → List Byte → List HostOp
  | _, [] => []
  | a, b :: bs => .memWrite a b :: memBytes (a + 1#32) bs

/-- The transaction that a line makes; for `WAIT_DONE`, one of its reads (R85). -/
def HostOp.event (base : Nat) : HostOp → Event
  | .wr r d => .regWrite (regAccess base r) d
  | .rd r => .regRead (regAccess base r)
  | .waitDone => .regRead (regAccess base .status)
  | .memRead a => .memRead a
  | .memWrite a b => .memWrite a b

/-- The answer shows `DONE = 1`, bit 1 of `STATUS` (R24, R85). -/
def HostResp.showsDone : HostResp → Bool
  | .data w => w.getLsbD 1
  | _ => false

/-- The line is over once its transaction got this answer: `WAIT_DONE` when `DONE` read 1, every other line at once
(R85). -/
def HostOp.over (r : HostResp) : HostOp → Bool
  | .wr _ _ => true
  | .rd _ => true
  | .waitDone => r.showsDone
  | .memRead _ => true
  | .memWrite _ _ => true

/-- A host program on its way: the lines still to come, the answers to its transactions so far, and the machine. -/
structure HostRun where
  todo : List HostOp
  answers : List HostResp
  machine : State
deriving DecidableEq, Repr

/-- The result of one turn of a host program and its machine. -/
abbrev HostResult := Host.Outcome HostRun Fault Refusal

/-- The run that goes on as `k` says from the machine's next state; a stop of the machine stops the run. -/
def HostResult.ofStep (k : State → HostRun) : Result → HostResult
  | .next t => .next (k t)
  | .fault f => .fault f
  | .refused r => .refused r

/-- The run after its next line `op` was answered in the state `t`: a line that is not over is taken again (R85). -/
def HostRun.answered (h : HostRun) (op : HostOp) (rest : List HostOp) (t : State) : HostRun where
  todo := if op.over t.world.resp then rest else op :: rest
  answers := h.answers ++ [t.world.resp]
  machine := t

/-- The host makes the next transaction of its program (R85). -/
def hostTurn (h : HostRun) : HostResult :=
  match h.todo with
  | [] => .next h
  | op :: rest =>
    HostResult.ofStep (h.answered op rest) (step (h.machine.withInputs [op.event h.machine.plat.regBase]))

/-- Whose turn it is in the interleaving of a host program with the rest of the machine (R182). -/
inductive Turn where
  /-- The host makes a transaction. -/
  | host
  /-- Something else happens: a step of the engine, another agent's access, reset. -/
  | other (e : Event)
deriving DecidableEq, Repr

/-- One turn. -/
def takeTurn (h : HostRun) : Turn → HostResult
  | .host => hostTurn h
  | .other e => HostResult.ofStep (fun t => { h with machine := t }) (step (h.machine.withInputs [e]))

/-- The turns in order, up to the first stop of the machine. -/
def runTurns : List Turn → HostRun → HostResult
  | [], h => .next h
  | t :: ts, h =>
    match takeTurn h t with
    | .next k => runTurns ts k
    | .fault f => .fault f
    | .refused r => .refused r

/-- The four writes of a key (R86). -/
def wrKey (k : Key) : List HostOp := [.wr .key0 k.k0, .wr .key1 k.k1, .wr .key2 k.k2, .wr .key3 k.k3]

/-- `R` of a pseudo-operation that names none: the source's default, `rounds=32` (R86). -/
abbrev defaultRounds : Word := 32#32

/-- `ENCIPHER` with the command word 1, `DECIPHER` with the command word 2 (R86). -/
def blockProgram (cmd : Word) (b : Block) (k : Key) (r : Word) : List HostOp :=
  wrKey k ++ [.wr .rounds r, .wr .v0 b.v0, .wr .v1 b.v1, .wr .cmd cmd, .waitDone, .rd .v0, .rd .v1,
    .wr .status 0x00000002#32]

/-- `ENCIPHER v0, v1, k0, k1, k2, k3, R` (R86). -/
def encipherProgram (b : Block) (k : Key) (r : Word := defaultRounds) : List HostOp :=
  blockProgram 0x00000001#32 b k r

/-- `DECIPHER v0, v1, k0, k1, k2, k3, R` (R86). -/
def decipherProgram (b : Block) (k : Key) (r : Word := defaultRounds) : List HostOp :=
  blockProgram 0x00000002#32 b k r

/-- The host's own error (R212). -/
inductive HostError where
  | invalidKeyLength
deriving DecidableEq, Repr

/-- Key word `j` from key bytes `4j .. 4j+3` (R86, R155). -/
def keyWordOfBytes (o : ByteOrder) (bs : List Byte) (j : Nat) : Word :=
  load32 o (bs.getD (4 * j) 0#8) (bs.getD (4 * j + 1) 0#8) (bs.getD (4 * j + 2) 0#8) (bs.getD (4 * j + 3) 0#8)

/-- The key that 16 key bytes hold; any other length is the host's `InvalidKeyLengthError` (R86, R155, R212). -/
def keyOfBytes (o : ByteOrder) (bs : List Byte) : Except HostError Key :=
  if bs.length = 16 then
    .ok { k0 := keyWordOfBytes o bs 0, k1 := keyWordOfBytes o bs 1,
          k2 := keyWordOfBytes o bs 2, k3 := keyWordOfBytes o bs 3 }
  else .error .invalidKeyLength

/-- `ENCRYPT` with the command word 3, `DECRYPT` with the command word 4; a key of another length is the host's error,
and no transaction is made (R86). -/
def bufferProgram (cmd : Word) (o : ByteOrder) (addr size : Word) (key16 : List Byte) (r : Word) :
    Except HostError (List HostOp) :=
  match keyOfBytes o key16 with
  | .ok k => .ok (wrKey k ++ [.wr .rounds r, .wr .addr addr, .wr .size size, .wr .cmd cmd, .waitDone, .rd .status,
      .wr .status 0x00000002#32])
  | .error e => .error e

/-- `ENCRYPT addr, size, key16, R` (R86). -/
def encryptProgram (o : ByteOrder) (addr size : Word) (key16 : List Byte) (r : Word := defaultRounds) :
    Except HostError (List HostOp) :=
  bufferProgram 0x00000003#32 o addr size key16 r

/-- `DECRYPT addr, size, key16, R` (R86). -/
def decryptProgram (o : ByteOrder) (addr size : Word) (key16 : List Byte) (r : Word := defaultRounds) :
    Except HostError (List HostOp) :=
  bufferProgram 0x00000004#32 o addr size key16 r

/-- `s[7:4]`, the result code in what `ENCRYPT` and `DECRYPT` read of `STATUS` (R86). -/
def resultCode (s : Word) : BitVec 4 := s.extractLsb' 4 4

end Sys2Proof.Machine
end

