-- ==== Sys2Proof/Safety.lean ====
section
/-! DEFINITION. The terms that claims are stated in: which command does what, the memory a buffer command leaves, and
the invariants of a run. -/

namespace Sys2Proof.Machine

/-- The function of the Block Transform that the command applies (R120, R121, R150, R151). -/
def directionOf (i : Instr) : Direction :=
  match i with
  | .encBlock => .encipher
  | .decBlock => .decipher
  | .encBuf => .encipher
  | .decBuf => .decipher

/-- `ENC_BLOCK` and `DEC_BLOCK`. -/
def isBlockCommand (i : Instr) : Bool := i == .encBlock || i == .decBlock

/-- `ENC_BUF` and `DEC_BUF`. -/
def isBufferCommand (i : Instr) : Bool := i == .encBuf || i == .decBuf

/-- The phase belongs to the command (R124, R145). -/
def phaseOfCommand (p : Phase) (i : Instr) : Bool :=
  match p with
  | .idle => true
  | .runBlock => isBlockCommand i
  | .bufRead => isBufferCommand i
  | .bufRounds => isBufferCommand i
  | .bufWrite => isBufferCommand i

/-- The phase is one of a buffer command. -/
def Phase.ofBuffer (p : Phase) : Bool := p == .bufRead || p == .bufRounds || p == .bufWrite

/-- The phase runs rounds. -/
def Phase.runsRounds (p : Phase) : Bool := p == .runBlock || p == .bufRounds

/-- The engine is ready for a command: idle and not held in reset (R186, R230). -/
abbrev State.ready (s : State) : Prop := s.eng.phase = .idle ∧ s.world.resetLine = false

/-- The next event is `e`, and then come `es`. -/
abbrev State.nextEvent (s : State) (e : Event) (es : List Event) : Prop := s.world.inputs = e :: es

/-- The block that memory holds at the address (R64). -/
def blockAt (o : ByteOrder) (m : Memory) (a : Nat) : Block where
  v0 := load32 o (m.read a) (m.read (a + 1)) (m.read (a + 2)) (m.read (a + 3))
  v1 := load32 o (m.read (a + 4)) (m.read (a + 5)) (m.read (a + 6)) (m.read (a + 7))

/-- Memory with the bytes `j .. j+n-1` of the block written to `a+j .. a+j+n-1`, in increasing order (R65). -/
def storeBytes (o : ByteOrder) (b : Block) (a : Nat) : Nat → Nat → Memory → Memory
  | 0, _, m => m
  | n + 1, j, m => storeBytes o b a n (j + 1) (m.write (a + j) (blockByte o b j))

/-- Memory with the block at the address transformed in place (R145). -/
def cipherBlock (bd : Build) (d : Direction) (k : Key) (r : Word) (a : Nat) (m : Memory) : Memory :=
  storeBytes bd.order (transform bd.cipher d (blockAt bd.order m a) k r) a 8 0 m

/-- Memory with `n` successive blocks from the address on transformed in place, in increasing order (R145, R146). -/
def cipherBlocks (bd : Build) (d : Direction) (k : Key) (r : Word) : Nat → Nat → Memory → Memory
  | 0, _, m => m
  | n + 1, a, m => cipherBlocks bd d k r n (a + 8) (cipherBlock bd d k r a m)

/-- Every access of the master port to the `n` addresses from `a` on completes (R66). -/
abbrev memOkRange (p : Platform) (a n : Nat) : Prop :=
  ∀ x, a ≤ x → x < a + n → platformReply p .read x = .completes ∧ platformReply p .write x = .completes

/-- No access of the master port is left without an answer for ever (R240). -/
abbrev alwaysAnswers (p : Platform) : Prop := ∀ k a, platformReply p k a ≠ .neverAnswers

/-- The checks of a buffer command pass (R142, R143). -/
abbrev Regs.bufferOk (r : Regs) : Prop := r.misaligned = false ∧ r.outOfRange = false

/-- What holds of the machine between any two steps: the memory's canonical form; the phase fits the command in flight;
while busy the flags and the latched operands are those of the registers (R24, R35, R185); the iterator stays inside
the range that the checks accepted, and `PROGRESS` counts the blocks (R143, R148; log entry 28); the races of R77 are kept track of;
and reset holds the registers at their reset values (R230) and the internal state at `Engine.reset`, of which R230 states
`PHASE` alone: the rest is DESIGN CHOICE (log entry 5). -/
structure State.Inv (s : State) : Prop where
  mem_wf : s.mem.wf
  phase_fits : phaseOfCommand s.eng.phase s.eng.lop = true
  busy_flags : s.eng.phase ≠ .idle → s.regs.done = false ∧ s.regs.err = .ok
  busy_operands : s.eng.phase ≠ .idle → s.eng.lk = s.regs.key ∧ s.eng.lr = s.regs.rounds
  buffer_range : s.eng.phase.ofBuffer = true →
    s.eng.lbase = s.regs.addr ∧ s.eng.lnb.toNat = blockCount s.regs.size ∧ s.regs.bufferOk ∧
    s.eng.bidx.toNat < s.eng.lnb.toNat ∧ s.regs.progress.toNat = s.eng.bidx.toNat
  rounds_left : s.eng.phase.runsRounds = true → s.eng.rcnt.toNat ≤ s.eng.lr.toNat
  idle_raced : s.eng.phase = .idle → s.world.raced = []
  windows_fit : ∀ w ∈ s.world.windows, w.base + 8 * w.blocks ≤ Config.addrSpace
  raced_fit : ∀ a ∈ s.world.raced, a + 8 ≤ Config.addrSpace
  held_in_reset : s.world.resetLine = true → s.regs = Regs.reset ∧ s.eng = Engine.reset

/-- What the rounds still to run will give, from the datapath as it stands (R125). -/
def State.remaining (s : State) : Mix :=
  repeatRounds (mixRound s.build.cipher (directionOf s.eng.lop) s.eng.lk) s.eng.rcnt.toNat
    { v0 := s.eng.w0, v1 := s.eng.w1, sum := s.eng.sum }

/-- The datapath is on its way to the right block: while rounds run, what is left of them gives the transform of the
block they began with, the block of `V0`, `V1` or the one read from memory; while the block is written back, `W0`, `W1`
is that transform (R120, R121, R125, R145). -/
structure State.DatapathInv (s : State) : Prop where
  block_rounds : s.eng.phase = .runBlock →
    s.remaining = runRounds s.build.cipher (directionOf s.eng.lop) { v0 := s.regs.v0, v1 := s.regs.v1 } s.eng.lk s.eng.lr
  buffer_rounds : s.eng.phase = .bufRounds →
    s.remaining = runRounds s.build.cipher (directionOf s.eng.lop) (loadBlock s.build.order s.eng.rbuf) s.eng.lk s.eng.lr
  buffer_write : s.eng.phase = .bufWrite →
    s.eng.block = transform s.build.cipher (directionOf s.eng.lop) (loadBlock s.build.order s.eng.rbuf) s.eng.lk s.eng.lr

/-- Two states that differ at most in the key registers and the latched key. -/
abbrev sameButKey (s t : State) : Prop :=
  t = { s with regs := { s.regs with key := t.regs.key }, eng := { s.eng with lk := t.eng.lk } }

/-- How many steps of its own the engine still takes at most: the rounds left and the end of a single-block command,
`17 + R` steps for each block of a buffer command (R240). -/
def stepBound (s : State) : Nat :=
  if s.eng.phase = .runBlock then s.eng.rcnt.toNat + 1 else s.eng.lnb.toNat * (17 + s.eng.lr.toNat)

end Sys2Proof.Machine
end

