-- ==== Sys2Proof/Certificates/Slice0/Obligations.lean ====
section
/-! DEFINITION. The statements for the provers, in the order of OBLIGATIONS.json. -/

open Sys2Proof Sys2Proof.Machine

/-! ### The command words -/

/-- R83, with the words of R81: every word decodes to exactly one command, by its word, or is illegal; and the encoder
and the decoder agree. -/
def Obligations.DecodeAndEncodeAgree : Prop :=
  (∀ (w : Word) (i : Instr), decode w = .ok i ↔ w = encode i) ∧
  encode .encBlock = 0x00000001#32 ∧ encode .decBlock = 0x00000002#32 ∧
  encode .encBuf = 0x00000003#32 ∧ encode .decBuf = 0x00000004#32 ∧
  (∀ w : Word, (∃ e, decode w = .error e) ↔ ∀ i, w ≠ encode i)

/-- 30_encoding.md section 3: which field makes a word illegal. -/
def Obligations.IllegalWordsByField : Prop :=
  ∀ w : Word,
    (decode w = .error .mbzNotZero ↔ w >>> 4 ≠ 0#32) ∧
    (decode w = .error .reservedOp ↔ w >>> 4 = 0#32 ∧ (w &&& 0xF#32 = 0#32 ∨ 0x5#32 ≤ w &&& 0xF#32))

/-- The words of the opcode table, and the illegal words of 95_test_vectors.md section 3, as the decoder reads them. -/
def Obligations.TableWordsDecode : Prop :=
  decodeTableWord 32 0x00000001 = some .encBlock ∧ decodeTableWord 32 0x00000002 = some .decBlock ∧
  decodeTableWord 32 0x00000003 = some .encBuf ∧ decodeTableWord 32 0x00000004 = some .decBuf ∧
  decodeTableWord 32 0x00000000 = none ∧ decodeTableWord 32 0x00000005 = none ∧
  decodeTableWord 32 0x0000000F = none ∧ decodeTableWord 32 0x00000010 = none ∧
  decodeTableWord 32 0x80000001 = none ∧ decodeTableWord 32 0x10000003 = none

/-! ### The Block Transform -/

/-- 40_block_transform.md sections 2 and 3: the mixing terms and the key indices, and each structure's iteration written
out; a decipher iteration takes `v0` from the `v1` just restored. The XTEA round is PRESUMED: the spec takes it from
general knowledge (log entry 18). -/
def Obligations.RoundFormulas : Prop :=
  (∀ x s ka kb : Word, fTea x s ka kb = ((x <<< 4) + ka) ^^^ (x + s) ^^^ ((x >>> 5) + kb)) ∧
  (∀ x : Word, gXtea x = ((x <<< 4) ^^^ (x >>> 5)) + x) ∧
  (∀ s : Word, idx0 s = s.toNat % 4 ∧ idx1 s = s.toNat / 2 ^ 11 % 4) ∧
  (∀ k : Key, k.word 0 = k.k0 ∧ k.word 1 = k.k1 ∧ k.word 2 = k.k2 ∧ k.word 3 = k.k3) ∧
  (∀ (k : Key) (v0 v1 s : Word),
    mixRound .tea .encipher k ⟨v0, v1, s⟩ =
      ⟨v0 + fTea v1 (s + 0x9E3779B9#32) k.k0 k.k1,
       v1 + fTea (v0 + fTea v1 (s + 0x9E3779B9#32) k.k0 k.k1) (s + 0x9E3779B9#32) k.k2 k.k3,
       s + 0x9E3779B9#32⟩ ∧
    mixRound .tea .decipher k ⟨v0, v1, s⟩ =
      ⟨v0 - fTea (v1 - fTea v0 s k.k2 k.k3) s k.k0 k.k1, v1 - fTea v0 s k.k2 k.k3, s - 0x9E3779B9#32⟩) ∧
  (∀ (k : Key) (v0 v1 s : Word),
    mixRound .xtea .encipher k ⟨v0, v1, s⟩ =
      ⟨v0 + (gXtea v1 ^^^ (s + k.word (idx0 s))),
       v1 + (gXtea (v0 + (gXtea v1 ^^^ (s + k.word (idx0 s)))) ^^^
         (s + 0x9E3779B9#32 + k.word (idx1 (s + 0x9E3779B9#32)))),
       s + 0x9E3779B9#32⟩ ∧
    mixRound .xtea .decipher k ⟨v0, v1, s⟩ =
      ⟨v0 - (gXtea (v1 - (gXtea v0 ^^^ (s + k.word (idx1 s)))) ^^^
         (s - 0x9E3779B9#32 + k.word (idx0 (s - 0x9E3779B9#32)))),
       v1 - (gXtea v0 ^^^ (s + k.word (idx1 s))),
       s - 0x9E3779B9#32⟩)

/-- R113: with `R = 0` the block comes back unchanged. -/
def Obligations.ZeroRoundsAreTheIdentity : Prop :=
  ∀ (c : CipherStructure) (d : Direction) (b : Block) (k : Key), transform c d b k 0#32 = b

/-- R114: `Decipher` and `Encipher` undo each other, for every structure, block, key and round count. -/
def Obligations.DecipherInvertsEncipher : Prop :=
  ∀ (c : CipherStructure) (b : Block) (k : Key) (r : Word),
    transform c .decipher (transform c .encipher b k r) k r = b ∧
    transform c .encipher (transform c .decipher b k r) k r = b

/-- R119: `sum` ends at `R * DELTA` to encipher and at 0 to decipher, and no register shows it. -/
def Obligations.SumBookkeeping : Prop :=
  (∀ (c : CipherStructure) (b : Block) (k : Key) (r : Word),
    (runRounds c .encipher b k r).sum = r * 0x9E3779B9#32 ∧ (runRounds c .decipher b k r).sum = 0#32) ∧
  (∀ (r : Reg) (s : State) (x : Word), readReg r (s.setEng { s.eng with sum := x }) = readReg r s)

/-- R8: `load32` of four bytes in either order, as a number, and `store32` as its inverse. -/
def Obligations.LoadAndStoreAreInverse : Prop :=
  (∀ b0 b1 b2 b3 : Byte,
    (load32 .le b0 b1 b2 b3).toNat = b0.toNat + 2 ^ 8 * b1.toNat + 2 ^ 16 * b2.toNat + 2 ^ 24 * b3.toNat ∧
    (load32 .be b0 b1 b2 b3).toNat = b3.toNat + 2 ^ 8 * b2.toNat + 2 ^ 16 * b1.toNat + 2 ^ 24 * b0.toNat) ∧
  (∀ (o : ByteOrder) (w : Word), load32 o (store32 o w 0) (store32 o w 1) (store32 o w 2) (store32 o w 3) = w) ∧
  (∀ (o : ByteOrder) (b0 b1 b2 b3 : Byte),
    store32 o (load32 o b0 b1 b2 b3) 0 = b0 ∧ store32 o (load32 o b0 b1 b2 b3) 1 = b1 ∧
    store32 o (load32 o b0 b1 b2 b3) 2 = b2 ∧ store32 o (load32 o b0 b1 b2 b3) 3 = b3)

/-! ### Reset -/

/-- 10_state.md section 5: what a host reads of each register right after reset of the default build, and the interrupt
output. -/
def Obligations.RegistersReadTheirResetValues : Prop :=
  readReg .id State.reset = 0x54450100#32 ∧ readReg .ctrl State.reset = 0#32 ∧ readReg .status State.reset = 0#32 ∧
  readReg .rounds State.reset = 0x00000020#32 ∧ State.reset.regs.key = ⟨0#32, 0#32, 0#32, 0#32⟩ ∧
  readReg .v0 State.reset = 0#32 ∧ readReg .v1 State.reset = 0#32 ∧ readReg .addr State.reset = 0#32 ∧
  readReg .size State.reset = 0#32 ∧ readReg .progress State.reset = 0#32 ∧
  readReg .faultAddr State.reset = 0#32 ∧ State.reset.eng.phase = .idle ∧ State.reset.irq = false

/-- R230: a step that asserts reset, in any state, and every step taken while it is asserted and that releases it, leave
every register at the value of 10_state.md section 5, `PHASE` at `IDLE` and `IRQ` at 0; and while it is asserted a host
transaction changes nothing of the engine or of memory. The value of an internal register is not stated: R230 leaves it
unspecified. -/
def Obligations.ResetGivesEveryRegisterItsResetValue : Prop :=
  (∀ s t : State, (∃ es, s.nextEvent .resetAssert es) ∨ (s.Inv ∧ s.world.resetLine = true) → step s = .next t →
    t.eng.phase = .idle ∧ t.irq = false ∧ t.build = s.build ∧
    t.regs.compat = false ∧ t.regs.irqEn = false ∧ t.regs.done = false ∧ t.regs.wign = false ∧ t.regs.err = .ok ∧
    t.regs.rounds = 32#32 ∧ t.regs.key = ⟨0#32, 0#32, 0#32, 0#32⟩ ∧ t.regs.v0 = 0#32 ∧ t.regs.v1 = 0#32 ∧
    t.regs.addr = 0#32 ∧ t.regs.size = 0#32 ∧ t.regs.progress = 0#32 ∧ t.regs.faultAddr = 0#32) ∧
  (∀ (s : State) (es : List Event), s.nextEvent .resetAssert es → ∃ t, step s = .next t ∧ t.world.resetLine = true) ∧
  (∀ (s : State) (es : List Event), s.nextEvent .resetRelease es → ∃ t, step s = .next t ∧ t.world.resetLine = false) ∧
  (∀ (s : State) (es : List Event) (a : Access) (d : Word), s.world.resetLine = true →
    s.nextEvent (.regRead a) es ∨ s.nextEvent (.regWrite a d) es →
    ∃ t, step s = .next t ∧ t.regs = s.regs ∧ t.eng = s.eng ∧ t.mem = s.mem ∧ t.world.resetLine = true)

/-- 70_reset_and_hazards.md section 1: a reset that finds a command in flight sets no `DONE` and changes memory at
most in the byte whose write it cut short, which holds its old or its new value. -/
def Obligations.ResetKeepsMemoryButForTheByteInFlight : Prop :=
  ∀ (s : State) (es : List Event), s.mem.wf → s.nextEvent .resetAssert es → s.world.raced = [] →
    ∃ t, step s = .next t ∧ t.regs.done = false ∧ t.irq = false ∧ t.regs.progress = 0#32 ∧
      (∀ a, ¬ (s.eng.phase = .bufWrite ∧ a = s.eng.byteAddr) → t.mem.read a = s.mem.read a) ∧
      (s.eng.phase = .bufWrite →
        t.mem.read s.eng.byteAddr = s.mem.read s.eng.byteAddr ∨
        t.mem.read s.eng.byteAddr = blockByte s.build.order s.eng.block s.eng.beat.val)

/-! ### Host register access -/

/-- R183: what a host read returns at each offset of the window, busy or idle; and `V0`, `V1`, which it returns, keep
their value from before a single-block command while the command runs. -/
def Obligations.ReadsReturnTheRegisterMap : Prop :=
  (∀ (s t : State) (i : Instr), i = .encBlock ∨ i = .decBlock →
    (s.eng.phase = .idle ∧ exec i s = .next t) ∨ (s.eng.phase = .runBlock ∧ step s = .next t) →
    t.eng.phase = .runBlock → t.regs.v0 = s.regs.v0 ∧ t.regs.v1 = s.regs.v1) ∧
  ∀ (s : State) (es : List Event) (off : Nat), off % 4 = 0 → off < 0x100 → s.world.resetLine = false →
    s.nextEvent (.regRead { addr := s.plat.regBase + off, bytes := 4 }) es →
    ∃ t, step s = .next t ∧ t.world.resp = .data (
      if off = 0x00 then 0x54450100#32 ||| (if s.build.order = .be then 2#32 else 0#32) |||
        (if s.build.cipher = .xtea then 1#32 else 0#32)
      else if off = 0x04 then (if s.regs.compat then 1#32 else 0#32) ||| (if s.regs.irqEn then 2#32 else 0#32)
      else if off = 0x08 then (if s.eng.phase ≠ .idle then 1#32 else 0#32) ||| (if s.regs.done then 2#32 else 0#32) |||
        (if s.regs.wign then 4#32 else 0#32) |||
        (match s.regs.err with
          | .ok => 0#32
          | .illegalCmd => 0x10#32
          | .misaligned => 0x20#32
          | .range => 0x30#32
          | .busError => 0x40#32)
      else if off = 0x10 then s.regs.rounds
      else if off = 0x24 then s.regs.v0
      else if off = 0x28 then s.regs.v1
      else if off = 0x2C then s.regs.addr
      else if off = 0x30 then s.regs.size
      else if off = 0x34 then s.regs.progress
      else if off = 0x38 then s.regs.faultAddr
      else 0#32)

/-- 42_register_access.md section 1: a host read of any kind changes no register, no internal state and no memory. -/
def Obligations.ReadsHaveNoSideEffect : Prop :=
  ∀ (s : State) (es : List Event) (a : Access), s.nextEvent (.regRead a) es →
    ∃ t, step s = .next t ∧ t.regs = s.regs ∧ t.eng = s.eng ∧ t.mem = s.mem ∧ t.build = s.build ∧ t.plat = s.plat ∧
      t.world.inputs = es ∧ t.world.resetLine = s.world.resetLine

/-- R181: an access of another width or alignment gets an error response, a read of it returns 0 as data, and nothing
of the engine changes, `WIGN` included. -/
def Obligations.ErroneousAccessesChangeNothing : Prop :=
  ∀ (s : State) (es : List Event) (a : Access) (d : Word), s.world.resetLine = false →
    s.plat.regBase ≤ a.addr → a.addr < s.plat.regBase + 0x100 → (a.bytes ≠ 4 ∨ (a.addr - s.plat.regBase) % 4 ≠ 0) →
    s.nextEvent (.regRead a) es ∨ s.nextEvent (.regWrite a d) es →
    ∃ t, step s = .next t ∧ t.regs = s.regs ∧ t.eng = s.eng ∧ t.mem = s.mem ∧ t.world.resp = .error 0#32

/-- R184: what a host write does at each offset while the engine is idle: at `CMD` it issues the word as a command, which
runs if it is legal and ends at once if not; no write sets `WIGN`. -/
def Obligations.IdleWritesReachTheirRegister : Prop :=
  (∀ (s : State) (es : List Event) (d : Word), s.ready →
    s.nextEvent (.regWrite { addr := s.plat.regBase + 0x0C, bytes := 4 } d) es →
    (∀ i, decode d = .ok i → step s = exec i { s with world := { s.world with inputs := es, resp := .written } } ∧
      ∃ t, step s = .next t ∧ t.regs.wign = s.regs.wign) ∧
    (∀ e, decode d = .error e → step s = .next { s with
      regs := { s.regs with done := true, err := .illegalCmd },
      world := { s.world with inputs := es, resp := .written } })) ∧
  ∀ (s : State) (es : List Event) (off : Nat) (d : Word), off % 4 = 0 → off < 0x100 → off ≠ 0x0C → s.ready →
    s.nextEvent (.regWrite { addr := s.plat.regBase + off, bytes := 4 } d) es →
    ∃ t, step s = .next t ∧ t.eng = s.eng ∧ t.mem = s.mem ∧ t.world.resp = .written ∧ t.regs =
      (if off = 0x04 then { s.regs with compat := d.getLsbD 0, irqEn := d.getLsbD 1 }
      else if off = 0x08 then
        { s.regs with done := s.regs.done && !d.getLsbD 1, wign := s.regs.wign && !d.getLsbD 2 }
      else if off = 0x10 then { s.regs with rounds := d }
      else if off = 0x14 then { s.regs with key := { s.regs.key with k0 := d } }
      else if off = 0x18 then { s.regs with key := { s.regs.key with k1 := d } }
      else if off = 0x1C then { s.regs with key := { s.regs.key with k2 := d } }
      else if off = 0x20 then { s.regs with key := { s.regs.key with k3 := d } }
      else if off = 0x24 then { s.regs with v0 := d }
      else if off = 0x28 then { s.regs with v1 := d }
      else if off = 0x2C then { s.regs with addr := d }
      else if off = 0x30 then { s.regs with size := d }
      else s.regs)

/-- R185: what a host write does at each offset while the engine is busy: dropped with `WIGN` set at the operand and
command registers, acting at `STATUS`, nothing elsewhere; the command in flight is not changed. -/
def Obligations.BusyWritesAreDropped : Prop :=
  ∀ (s : State) (es : List Event) (off : Nat) (d : Word), off % 4 = 0 → off < 0x100 →
    s.eng.phase ≠ .idle → s.world.resetLine = false →
    s.nextEvent (.regWrite { addr := s.plat.regBase + off, bytes := 4 } d) es →
    ∃ t, step s = .next t ∧ t.eng = s.eng ∧ t.mem = s.mem ∧ t.world.resp = .written ∧ t.regs =
      (if off = 0x08 then
        { s.regs with done := s.regs.done && !d.getLsbD 1, wign := s.regs.wign && !d.getLsbD 2 }
      else if off = 0x04 ∨ (0x0C ≤ off ∧ off ≤ 0x30) then { s.regs with wign := true }
      else s.regs)

/-- R201: an illegal word written to `CMD` while idle sets `DONE` and `ERR = ILLEGAL_CMD`, and nothing else changes; the
interrupt output rises if it is enabled. -/
def Obligations.IllegalWordEndsAtOnce : Prop :=
  ∀ (s : State) (es : List Event) (w : Word), s.ready → (∀ i, w ≠ encode i) →
    s.nextEvent (.regWrite (regAccess s.plat.regBase .cmd) w) es →
    ∃ t, step s = .next t ∧ t.regs = { s.regs with done := true, err := .illegalCmd } ∧ t.eng = s.eng ∧
      t.mem = s.mem ∧ t.busy = false ∧ (s.regs.irqEn = true → t.irq = true)

/-- R207: the level of the interrupt output in every state, the four things that lower it, and every end of a command
raising it alike. -/
def Obligations.InterruptFollowsDone : Prop :=
  (∀ s : State, s.irq = (s.regs.irqEn && s.regs.done)) ∧
  (∀ (s : State) (d : Word), d.getLsbD 1 = true → (s.acknowledge d).irq = false) ∧
  (∀ (s : State) (i : Instr), (s.accept i).irq = false) ∧
  (∀ s : State, (assertReset s).irq = false) ∧
  (∀ s : State, s.regs.irqEn = false → s.irq = false) ∧
  (∀ (s : State) (e : ErrCode) (a : Nat), s.regs.irqEn = true →
    s.complete.irq = true ∧ s.illegalWord.irq = true ∧ (s.raise e).irq = true ∧ (s.raiseBusError a).irq = true) ∧
  (∀ (s : State) (es : List Event), s.nextEvent .irqSample es →
    ∃ t, step s = .next t ∧ t.world.resp = .irq s.irq ∧ t.regs = s.regs ∧ t.eng = s.eng ∧ t.mem = s.mem)

/-- 10_state.md, the key registers are write-only: two states that differ only in `KEY0..KEY3` answer every host read
alike, in every phase. -/
def Obligations.KeysAreNeverReadBack : Prop :=
  ∀ (s t : State) (es : List Event) (a : Access), sameButKey s t → s.nextEvent (.regRead a) es →
    ∃ s' t', step s = .next s' ∧ step t = .next t' ∧ s'.world = t'.world ∧ sameButKey s' t'

/-! ### Acceptance and the end of a command -/

/-- 60_exceptions.md section 1 (R200), with R125's start of the rounds: what acceptance of a legal word does, in one step,
for the four commands; and the byte range of a buffer command that iterates comes under exclusive access (R77), held as a
window (log entries 10 to 12). That a single-block command leaves the other internal registers as they were is the model's
choice (log entry 5). -/
def Obligations.AcceptanceLatchesTheOperands : Prop :=
  ∀ s : State, s.eng.phase = .idle →
    (∃ t, exec .encBlock s = .next t ∧ t.regs = { s.regs with done := false, err := .ok } ∧
      t.eng = { s.eng with
        lop := .encBlock, lk := s.regs.key, lr := s.regs.rounds, w0 := s.regs.v0, w1 := s.regs.v1, sum := 0#32,
        rcnt := s.regs.rounds, phase := .runBlock } ∧
      t.mem = s.mem ∧ t.world = s.world ∧ t.build = s.build ∧ t.plat = s.plat) ∧
    (∃ t, exec .decBlock s = .next t ∧ t.regs = { s.regs with done := false, err := .ok } ∧
      t.eng = { s.eng with
        lop := .decBlock, lk := s.regs.key, lr := s.regs.rounds, w0 := s.regs.v0, w1 := s.regs.v1,
        sum := s.regs.rounds * 0x9E3779B9#32, rcnt := s.regs.rounds, phase := .runBlock } ∧
      t.mem = s.mem ∧ t.world = s.world ∧ t.build = s.build ∧ t.plat = s.plat) ∧
    (∀ i : Instr, i = .encBuf ∨ i = .decBuf →
      ∃ t, exec i s = .next t ∧ t.mem = s.mem ∧ t.build = s.build ∧ t.plat = s.plat ∧
        t.eng.lop = i ∧ t.eng.lk = s.regs.key ∧ t.eng.lr = s.regs.rounds ∧
        if s.regs.compat = false ∧ s.regs.size.toNat % 8 ≠ 0 then
          t.regs = { s.regs with progress := 0#32, done := true, err := .misaligned } ∧ t.eng.phase = .idle
        else if s.regs.addr.toNat + 8 * ((s.regs.size.toNat + 7) / 8) > 2 ^ 32 then
          t.regs = { s.regs with progress := 0#32, done := true, err := .range } ∧ t.eng.phase = .idle
        else if (s.regs.size.toNat + 7) / 8 = 0 then
          t.regs = { s.regs with progress := 0#32, done := true, err := .ok } ∧ t.eng.phase = .idle
        else
          t.regs = { s.regs with progress := 0#32, done := false, err := .ok } ∧ t.eng.phase = .bufRead ∧
          t.eng.lbase = s.regs.addr ∧ t.eng.lnb.toNat = (s.regs.size.toNat + 7) / 8 ∧ t.eng.bidx = 0#30 ∧
          t.world = { s.world with windows :=
            { base := s.regs.addr.toNat, blocks := (s.regs.size.toNat + 7) / 8 } :: s.world.windows })

/-- R149: a buffer command that fails its alignment or its range check touches no byte of memory, and R203's order
of the two. That it puts no range under exclusive access, the clause on the world, is the model's reading of R77 (log
entry 13). -/
def Obligations.FailedChecksTouchNoMemory : Prop :=
  ∀ (s : State) (i : Instr), s.eng.phase = .idle → i = .encBuf ∨ i = .decBuf →
    (s.regs.compat = false → s.regs.size.toNat % 8 ≠ 0 →
      ∃ t, exec i s = .next t ∧ t.mem = s.mem ∧ t.regs.err = .misaligned ∧ t.regs.done = true ∧ t.busy = false ∧
        t.regs.faultAddr = s.regs.faultAddr ∧ t.world = s.world) ∧
    (s.regs.compat = true ∨ s.regs.size.toNat % 8 = 0 →
      s.regs.addr.toNat + 8 * ((s.regs.size.toNat + 7) / 8) > 2 ^ 32 →
      ∃ t, exec i s = .next t ∧ t.mem = s.mem ∧ t.regs.err = .range ∧ t.regs.done = true ∧ t.busy = false ∧
        t.regs.faultAddr = s.regs.faultAddr ∧ t.world = s.world)

/-- R144: a buffer of size 0 completes at once at any address, in either mode, with no memory access. -/
def Obligations.EmptyBufferCompletesAtOnce : Prop :=
  ∀ (s : State) (i : Instr), s.eng.phase = .idle → i = .encBuf ∨ i = .decBuf → s.regs.size = 0#32 →
    ∃ t, exec i s = .next t ∧ t.mem = s.mem ∧ t.busy = false ∧ t.world = s.world ∧
      t.regs = { s.regs with progress := 0#32, done := true, err := .ok }

/-! ### The single-block commands -/

/-- 40_block_transform.md section 4, one engine step of a single-block command in flight: a datapath round while `RCNT`
is not 0; at 0 the write-back of `W0`, `W1` to `V0`, `V1` and the end `OK`. That the internal registers then keep their
values is the model's choice (log entry 5). -/
def Obligations.BlockCommandStepByStep : Prop :=
  ∀ (s : State) (i : Instr), i = .encBlock ∨ i = .decBlock → s.eng.phase = .runBlock → s.eng.lop = i →
    (s.eng.rcnt ≠ 0#32 →
      exec i s = .next { s with eng := { s.eng with
        w0 := (mixRound s.build.cipher (directionOf i) s.eng.lk ⟨s.eng.w0, s.eng.w1, s.eng.sum⟩).v0,
        w1 := (mixRound s.build.cipher (directionOf i) s.eng.lk ⟨s.eng.w0, s.eng.w1, s.eng.sum⟩).v1,
        sum := (mixRound s.build.cipher (directionOf i) s.eng.lk ⟨s.eng.w0, s.eng.w1, s.eng.sum⟩).sum,
        rcnt := s.eng.rcnt - 1#32 } }) ∧
    (s.eng.rcnt = 0#32 →
      exec i s = .next { s with
        regs := { s.regs with v0 := s.eng.w0, v1 := s.eng.w1, done := true, err := .ok },
        eng := { s.eng with phase := .idle } })

/-- 40_block_transform.md section 4: a single-block command, from the host's write of its word on an idle engine, ends
after `R` rounds: then `V0`, `V1` hold the transform of what they held, `DONE` and `ERR = OK` are set, and nothing else
of the registers, memory or the platform has changed. Until then the engine is busy and `V0`, `V1` are as they were. By
the model's choice (log entries 6 and 8) that is `R + 2` steps: its acceptance, one step for each round, and its end. -/
def Obligations.BlockCommandsTransformTheirBlock : Prop :=
  ∀ (s : State) (i : Instr), i = .encBlock ∨ i = .decBlock → s.ready → s.world.inputs = [] → s.world.raced = [] →
    (∃ t, Host.Core.run Sys2Proof.core (s.regs.rounds.toNat + 2) (s.withFetchWord 32 (encode i).toNat) = .next t ∧
      t.regs = { s.regs with
        v0 := (transform s.build.cipher (directionOf i) ⟨s.regs.v0, s.regs.v1⟩ s.regs.key s.regs.rounds).v0,
        v1 := (transform s.build.cipher (directionOf i) ⟨s.regs.v0, s.regs.v1⟩ s.regs.key s.regs.rounds).v1,
        done := true, err := .ok } ∧
      t.eng.phase = .idle ∧ t.mem = s.mem ∧ t.build = s.build ∧ t.plat = s.plat) ∧
    (∀ n, 1 ≤ n → n ≤ s.regs.rounds.toNat + 1 →
      ∃ t, Host.Core.run Sys2Proof.core n (s.withFetchWord 32 (encode i).toNat) = .next t ∧ t.busy = true ∧
        t.regs = { s.regs with done := false, err := .ok } ∧ t.mem = s.mem)

/-- The frame of `ENC_BLOCK` and `DEC_BLOCK`, in every state: only `V0`, `V1` at the last step, the flags, and `WIGN`
where the command is turned away. -/
def Obligations.BlockCommandFrame : Prop :=
  ∀ (s t : State) (i : Instr), i = .encBlock ∨ i = .decBlock → exec i s = .next t →
    t.mem = s.mem ∧ t.world = s.world ∧ t.build = s.build ∧ t.plat = s.plat ∧
    t.regs.compat = s.regs.compat ∧ t.regs.irqEn = s.regs.irqEn ∧ t.regs.rounds = s.regs.rounds ∧
    t.regs.key = s.regs.key ∧ t.regs.addr = s.regs.addr ∧ t.regs.size = s.regs.size ∧
    t.regs.progress = s.regs.progress ∧ t.regs.faultAddr = s.regs.faultAddr ∧
    (s.eng.phase = .idle ∨ s.eng.lop = i → t.regs.wign = s.regs.wign) ∧
    (¬ (s.eng.phase = .runBlock ∧ s.eng.lop = i ∧ s.eng.rcnt = 0#32) →
      t.regs.v0 = s.regs.v0 ∧ t.regs.v1 = s.regs.v1 ∧
      (s.eng.phase ≠ .idle → t.regs.done = s.regs.done ∧ t.regs.err = s.regs.err))

/-! ### The buffer commands -/

/-- 41_buffer_cipher.md section 2, one engine step of `BUF_READ`: byte `beat` of the block is read from
`LBASE + 8*BIDX + beat`; the eighth gives `W0`, `W1` by `load32`, starts the rounds and changes no register and no
memory. -/
def Obligations.BufferReadsOneByteAStep : Prop :=
  ∀ (s : State) (i : Instr), i = .encBuf ∨ i = .decBuf → s.eng.phase = .bufRead → s.eng.lop = i →
    s.eng.byteAddr < 2 ^ 32 → platformReply s.plat .read s.eng.byteAddr = .completes →
    (s.eng.beat ≠ 7 →
      exec i s = .next { s with eng := { s.eng with
        rbuf := s.eng.rbuf.set s.eng.beat.val (s.mem.read s.eng.byteAddr) s.eng.beat.isLt,
        beat := s.eng.beat + 1 } }) ∧
    (s.eng.beat = 7 →
      ∃ t, exec i s = .next t ∧ t.regs = s.regs ∧ t.mem = s.mem ∧ t.world = s.world ∧ t.eng.phase = .bufRounds ∧
        t.eng.beat = 0 ∧ t.eng.rcnt = s.eng.lr ∧ t.eng.sum = startSum (directionOf i) s.eng.lr ∧
        t.eng.w0 = load32 s.build.order s.eng.rbuf[0] s.eng.rbuf[1] s.eng.rbuf[2] s.eng.rbuf[3] ∧
        t.eng.w1 = load32 s.build.order s.eng.rbuf[4] s.eng.rbuf[5] s.eng.rbuf[6] (s.mem.read s.eng.byteAddr) ∧
        t.eng.lk = s.eng.lk ∧ t.eng.lr = s.eng.lr ∧ t.eng.lbase = s.eng.lbase ∧ t.eng.lnb = s.eng.lnb ∧
        t.eng.bidx = s.eng.bidx ∧ t.eng.lop = s.eng.lop)

/-- 41_buffer_cipher.md section 2, one engine step of `BUF_ROUNDS`: a datapath round while `RCNT` is not 0; at 0 the
writes begin. -/
def Obligations.BufferRoundsOneRoundAStep : Prop :=
  ∀ (s : State) (i : Instr), i = .encBuf ∨ i = .decBuf → s.eng.phase = .bufRounds → s.eng.lop = i →
    (s.eng.rcnt ≠ 0#32 →
      exec i s = .next { s with eng := { s.eng with
        w0 := (mixRound s.build.cipher (directionOf i) s.eng.lk ⟨s.eng.w0, s.eng.w1, s.eng.sum⟩).v0,
        w1 := (mixRound s.build.cipher (directionOf i) s.eng.lk ⟨s.eng.w0, s.eng.w1, s.eng.sum⟩).v1,
        sum := (mixRound s.build.cipher (directionOf i) s.eng.lk ⟨s.eng.w0, s.eng.w1, s.eng.sum⟩).sum,
        rcnt := s.eng.rcnt - 1#32 } }) ∧
    (s.eng.rcnt = 0#32 → exec i s = .next { s with eng := { s.eng with beat := 0, phase := .bufWrite } })

/-- R148, with 41_buffer_cipher.md section 2's writes: one engine step of `BUF_WRITE` stores byte `beat` of
`store32(W0) ++ store32(W1)` at `LBASE + 8*BIDX + beat` and nothing else in memory; after the eighth byte `PROGRESS`
becomes `BIDX + 1`, and at no other time; then the next block starts, or the command completes `OK`. That the internal
registers keep their values at the end is the model's choice (log entry 5), and so is that the eighth write, `PROGRESS`
and the next block's start or the end are one step (log entry 28). -/
def Obligations.BufferWritesOneByteAStep : Prop :=
  ∀ (s : State) (i : Instr), i = .encBuf ∨ i = .decBuf → s.eng.phase = .bufWrite → s.eng.lop = i →
    s.mem.wf → s.eng.byteAddr < 2 ^ 32 → platformReply s.plat .write s.eng.byteAddr = .completes →
    ∃ t, exec i s = .next t ∧
      t.mem.read s.eng.byteAddr = blockByte s.build.order ⟨s.eng.w0, s.eng.w1⟩ s.eng.beat.val ∧
      (∀ a, a ≠ s.eng.byteAddr → t.mem.read a = s.mem.read a) ∧ t.world = s.world ∧
      (s.eng.beat ≠ 7 → t.regs = s.regs ∧ t.eng = { s.eng with beat := s.eng.beat + 1 }) ∧
      (s.eng.beat = 7 → s.eng.bidx.toNat + 1 < s.eng.lnb.toNat →
        t.regs = { s.regs with progress := BitVec.ofNat 32 (s.eng.bidx.toNat + 1) } ∧
        t.eng = { s.eng with bidx := s.eng.bidx + 1#30, beat := 0, phase := .bufRead }) ∧
      (s.eng.beat = 7 → s.eng.lnb.toNat ≤ s.eng.bidx.toNat + 1 →
        t.regs = { s.regs with
          progress := BitVec.ofNat 32 (s.eng.bidx.toNat + 1), done := true, err := .ok } ∧
        t.eng = { s.eng with phase := .idle })

/-- R154, R211, with R67: a bus error on a byte access ends the command with `BUS_ERROR` and the byte's address in
`FAULTADDR`, `PROGRESS` as it was; a read leaves memory as it was, a write leaves at its byte the old value or the one
written. -/
def Obligations.BusErrorEndsTheCommand : Prop :=
  ∀ (s : State) (i : Instr), i = .encBuf ∨ i = .decBuf → s.eng.lop = i → s.mem.wf → s.eng.byteAddr < 2 ^ 32 →
    (s.eng.phase = .bufRead → platformReply s.plat .read s.eng.byteAddr = .busError →
      ∃ t, exec i s = .next t ∧ t.mem = s.mem ∧ t.eng.phase = .idle ∧ t.regs = { s.regs with
        faultAddr := BitVec.ofNat 32 s.eng.byteAddr, done := true, err := .busError }) ∧
    (s.eng.phase = .bufWrite → platformReply s.plat .write s.eng.byteAddr = .busError →
      ∃ t, exec i s = .next t ∧ t.eng.phase = .idle ∧
        t.regs = { s.regs with
          faultAddr := BitVec.ofNat 32 s.eng.byteAddr, done := true, err := .busError } ∧
        (∀ a, a ≠ s.eng.byteAddr → t.mem.read a = s.mem.read a) ∧
        (t.mem.read s.eng.byteAddr = s.mem.read s.eng.byteAddr ∨
         t.mem.read s.eng.byteAddr = blockByte s.build.order ⟨s.eng.w0, s.eng.w1⟩ s.eng.beat.val))

/-- 70_reset_and_hazards.md section 4: an access that is never answered leaves the engine busy for ever: without an
event, every later state is the same. -/
def Obligations.UnansweredAccessHangsTheEngine : Prop :=
  ∀ (s : State) (n : Nat), s.Inv → s.world.inputs = [] →
    (s.eng.phase = .bufRead ∧ platformReply s.plat .read s.eng.byteAddr = .neverAnswers) ∨
    (s.eng.phase = .bufWrite ∧ platformReply s.plat .write s.eng.byteAddr = .neverAnswers) →
    Host.Core.run Sys2Proof.core n s = .next s

/-- 41_buffer_cipher.md sections 2 and 3: a buffer command whose checks pass, from the host's write of its word on an idle
engine to its end, where every byte access completes and no other agent acts: memory holds each of the `nb` blocks
transformed in place, `PROGRESS = nb`, `DONE` and `ERR = OK` are set, and no other register has changed. In compatibility
mode the last block runs over the buffer's end (R147). By the model's choice (log entries 6, 8 and 28) that is
`nb * (17 + R) + 1` steps. -/
def Obligations.BufferCommandsTransformTheirBlocks : Prop :=
  ∀ (s : State) (i : Instr), i = .encBuf ∨ i = .decBuf → s.ready → s.world.inputs = [] → s.world.raced = [] →
    (s.regs.compat = true ∨ s.regs.size.toNat % 8 = 0) →
    s.regs.addr.toNat + 8 * ((s.regs.size.toNat + 7) / 8) ≤ 2 ^ 32 →
    memOkRange s.plat s.regs.addr.toNat (8 * ((s.regs.size.toNat + 7) / 8)) →
    ∃ t, Host.Core.run Sys2Proof.core ((s.regs.size.toNat + 7) / 8 * (17 + s.regs.rounds.toNat) + 1)
        (s.withFetchWord 32 (encode i).toNat) = .next t ∧
      t.mem = cipherBlocks s.build (directionOf i) s.regs.key s.regs.rounds ((s.regs.size.toNat + 7) / 8)
        s.regs.addr.toNat s.mem ∧
      t.regs = { s.regs with
        progress := BitVec.ofNat 32 ((s.regs.size.toNat + 7) / 8), done := true, err := .ok } ∧
      t.eng.phase = .idle ∧ t.build = s.build ∧ t.plat = s.plat

/-- R145, R146: what `n` blocks transformed in place hold: each block is the transform of the block that stood there,
whatever the order, and every byte outside them is as before. -/
def Obligations.BlocksAreTransformedIndependently : Prop :=
  ∀ (bd : Build) (d : Direction) (k : Key) (r : Word) (n a : Nat) (m : Memory), m.wf → a + 8 * n ≤ 2 ^ 32 →
    (∀ j, j < n →
      blockAt bd.order (cipherBlocks bd d k r n a m) (a + 8 * j) =
        transform bd.cipher d (blockAt bd.order m (a + 8 * j)) k r) ∧
    (∀ x, x < a ∨ a + 8 * n ≤ x → (cipherBlocks bd d k r n a m).read x = m.read x)

/-- R152: `ENC_BUF` followed by `DEC_BUF` with the same operands, and the other way round, leaves every byte of memory as
it was, where the checks pass, no bus error is hit and no other agent acts. -/
def Obligations.BufferRoundTripRestoresMemory : Prop :=
  ∀ (s : State) (i j : Instr), (i = .encBuf ∧ j = .decBuf) ∨ (i = .decBuf ∧ j = .encBuf) →
    s.mem.wf → s.ready → s.world.inputs = [] → s.world.raced = [] →
    (s.regs.compat = true ∨ s.regs.size.toNat % 8 = 0) →
    s.regs.addr.toNat + 8 * ((s.regs.size.toNat + 7) / 8) ≤ 2 ^ 32 →
    memOkRange s.plat s.regs.addr.toNat (8 * ((s.regs.size.toNat + 7) / 8)) →
    ∃ n t u, 1 ≤ n ∧
      Host.Core.run Sys2Proof.core n (s.withFetchWord 32 (encode i).toNat) = .next t ∧ t.eng.phase = .idle ∧
      t.regs.done = true ∧ t.regs.err = .ok ∧
      Host.Core.run Sys2Proof.core n (t.withFetchWord 32 (encode j).toNat) = .next u ∧ u.eng.phase = .idle ∧
      u.regs.done = true ∧ u.regs.err = .ok ∧ ∀ a, u.mem.read a = s.mem.read a

/-- R153 and the frame of `ENC_BUF` and `DEC_BUF`, in every state: the operand registers, `V0`, `V1` and `CTRL` never
change; memory changes at most in the byte that a `BUF_WRITE` step writes. -/
def Obligations.BufferCommandFrame : Prop :=
  ∀ (s t : State) (i : Instr), i = .encBuf ∨ i = .decBuf → exec i s = .next t →
    t.build = s.build ∧ t.plat = s.plat ∧ t.world.inputs = s.world.inputs ∧ t.world.resp = s.world.resp ∧
    t.world.resetLine = s.world.resetLine ∧ t.world.raced = s.world.raced ∧
    t.regs.compat = s.regs.compat ∧ t.regs.irqEn = s.regs.irqEn ∧ t.regs.rounds = s.regs.rounds ∧
    t.regs.key = s.regs.key ∧ t.regs.addr = s.regs.addr ∧ t.regs.size = s.regs.size ∧
    t.regs.v0 = s.regs.v0 ∧ t.regs.v1 = s.regs.v1 ∧
    (s.eng.phase = .idle ∨ s.eng.lop = i → t.regs.wign = s.regs.wign) ∧
    (∀ a, ¬ (s.eng.phase = .bufWrite ∧ s.eng.lop = i ∧ a = s.eng.byteAddr) → t.mem.read a = s.mem.read a) ∧
    (t.regs.faultAddr ≠ s.regs.faultAddr →
      t.regs.err = .busError ∧ t.regs.faultAddr = BitVec.ofNat 32 s.eng.byteAddr) ∧
    (t.regs.progress ≠ s.regs.progress →
      s.eng.phase = .idle ∨ (s.eng.phase = .bufWrite ∧ s.eng.lop = i ∧ s.eng.beat = 7))

/-- By the model's choice (log entry 7): `exec` may be asked of a busy engine, and a command other than the one in flight
is then turned away, as a write at `CMD` is (42_register_access.md section 3): `WIGN` is set and nothing else changes. -/
def Obligations.BusyEngineTurnsOtherCommandsAway : Prop :=
  ∀ (s : State) (i : Instr), s.eng.phase ≠ .idle → s.eng.lop ≠ i →
    exec i s = .next { s with regs := { s.regs with wign := true } }

/-- By the model's choice (log entry 19): the two faults, of states that `State.Inv` rules out. A command in flight in a
phase of the other family faults, and so does a byte access of a buffer command at an address of 2^32 or more. -/
def Obligations.MisfitStatesFault : Prop :=
  (∀ (s : State) (i : Instr), s.eng.lop = i → phaseOfCommand s.eng.phase i = false →
    exec i s = .fault (.phaseNotOfCommand s.eng.phase)) ∧
  (∀ (s : State) (i : Instr), i = .encBuf ∨ i = .decBuf → s.eng.lop = i →
    s.eng.phase = .bufRead ∨ s.eng.phase = .bufWrite → 2 ^ 32 ≤ s.eng.byteAddr →
    exec i s = .fault (.outsideAddressSpace s.eng.byteAddr))

/-! ### The whole machine -/

/-- A step runs the decoded command: the host's write at `CMD` of a word that decodes to `i`, on an idle engine out of
reset, is `exec i`, on the state with the event taken and the write answered. -/
def Obligations.StepRunsTheDecodedCommand : Prop :=
  ∀ (s : State) (es : List Event) (w : Word) (i : Instr), s.ready → decode w = .ok i →
    s.nextEvent (.regWrite (regAccess s.plat.regBase .cmd) w) es →
    step s = exec i { s with world := { s.world with inputs := es, resp := .written } }

/-- The engine's own step: with the engine's turn next, or by the model's choice (log entry 6) with no event left, a busy
engine out of reset runs the command in flight; and then, by the model's choice (log entry 11), the races of R77 are
settled if the command has ended. Idle or held in reset, the engine's turn changes nothing (R219, R230, R232). -/
def Obligations.EngineTurnRunsTheCommandInFlight : Prop :=
  ∀ (s u : State),
    (s.world.inputs = [] ∧ u = s) ∨
      (∃ es, s.nextEvent .engine es ∧ u = { s with world := { s.world with inputs := es } }) →
    (∀ t, s.world.resetLine = false → s.eng.phase ≠ .idle → exec s.eng.lop u = .next t →
      step s = .next (settleRaces t) ∧ (t.eng.phase ≠ .idle ∨ t.world.raced = [] → settleRaces t = t)) ∧
    (s.world.resetLine = true ∨ s.eng.phase = .idle → step s = .next u)

/-- `State.Inv` holds right after reset. -/
def Obligations.InvariantHoldsAtReset : Prop := State.reset.Inv ∧ State.reset.DatapathInv

/-- `State.Inv` is kept by every step, from every state that has it and whatever event comes. That it gives the internal
registers fixed values while reset is asserted is the model's choice (log entry 5): R230 leaves them unspecified. That
`PROGRESS` is below the block count while a buffer command is busy is the model's choice too (log entry 28). -/
def Obligations.StepKeepsInvariant : Prop :=
  ∀ s t : State, s.Inv → step s = .next t → t.Inv

/-- From every state of `State.Inv`, a step answers a next state: no fault and no refusal is ever met. -/
def Obligations.MachineNeverStops : Prop :=
  ∀ s : State, s.Inv → ∃ t, step s = .next t

/-- The datapath's invariant is kept by every step, whatever the host and the other agents do in between. -/
def Obligations.StepKeepsDatapathInvariant : Prop :=
  ∀ s t : State, s.Inv → s.DatapathInv → step s = .next t → t.DatapathInv

/-- 40_block_transform.md section 4, at every interleaving: whenever a step ends a single-block command, `V0`, `V1` are
the transform of the `V0`, `V1`, key and round count that the registers held just before, whatever the host did while the
command ran. -/
def Obligations.BlockResultAtEveryInterleaving : Prop :=
  ∀ s t : State, s.Inv → s.DatapathInv → s.eng.phase = .runBlock → step s = .next t → t.eng.phase = .idle →
    t.regs = Regs.reset ∨
    (t.regs.done = true ∧ t.regs.err = .ok ∧
      (⟨t.regs.v0, t.regs.v1⟩ : Block) =
        transform s.build.cipher (directionOf s.eng.lop) ⟨s.regs.v0, s.regs.v1⟩ s.regs.key s.regs.rounds)

/-- 10_state.md section 3: along every run, `BUSY = 1` and `DONE = 1` never hold together, and `ERR` reads 0 while
busy. -/
def Obligations.BusyAndDoneNeverTogether : Prop :=
  ∀ (s t : State) (n : Nat), s.Inv → Host.Core.run Sys2Proof.core n s = .next t → t.busy = true →
    t.regs.done = false ∧ t.regs.err = .ok

/-- 10_state.md section 1: no step changes the build parameters or `REG_BASE`, so what `ID` reads never changes; only the
platform changes which addresses answer. -/
def Obligations.ConfigurationNeverChanges : Prop :=
  ∀ s t : State, step s = .next t →
    t.build = s.build ∧ t.plat.regBase = s.plat.regBase ∧ readReg .id t = readReg .id s ∧
    ((∀ rs es, ¬ s.nextEvent (.platformRegions rs) es) → t.plat = s.plat)

/-- 10_state.md section 3: the key registers change only by a host write at one of them on an idle engine, or by
reset. -/
def Obligations.OnlyTheHostWritesKeys : Prop :=
  ∀ s t : State, step s = .next t → t.regs.key ≠ s.regs.key →
    (∃ es, s.nextEvent .resetAssert es) ∨ (∃ es, s.nextEvent .resetRelease es) ∨
    (∃ r d es, (r = .key0 ∨ r = .key1 ∨ r = .key2 ∨ r = .key3) ∧ s.ready ∧
      s.nextEvent (.regWrite (regAccess s.plat.regBase r) d) es)

/-- R214: a host write ignored because the engine is busy sets `WIGN`, and changes no other register, nor the command in
flight, nor memory, nor the interrupt output; nothing else sets it; and a step that clears it takes a host write of 1 to
`STATUS` bit 2, or reset. -/
def Obligations.IgnoredWriteFlagIsSticky : Prop :=
  (∀ (s : State) (es : List Event) (r : Reg) (d : Word), s.busy = true → s.world.resetLine = false →
    r ≠ .id → r ≠ .status → r ≠ .progress → r ≠ .faultAddr →
    s.nextEvent (.regWrite (regAccess s.plat.regBase r) d) es →
    ∃ t, step s = .next t ∧ t.regs = { s.regs with wign := true } ∧ t.eng = s.eng ∧ t.mem = s.mem ∧ t.irq = s.irq) ∧
  ∀ s t : State, step s = .next t →
    (s.regs.wign = true → t.regs.wign = false →
      (∃ es, s.nextEvent .resetAssert es) ∨ (∃ es, s.nextEvent .resetRelease es) ∨
      (∃ d es, d.getLsbD 2 = true ∧ s.nextEvent (.regWrite (regAccess s.plat.regBase .status) d) es)) ∧
    (s.regs.wign = false → t.regs.wign = true →
      s.busy = true ∧ (∃ a d es, s.nextEvent (.regWrite a d) es) ∧
      t.regs = { s.regs with wign := true } ∧ t.eng = s.eng ∧ t.mem = s.mem)

/-- 10_state.md section 3: a step that ends a command with `BUS_ERROR` leaves in `FAULTADDR` the address of the access
that failed; and `FAULTADDR` changes at no other step, but for a reset, which makes it 0. -/
def Obligations.FaultAddressChangesOnlyOnBusErrors : Prop :=
  (∀ s t : State, s.Inv → step s = .next t → s.eng.phase ≠ .idle → t.eng.phase = .idle → t.regs.err = .busError →
    t.regs.faultAddr.toNat = s.eng.byteAddr) ∧
  (∀ s t : State, s.Inv → step s = .next t → t.regs.faultAddr ≠ s.regs.faultAddr →
    ((∃ es, s.nextEvent .resetAssert es) ∧ t.regs.faultAddr = 0#32) ∨
    (s.eng.phase ≠ .idle ∧ t.eng.phase = .idle ∧ t.regs.err = .busError ∧ t.regs.done = true))

/-- 60_exceptions.md, the return from an end (R206): while the engine is idle, a step that changes `ERR` takes a write at
`CMD`, or reset; a write that clears `DONE` leaves `ERR`. -/
def Obligations.ErrorCodeStaysUntilTheNextCommand : Prop :=
  ∀ s t : State, s.eng.phase = .idle → step s = .next t → t.regs.err ≠ s.regs.err →
    (∃ es, s.nextEvent .resetAssert es) ∨ (∃ es, s.nextEvent .resetRelease es) ∨
    (∃ w es, s.nextEvent (.regWrite (regAccess s.plat.regBase .cmd) w) es)

/-- 70_reset_and_hazards.md section 4: where the platform answers every access, a busy engine left to itself is idle after
a bounded number of steps. By the model's choice the bound counts the model's steps (log entry 8), at most the rounds
left and one for a single-block command, `nb * (17 + R)` for a buffer command; and the engine takes every step when no
event is left, which is the fairness a model must assume (log entry 6). -/
def Obligations.EveryCommandEnds : Prop :=
  ∀ s : State, s.Inv → s.world.inputs = [] → s.eng.phase ≠ .idle → alwaysAnswers s.plat →
    ∃ n t, n ≤ stepBound s ∧ Host.Core.run Sys2Proof.core n s = .next t ∧ t.eng.phase = .idle ∧ t.regs.done = true

/-- 20_memory.md section 5 (R77), by the model's choice of log entries 10 and 11: a read by another agent of a byte in a
command's range, before the command's end is observed, returns a free value, whatever the byte is; outside every such
range it returns the byte, by the model's choice at every address, also where `MEM_OK` fails (log entry 26). -/
def Obligations.RacingReadsAreFree : Prop :=
  ∀ (s : State) (es : List Event) (a : BitVec 32), s.nextEvent (.memRead a) es →
    ∃ t, step s = .next t ∧ t.regs = s.regs ∧ t.eng = s.eng ∧ t.mem = s.mem ∧
      ((∃ w ∈ s.world.windows, w.base ≤ a.toNat ∧ a.toNat < w.base + 8 * w.blocks) →
        t.world.resp = .memData (Config.freeByte s.world.draws)) ∧
      ((∀ w ∈ s.world.windows, a.toNat < w.base ∨ w.base + 8 * w.blocks ≤ a.toNat) →
        t.world.resp = .memData (s.mem.read a.toNat))

/-- 20_memory.md section 5 (R77), by the model's choice of log entries 10 and 11: a write by another agent of a byte outside
every command's range writes that byte and no other, by the model's choice at every address, also where `MEM_OK` fails
(log entry 26); inside, it leaves every byte outside the blocks it wrote into as it was. No register and nothing of the
engine changes. -/
def Obligations.HostMemoryWritesReachTheirByte : Prop :=
  ∀ (s : State) (es : List Event) (a : BitVec 32) (b : Byte), s.mem.wf → s.nextEvent (.memWrite a b) es →
    ∃ t, step s = .next t ∧ t.regs = s.regs ∧ t.eng = s.eng ∧ t.world.resp = .memWritten ∧
      ((∀ w ∈ s.world.windows, a.toNat < w.base ∨ w.base + 8 * w.blocks ≤ a.toNat) →
        ∀ x, t.mem.read x = if x = a.toNat then b else s.mem.read x) ∧
      (∀ x, x ≠ a.toNat →
        (∀ w ∈ s.world.windows, w.base ≤ a.toNat → a.toNat < w.base + 8 * w.blocks →
          x < w.base ∨ (x - w.base) / 8 ≠ (a.toNat - w.base) / 8) →
        t.mem.read x = s.mem.read x)

/-- By the model's reading (log entry 12, DEDUCED from R71, R77 and R234): reading `STATUS` with `BUSY = 0`, or seeing the
interrupt output at 1, ends the exclusive access of every command before; and then the host's reads of memory return the
bytes the engine wrote (R71 itself names `DONE = 1` or the interrupt). That such a read completes at every address, also
where `MEM_OK` fails, is the model's choice (log entry 26). -/
def Obligations.ObservingTheEndPublishesMemory : Prop :=
  ∀ (s : State) (es : List Event) (a : BitVec 32), s.world.resetLine = false →
    (s.eng.phase = .idle ∧ s.nextEvent (.regRead (regAccess s.plat.regBase .status)) (.memRead a :: es)) ∨
    (s.irq = true ∧ s.nextEvent .irqSample (.memRead a :: es)) →
    ∃ t, Host.Core.run Sys2Proof.core 2 s = .next t ∧ t.world.resp = .memData (s.mem.read a.toNat) ∧ t.mem = s.mem

/-- R155: the key words from 16 key bytes; R212's host error for any other length. -/
def Obligations.KeyBytesPackIntoKeyWords : Prop :=
  (∀ (o : ByteOrder) (b0 b1 b2 b3 b4 b5 b6 b7 b8 b9 b10 b11 b12 b13 b14 b15 : Byte),
    keyOfBytes o [b0, b1, b2, b3, b4, b5, b6, b7, b8, b9, b10, b11, b12, b13, b14, b15] =
      .ok ⟨load32 o b0 b1 b2 b3, load32 o b4 b5 b6 b7, load32 o b8 b9 b10 b11, load32 o b12 b13 b14 b15⟩) ∧
  (∀ (o : ByteOrder) (bs : List Byte), bs.length ≠ 16 → keyOfBytes o bs = .error .invalidKeyLength)

/-- By the model's choice of form (log entry 27), for 30_encoding.md section 4: what one turn of the host does with the next
line of its program. `WAIT_DONE` reads `STATUS`, and is over exactly when `DONE` read 1: until then it is the next line
again. A `RD` is answered with the register's value. A `WR`, and a byte of `MEM`, is that access, whatever it starts, and
is over at once; so, by log entry 27, is a `WR` that reset turns away. -/
def Obligations.HostTurnsFollowTheProgram : Prop :=
  (∀ (h : HostRun) (rest : List HostOp), h.todo = .waitDone :: rest → h.machine.world.resetLine = false →
    ∃ k, hostTurn h = .next k ∧ k.machine.regs = h.machine.regs ∧ k.machine.eng = h.machine.eng ∧
      k.machine.mem = h.machine.mem ∧ k.answers = h.answers ++ [.data (readReg .status h.machine)] ∧
      k.todo = if h.machine.regs.done then rest else .waitDone :: rest) ∧
  (∀ (h : HostRun) (rest : List HostOp) (r : Reg), h.todo = .rd r :: rest → h.machine.world.resetLine = false →
    ∃ k, hostTurn h = .next k ∧ k.machine.regs = h.machine.regs ∧ k.machine.eng = h.machine.eng ∧
      k.machine.mem = h.machine.mem ∧ k.answers = h.answers ++ [.data (readReg r h.machine)] ∧ k.todo = rest) ∧
  (∀ (h : HostRun) (rest : List HostOp) (r : Reg) (d : Word), h.todo = .wr r d :: rest → h.machine.Inv →
    ∃ k, hostTurn h = .next k ∧ k.todo = rest ∧
      k.answers = h.answers ++ [if h.machine.world.resetLine then .notTaken else .written] ∧
      step (h.machine.withInputs [.regWrite (regAccess h.machine.plat.regBase r) d]) = .next k.machine) ∧
  (∀ (h : HostRun) (rest : List HostOp) (a : BitVec 32), h.todo = .memRead a :: rest →
    ∃ k, hostTurn h = .next k ∧ k.todo = rest ∧ k.answers = h.answers ++ [k.machine.world.resp] ∧
      step (h.machine.withInputs [.memRead a]) = .next k.machine) ∧
  (∀ (h : HostRun) (rest : List HostOp) (a : BitVec 32) (b : Byte), h.todo = .memWrite a b :: rest →
    ∃ k, hostTurn h = .next k ∧ k.todo = rest ∧ k.answers = h.answers ++ [.memWritten] ∧
      step (h.machine.withInputs [.memWrite a b]) = .next k.machine)

/-- 20_memory.md section 5, by the model's reading of log entries 12 and 13: exclusive access begins only with the
acceptance of a buffer command that iterates, over the bytes `ADDR .. ADDR + 8*nb - 1`, and ends, for every command
before, only when the host reads `STATUS` on an idle engine or sees the interrupt output at 1, or when reset is
asserted. -/
def Obligations.ExclusiveAccessLastsUntilObserved : Prop :=
  ∀ s t : State, step s = .next t → t.world.windows ≠ s.world.windows →
    (t.world.windows =
        { base := s.regs.addr.toNat, blocks := (s.regs.size.toNat + 7) / 8 } :: s.world.windows ∧
      s.ready ∧ t.eng.phase = .bufRead ∧
      ∃ i es, (i = .encBuf ∨ i = .decBuf) ∧
        s.nextEvent (.regWrite (regAccess s.plat.regBase .cmd) (encode i)) es) ∨
    (t.world.windows = [] ∧
      ((∃ es, s.nextEvent .resetAssert es) ∨
       (s.ready ∧ ∃ es, s.nextEvent (.regRead (regAccess s.plat.regBase .status)) es) ∨
       (s.irq = true ∧ ∃ es, s.nextEvent .irqSample es)))
end

