-- ==== Sys2Proof/Laws/State.lean ====
section
/-! SUPPORT. One lemma for each field of each update of the state, so that no proof unfolds a record update. -/

namespace Sys2Proof.Machine

/-! ### The four parts of the state that operations replace -/

@[simp] theorem State.setRegs_build (r : Regs) (s : State) : (s.setRegs r).build = s.build := rfl
@[simp] theorem State.setRegs_plat (r : Regs) (s : State) : (s.setRegs r).plat = s.plat := rfl
@[simp] theorem State.setRegs_regs (r : Regs) (s : State) : (s.setRegs r).regs = r := rfl
@[simp] theorem State.setRegs_eng (r : Regs) (s : State) : (s.setRegs r).eng = s.eng := rfl
@[simp] theorem State.setRegs_mem (r : Regs) (s : State) : (s.setRegs r).mem = s.mem := rfl
@[simp] theorem State.setRegs_world (r : Regs) (s : State) : (s.setRegs r).world = s.world := rfl

@[simp] theorem State.setEng_build (e : Engine) (s : State) : (s.setEng e).build = s.build := rfl
@[simp] theorem State.setEng_plat (e : Engine) (s : State) : (s.setEng e).plat = s.plat := rfl
@[simp] theorem State.setEng_regs (e : Engine) (s : State) : (s.setEng e).regs = s.regs := rfl
@[simp] theorem State.setEng_eng (e : Engine) (s : State) : (s.setEng e).eng = e := rfl
@[simp] theorem State.setEng_mem (e : Engine) (s : State) : (s.setEng e).mem = s.mem := rfl
@[simp] theorem State.setEng_world (e : Engine) (s : State) : (s.setEng e).world = s.world := rfl

@[simp] theorem State.setMem_build (m : Memory) (s : State) : (s.setMem m).build = s.build := rfl
@[simp] theorem State.setMem_plat (m : Memory) (s : State) : (s.setMem m).plat = s.plat := rfl
@[simp] theorem State.setMem_regs (m : Memory) (s : State) : (s.setMem m).regs = s.regs := rfl
@[simp] theorem State.setMem_eng (m : Memory) (s : State) : (s.setMem m).eng = s.eng := rfl
@[simp] theorem State.setMem_mem (m : Memory) (s : State) : (s.setMem m).mem = m := rfl
@[simp] theorem State.setMem_world (m : Memory) (s : State) : (s.setMem m).world = s.world := rfl

@[simp] theorem State.setWorld_build (w : World) (s : State) : (s.setWorld w).build = s.build := rfl
@[simp] theorem State.setWorld_plat (w : World) (s : State) : (s.setWorld w).plat = s.plat := rfl
@[simp] theorem State.setWorld_regs (w : World) (s : State) : (s.setWorld w).regs = s.regs := rfl
@[simp] theorem State.setWorld_eng (w : World) (s : State) : (s.setWorld w).eng = s.eng := rfl
@[simp] theorem State.setWorld_mem (w : World) (s : State) : (s.setWorld w).mem = s.mem := rfl
@[simp] theorem State.setWorld_world (w : World) (s : State) : (s.setWorld w).world = w := rfl

/-! ### The operations over the world -/

@[simp] theorem State.drawn_build (s : State) : (s.drawn).build = s.build := rfl
@[simp] theorem State.drawn_plat (s : State) : (s.drawn).plat = s.plat := rfl
@[simp] theorem State.drawn_regs (s : State) : (s.drawn).regs = s.regs := rfl
@[simp] theorem State.drawn_eng (s : State) : (s.drawn).eng = s.eng := rfl
@[simp] theorem State.drawn_mem (s : State) : (s.drawn).mem = s.mem := rfl
@[simp] theorem State.drawn_world (s : State) : (s.drawn).world = { s.world with draws := s.world.draws + 1 } := rfl

@[simp] theorem State.respond_build (r : HostResp) (s : State) : (s.respond r).build = s.build := rfl
@[simp] theorem State.respond_plat (r : HostResp) (s : State) : (s.respond r).plat = s.plat := rfl
@[simp] theorem State.respond_regs (r : HostResp) (s : State) : (s.respond r).regs = s.regs := rfl
@[simp] theorem State.respond_eng (r : HostResp) (s : State) : (s.respond r).eng = s.eng := rfl
@[simp] theorem State.respond_mem (r : HostResp) (s : State) : (s.respond r).mem = s.mem := rfl
@[simp] theorem State.respond_world (r : HostResp) (s : State) : (s.respond r).world = { s.world with resp := r } := rfl

@[simp] theorem State.closeWindows_build (s : State) : (s.closeWindows).build = s.build := rfl
@[simp] theorem State.closeWindows_plat (s : State) : (s.closeWindows).plat = s.plat := rfl
@[simp] theorem State.closeWindows_regs (s : State) : (s.closeWindows).regs = s.regs := rfl
@[simp] theorem State.closeWindows_eng (s : State) : (s.closeWindows).eng = s.eng := rfl
@[simp] theorem State.closeWindows_mem (s : State) : (s.closeWindows).mem = s.mem := rfl
@[simp] theorem State.closeWindows_world (s : State) : (s.closeWindows).world = { s.world with windows := [] } := rfl

@[simp] theorem State.withInputs_build (es : List Event) (s : State) : (s.withInputs es).build = s.build := rfl
@[simp] theorem State.withInputs_plat (es : List Event) (s : State) : (s.withInputs es).plat = s.plat := rfl
@[simp] theorem State.withInputs_regs (es : List Event) (s : State) : (s.withInputs es).regs = s.regs := rfl
@[simp] theorem State.withInputs_eng (es : List Event) (s : State) : (s.withInputs es).eng = s.eng := rfl
@[simp] theorem State.withInputs_mem (es : List Event) (s : State) : (s.withInputs es).mem = s.mem := rfl
@[simp] theorem State.withInputs_world (es : List Event) (s : State) : (s.withInputs es).world = { s.world with inputs := es } := rfl

/-! ### Flags -/

@[simp] theorem Regs.acceptFlags_compat (r : Regs) : (r.acceptFlags).compat = r.compat := rfl
@[simp] theorem Regs.acceptFlags_irqEn (r : Regs) : (r.acceptFlags).irqEn = r.irqEn := rfl
@[simp] theorem Regs.acceptFlags_done (r : Regs) : (r.acceptFlags).done = false := rfl
@[simp] theorem Regs.acceptFlags_wign (r : Regs) : (r.acceptFlags).wign = r.wign := rfl
@[simp] theorem Regs.acceptFlags_err (r : Regs) : (r.acceptFlags).err = .ok := rfl
@[simp] theorem Regs.acceptFlags_rounds (r : Regs) : (r.acceptFlags).rounds = r.rounds := rfl
@[simp] theorem Regs.acceptFlags_key (r : Regs) : (r.acceptFlags).key = r.key := rfl
@[simp] theorem Regs.acceptFlags_v0 (r : Regs) : (r.acceptFlags).v0 = r.v0 := rfl
@[simp] theorem Regs.acceptFlags_v1 (r : Regs) : (r.acceptFlags).v1 = r.v1 := rfl
@[simp] theorem Regs.acceptFlags_addr (r : Regs) : (r.acceptFlags).addr = r.addr := rfl
@[simp] theorem Regs.acceptFlags_size (r : Regs) : (r.acceptFlags).size = r.size := rfl
@[simp] theorem Regs.acceptFlags_progress (r : Regs) : (r.acceptFlags).progress = r.progress := rfl
@[simp] theorem Regs.acceptFlags_faultAddr (r : Regs) : (r.acceptFlags).faultAddr = r.faultAddr := rfl

@[simp] theorem Regs.endFlags_compat (e : ErrCode) (r : Regs) : (r.endFlags e).compat = r.compat := rfl
@[simp] theorem Regs.endFlags_irqEn (e : ErrCode) (r : Regs) : (r.endFlags e).irqEn = r.irqEn := rfl
@[simp] theorem Regs.endFlags_done (e : ErrCode) (r : Regs) : (r.endFlags e).done = true := rfl
@[simp] theorem Regs.endFlags_wign (e : ErrCode) (r : Regs) : (r.endFlags e).wign = r.wign := rfl
@[simp] theorem Regs.endFlags_err (e : ErrCode) (r : Regs) : (r.endFlags e).err = e := rfl
@[simp] theorem Regs.endFlags_rounds (e : ErrCode) (r : Regs) : (r.endFlags e).rounds = r.rounds := rfl
@[simp] theorem Regs.endFlags_key (e : ErrCode) (r : Regs) : (r.endFlags e).key = r.key := rfl
@[simp] theorem Regs.endFlags_v0 (e : ErrCode) (r : Regs) : (r.endFlags e).v0 = r.v0 := rfl
@[simp] theorem Regs.endFlags_v1 (e : ErrCode) (r : Regs) : (r.endFlags e).v1 = r.v1 := rfl
@[simp] theorem Regs.endFlags_addr (e : ErrCode) (r : Regs) : (r.endFlags e).addr = r.addr := rfl
@[simp] theorem Regs.endFlags_size (e : ErrCode) (r : Regs) : (r.endFlags e).size = r.size := rfl
@[simp] theorem Regs.endFlags_progress (e : ErrCode) (r : Regs) : (r.endFlags e).progress = r.progress := rfl
@[simp] theorem Regs.endFlags_faultAddr (e : ErrCode) (r : Regs) : (r.endFlags e).faultAddr = r.faultAddr := rfl

@[simp] theorem Regs.dropFlag_compat (r : Regs) : (r.dropFlag).compat = r.compat := rfl
@[simp] theorem Regs.dropFlag_irqEn (r : Regs) : (r.dropFlag).irqEn = r.irqEn := rfl
@[simp] theorem Regs.dropFlag_done (r : Regs) : (r.dropFlag).done = r.done := rfl
@[simp] theorem Regs.dropFlag_wign (r : Regs) : (r.dropFlag).wign = true := rfl
@[simp] theorem Regs.dropFlag_err (r : Regs) : (r.dropFlag).err = r.err := rfl
@[simp] theorem Regs.dropFlag_rounds (r : Regs) : (r.dropFlag).rounds = r.rounds := rfl
@[simp] theorem Regs.dropFlag_key (r : Regs) : (r.dropFlag).key = r.key := rfl
@[simp] theorem Regs.dropFlag_v0 (r : Regs) : (r.dropFlag).v0 = r.v0 := rfl
@[simp] theorem Regs.dropFlag_v1 (r : Regs) : (r.dropFlag).v1 = r.v1 := rfl
@[simp] theorem Regs.dropFlag_addr (r : Regs) : (r.dropFlag).addr = r.addr := rfl
@[simp] theorem Regs.dropFlag_size (r : Regs) : (r.dropFlag).size = r.size := rfl
@[simp] theorem Regs.dropFlag_progress (r : Regs) : (r.dropFlag).progress = r.progress := rfl
@[simp] theorem Regs.dropFlag_faultAddr (r : Regs) : (r.dropFlag).faultAddr = r.faultAddr := rfl

@[simp] theorem Regs.clearFlags_compat (d : Word) (r : Regs) : (r.clearFlags d).compat = r.compat := rfl
@[simp] theorem Regs.clearFlags_irqEn (d : Word) (r : Regs) : (r.clearFlags d).irqEn = r.irqEn := rfl
@[simp] theorem Regs.clearFlags_done (d : Word) (r : Regs) : (r.clearFlags d).done = (r.done && !d.getLsbD 1) := rfl
@[simp] theorem Regs.clearFlags_wign (d : Word) (r : Regs) : (r.clearFlags d).wign = (r.wign && !d.getLsbD 2) := rfl
@[simp] theorem Regs.clearFlags_err (d : Word) (r : Regs) : (r.clearFlags d).err = r.err := rfl
@[simp] theorem Regs.clearFlags_rounds (d : Word) (r : Regs) : (r.clearFlags d).rounds = r.rounds := rfl
@[simp] theorem Regs.clearFlags_key (d : Word) (r : Regs) : (r.clearFlags d).key = r.key := rfl
@[simp] theorem Regs.clearFlags_v0 (d : Word) (r : Regs) : (r.clearFlags d).v0 = r.v0 := rfl
@[simp] theorem Regs.clearFlags_v1 (d : Word) (r : Regs) : (r.clearFlags d).v1 = r.v1 := rfl
@[simp] theorem Regs.clearFlags_addr (d : Word) (r : Regs) : (r.clearFlags d).addr = r.addr := rfl
@[simp] theorem Regs.clearFlags_size (d : Word) (r : Regs) : (r.clearFlags d).size = r.size := rfl
@[simp] theorem Regs.clearFlags_progress (d : Word) (r : Regs) : (r.clearFlags d).progress = r.progress := rfl
@[simp] theorem Regs.clearFlags_faultAddr (d : Word) (r : Regs) : (r.clearFlags d).faultAddr = r.faultAddr := rfl

@[simp] theorem Regs.writeCtrl_compat (d : Word) (r : Regs) : (r.writeCtrl d).compat = d.getLsbD 0 := rfl
@[simp] theorem Regs.writeCtrl_irqEn (d : Word) (r : Regs) : (r.writeCtrl d).irqEn = d.getLsbD 1 := rfl
@[simp] theorem Regs.writeCtrl_done (d : Word) (r : Regs) : (r.writeCtrl d).done = r.done := rfl
@[simp] theorem Regs.writeCtrl_wign (d : Word) (r : Regs) : (r.writeCtrl d).wign = r.wign := rfl
@[simp] theorem Regs.writeCtrl_err (d : Word) (r : Regs) : (r.writeCtrl d).err = r.err := rfl
@[simp] theorem Regs.writeCtrl_rounds (d : Word) (r : Regs) : (r.writeCtrl d).rounds = r.rounds := rfl
@[simp] theorem Regs.writeCtrl_key (d : Word) (r : Regs) : (r.writeCtrl d).key = r.key := rfl
@[simp] theorem Regs.writeCtrl_v0 (d : Word) (r : Regs) : (r.writeCtrl d).v0 = r.v0 := rfl
@[simp] theorem Regs.writeCtrl_v1 (d : Word) (r : Regs) : (r.writeCtrl d).v1 = r.v1 := rfl
@[simp] theorem Regs.writeCtrl_addr (d : Word) (r : Regs) : (r.writeCtrl d).addr = r.addr := rfl
@[simp] theorem Regs.writeCtrl_size (d : Word) (r : Regs) : (r.writeCtrl d).size = r.size := rfl
@[simp] theorem Regs.writeCtrl_progress (d : Word) (r : Regs) : (r.writeCtrl d).progress = r.progress := rfl
@[simp] theorem Regs.writeCtrl_faultAddr (d : Word) (r : Regs) : (r.writeCtrl d).faultAddr = r.faultAddr := rfl

/-! ### The engine -/

@[simp] theorem Engine.latch_lop (i : Instr) (r : Regs) (e : Engine) : (e.latch i r).lop = i := rfl
@[simp] theorem Engine.latch_lk (i : Instr) (r : Regs) (e : Engine) : (e.latch i r).lk = r.key := rfl
@[simp] theorem Engine.latch_lr (i : Instr) (r : Regs) (e : Engine) : (e.latch i r).lr = r.rounds := rfl
@[simp] theorem Engine.latch_lbase (i : Instr) (r : Regs) (e : Engine) : (e.latch i r).lbase = e.lbase := rfl
@[simp] theorem Engine.latch_lnb (i : Instr) (r : Regs) (e : Engine) : (e.latch i r).lnb = e.lnb := rfl
@[simp] theorem Engine.latch_w0 (i : Instr) (r : Regs) (e : Engine) : (e.latch i r).w0 = e.w0 := rfl
@[simp] theorem Engine.latch_w1 (i : Instr) (r : Regs) (e : Engine) : (e.latch i r).w1 = e.w1 := rfl
@[simp] theorem Engine.latch_sum (i : Instr) (r : Regs) (e : Engine) : (e.latch i r).sum = e.sum := rfl
@[simp] theorem Engine.latch_rcnt (i : Instr) (r : Regs) (e : Engine) : (e.latch i r).rcnt = e.rcnt := rfl
@[simp] theorem Engine.latch_bidx (i : Instr) (r : Regs) (e : Engine) : (e.latch i r).bidx = e.bidx := rfl
@[simp] theorem Engine.latch_phase (i : Instr) (r : Regs) (e : Engine) : (e.latch i r).phase = e.phase := rfl
@[simp] theorem Engine.latch_beat (i : Instr) (r : Regs) (e : Engine) : (e.latch i r).beat = e.beat := rfl
@[simp] theorem Engine.latch_rbuf (i : Instr) (r : Regs) (e : Engine) : (e.latch i r).rbuf = e.rbuf := rfl

@[simp] theorem Engine.startRounds_lop (d : Direction) (b : Block) (p : Phase) (e : Engine) : (e.startRounds d b p).lop = e.lop := rfl
@[simp] theorem Engine.startRounds_lk (d : Direction) (b : Block) (p : Phase) (e : Engine) : (e.startRounds d b p).lk = e.lk := rfl
@[simp] theorem Engine.startRounds_lr (d : Direction) (b : Block) (p : Phase) (e : Engine) : (e.startRounds d b p).lr = e.lr := rfl
@[simp] theorem Engine.startRounds_lbase (d : Direction) (b : Block) (p : Phase) (e : Engine) : (e.startRounds d b p).lbase = e.lbase := rfl
@[simp] theorem Engine.startRounds_lnb (d : Direction) (b : Block) (p : Phase) (e : Engine) : (e.startRounds d b p).lnb = e.lnb := rfl
@[simp] theorem Engine.startRounds_w0 (d : Direction) (b : Block) (p : Phase) (e : Engine) : (e.startRounds d b p).w0 = b.v0 := rfl
@[simp] theorem Engine.startRounds_w1 (d : Direction) (b : Block) (p : Phase) (e : Engine) : (e.startRounds d b p).w1 = b.v1 := rfl
@[simp] theorem Engine.startRounds_sum (d : Direction) (b : Block) (p : Phase) (e : Engine) : (e.startRounds d b p).sum = startSum d e.lr := rfl
@[simp] theorem Engine.startRounds_rcnt (d : Direction) (b : Block) (p : Phase) (e : Engine) : (e.startRounds d b p).rcnt = e.lr := rfl
@[simp] theorem Engine.startRounds_bidx (d : Direction) (b : Block) (p : Phase) (e : Engine) : (e.startRounds d b p).bidx = e.bidx := rfl
@[simp] theorem Engine.startRounds_phase (d : Direction) (b : Block) (p : Phase) (e : Engine) : (e.startRounds d b p).phase = p := rfl
@[simp] theorem Engine.startRounds_beat (d : Direction) (b : Block) (p : Phase) (e : Engine) : (e.startRounds d b p).beat = e.beat := rfl
@[simp] theorem Engine.startRounds_rbuf (d : Direction) (b : Block) (p : Phase) (e : Engine) : (e.startRounds d b p).rbuf = e.rbuf := rfl

@[simp] theorem Engine.oneRound_lop (c : CipherStructure) (d : Direction) (e : Engine) : (e.oneRound c d).lop = e.lop := rfl
@[simp] theorem Engine.oneRound_lk (c : CipherStructure) (d : Direction) (e : Engine) : (e.oneRound c d).lk = e.lk := rfl
@[simp] theorem Engine.oneRound_lr (c : CipherStructure) (d : Direction) (e : Engine) : (e.oneRound c d).lr = e.lr := rfl
@[simp] theorem Engine.oneRound_lbase (c : CipherStructure) (d : Direction) (e : Engine) : (e.oneRound c d).lbase = e.lbase := rfl
@[simp] theorem Engine.oneRound_lnb (c : CipherStructure) (d : Direction) (e : Engine) : (e.oneRound c d).lnb = e.lnb := rfl
@[simp] theorem Engine.oneRound_w0 (c : CipherStructure) (d : Direction) (e : Engine) : (e.oneRound c d).w0 = (mixRound c d e.lk { v0 := e.w0, v1 := e.w1, sum := e.sum }).v0 := rfl
@[simp] theorem Engine.oneRound_w1 (c : CipherStructure) (d : Direction) (e : Engine) : (e.oneRound c d).w1 = (mixRound c d e.lk { v0 := e.w0, v1 := e.w1, sum := e.sum }).v1 := rfl
@[simp] theorem Engine.oneRound_sum (c : CipherStructure) (d : Direction) (e : Engine) : (e.oneRound c d).sum = (mixRound c d e.lk { v0 := e.w0, v1 := e.w1, sum := e.sum }).sum := rfl
@[simp] theorem Engine.oneRound_rcnt (c : CipherStructure) (d : Direction) (e : Engine) : (e.oneRound c d).rcnt = e.rcnt - 1#32 := rfl
@[simp] theorem Engine.oneRound_bidx (c : CipherStructure) (d : Direction) (e : Engine) : (e.oneRound c d).bidx = e.bidx := rfl
@[simp] theorem Engine.oneRound_phase (c : CipherStructure) (d : Direction) (e : Engine) : (e.oneRound c d).phase = e.phase := rfl
@[simp] theorem Engine.oneRound_beat (c : CipherStructure) (d : Direction) (e : Engine) : (e.oneRound c d).beat = e.beat := rfl
@[simp] theorem Engine.oneRound_rbuf (c : CipherStructure) (d : Direction) (e : Engine) : (e.oneRound c d).rbuf = e.rbuf := rfl

@[simp] theorem Engine.toIdle_lop (e : Engine) : (e.toIdle).lop = e.lop := rfl
@[simp] theorem Engine.toIdle_lk (e : Engine) : (e.toIdle).lk = e.lk := rfl
@[simp] theorem Engine.toIdle_lr (e : Engine) : (e.toIdle).lr = e.lr := rfl
@[simp] theorem Engine.toIdle_lbase (e : Engine) : (e.toIdle).lbase = e.lbase := rfl
@[simp] theorem Engine.toIdle_lnb (e : Engine) : (e.toIdle).lnb = e.lnb := rfl
@[simp] theorem Engine.toIdle_w0 (e : Engine) : (e.toIdle).w0 = e.w0 := rfl
@[simp] theorem Engine.toIdle_w1 (e : Engine) : (e.toIdle).w1 = e.w1 := rfl
@[simp] theorem Engine.toIdle_sum (e : Engine) : (e.toIdle).sum = e.sum := rfl
@[simp] theorem Engine.toIdle_rcnt (e : Engine) : (e.toIdle).rcnt = e.rcnt := rfl
@[simp] theorem Engine.toIdle_bidx (e : Engine) : (e.toIdle).bidx = e.bidx := rfl
@[simp] theorem Engine.toIdle_phase (e : Engine) : (e.toIdle).phase = .idle := rfl
@[simp] theorem Engine.toIdle_beat (e : Engine) : (e.toIdle).beat = e.beat := rfl
@[simp] theorem Engine.toIdle_rbuf (e : Engine) : (e.toIdle).rbuf = e.rbuf := rfl

/-! ### The start and the ends of a command -/

@[simp] theorem State.accept_build (i : Instr) (s : State) : (s.accept i).build = s.build := rfl
@[simp] theorem State.accept_plat (i : Instr) (s : State) : (s.accept i).plat = s.plat := rfl
@[simp] theorem State.accept_regs (i : Instr) (s : State) : (s.accept i).regs = s.regs.acceptFlags := rfl
@[simp] theorem State.accept_eng (i : Instr) (s : State) : (s.accept i).eng = s.eng.latch i s.regs := rfl
@[simp] theorem State.accept_mem (i : Instr) (s : State) : (s.accept i).mem = s.mem := rfl
@[simp] theorem State.accept_world (i : Instr) (s : State) : (s.accept i).world = s.world := rfl

@[simp] theorem State.raise_build (e : ErrCode) (s : State) : (s.raise e).build = s.build := rfl
@[simp] theorem State.raise_plat (e : ErrCode) (s : State) : (s.raise e).plat = s.plat := rfl
@[simp] theorem State.raise_regs (e : ErrCode) (s : State) : (s.raise e).regs = s.regs.endFlags e := rfl
@[simp] theorem State.raise_eng (e : ErrCode) (s : State) : (s.raise e).eng = s.eng.toIdle := rfl
@[simp] theorem State.raise_mem (e : ErrCode) (s : State) : (s.raise e).mem = s.mem := rfl
@[simp] theorem State.raise_world (e : ErrCode) (s : State) : (s.raise e).world = s.world := rfl

@[simp] theorem State.raiseBusError_build (a : Nat) (s : State) : (s.raiseBusError a).build = s.build := rfl
@[simp] theorem State.raiseBusError_plat (a : Nat) (s : State) : (s.raiseBusError a).plat = s.plat := rfl
@[simp] theorem State.raiseBusError_regs (a : Nat) (s : State) : (s.raiseBusError a).regs = ({ s.regs with faultAddr := BitVec.ofNat 32 a } : Regs).endFlags .busError := rfl
@[simp] theorem State.raiseBusError_eng (a : Nat) (s : State) : (s.raiseBusError a).eng = s.eng.toIdle := rfl
@[simp] theorem State.raiseBusError_mem (a : Nat) (s : State) : (s.raiseBusError a).mem = s.mem := rfl
@[simp] theorem State.raiseBusError_world (a : Nat) (s : State) : (s.raiseBusError a).world = s.world := rfl

@[simp] theorem State.complete_build (s : State) : (s.complete).build = s.build := rfl
@[simp] theorem State.complete_plat (s : State) : (s.complete).plat = s.plat := rfl
@[simp] theorem State.complete_regs (s : State) : (s.complete).regs = s.regs.endFlags .ok := rfl
@[simp] theorem State.complete_eng (s : State) : (s.complete).eng = s.eng.toIdle := rfl
@[simp] theorem State.complete_mem (s : State) : (s.complete).mem = s.mem := rfl
@[simp] theorem State.complete_world (s : State) : (s.complete).world = s.world := rfl

@[simp] theorem State.illegalWord_build (s : State) : (s.illegalWord).build = s.build := rfl
@[simp] theorem State.illegalWord_plat (s : State) : (s.illegalWord).plat = s.plat := rfl
@[simp] theorem State.illegalWord_regs (s : State) : (s.illegalWord).regs = s.regs.endFlags .illegalCmd := rfl
@[simp] theorem State.illegalWord_eng (s : State) : (s.illegalWord).eng = s.eng := rfl
@[simp] theorem State.illegalWord_mem (s : State) : (s.illegalWord).mem = s.mem := rfl
@[simp] theorem State.illegalWord_world (s : State) : (s.illegalWord).world = s.world := rfl

@[simp] theorem State.acknowledge_build (d : Word) (s : State) : (s.acknowledge d).build = s.build := rfl
@[simp] theorem State.acknowledge_plat (d : Word) (s : State) : (s.acknowledge d).plat = s.plat := rfl
@[simp] theorem State.acknowledge_regs (d : Word) (s : State) : (s.acknowledge d).regs = s.regs.clearFlags d := rfl
@[simp] theorem State.acknowledge_eng (d : Word) (s : State) : (s.acknowledge d).eng = s.eng := rfl
@[simp] theorem State.acknowledge_mem (d : Word) (s : State) : (s.acknowledge d).mem = s.mem := rfl
@[simp] theorem State.acknowledge_world (d : Word) (s : State) : (s.acknowledge d).world = s.world := rfl

@[simp] theorem State.dropWrite_build (s : State) : (s.dropWrite).build = s.build := rfl
@[simp] theorem State.dropWrite_plat (s : State) : (s.dropWrite).plat = s.plat := rfl
@[simp] theorem State.dropWrite_regs (s : State) : (s.dropWrite).regs = s.regs.dropFlag := rfl
@[simp] theorem State.dropWrite_eng (s : State) : (s.dropWrite).eng = s.eng := rfl
@[simp] theorem State.dropWrite_mem (s : State) : (s.dropWrite).mem = s.mem := rfl
@[simp] theorem State.dropWrite_world (s : State) : (s.dropWrite).world = s.world := rfl

@[simp] theorem State.halfWrite_build (a : Nat) (b : Byte) (s : State) : (s.halfWrite a b).build = s.build := rfl
@[simp] theorem State.halfWrite_plat (a : Nat) (b : Byte) (s : State) : (s.halfWrite a b).plat = s.plat := rfl
@[simp] theorem State.halfWrite_regs (a : Nat) (b : Byte) (s : State) : (s.halfWrite a b).regs = s.regs := rfl
@[simp] theorem State.halfWrite_eng (a : Nat) (b : Byte) (s : State) : (s.halfWrite a b).eng = s.eng := rfl
@[simp] theorem State.halfWrite_mem (a : Nat) (b : Byte) (s : State) : (s.halfWrite a b).mem = if Config.freeDraw s.world.draws then s.mem.write a b else s.mem := rfl
@[simp] theorem State.halfWrite_world (a : Nat) (b : Byte) (s : State) : (s.halfWrite a b).world = { s.world with draws := s.world.draws + 1 } := rfl

@[simp] theorem State.resetEngine_build (s : State) : (s.resetEngine).build = s.build := rfl
@[simp] theorem State.resetEngine_plat (s : State) : (s.resetEngine).plat = s.plat := rfl
@[simp] theorem State.resetEngine_regs (s : State) : (s.resetEngine).regs = Regs.reset := rfl
@[simp] theorem State.resetEngine_eng (s : State) : (s.resetEngine).eng = Engine.reset := rfl
@[simp] theorem State.resetEngine_mem (s : State) : (s.resetEngine).mem = s.mem := rfl
@[simp] theorem State.resetEngine_world (s : State) : (s.resetEngine).world = s.world := rfl

/-! ### The single-block commands -/

@[simp] theorem finishBlock_build (s : State) : (finishBlock s).build = s.build := rfl
@[simp] theorem finishBlock_plat (s : State) : (finishBlock s).plat = s.plat := rfl
@[simp] theorem finishBlock_regs (s : State) : (finishBlock s).regs = ({ s.regs with v0 := s.eng.w0, v1 := s.eng.w1 } : Regs).endFlags .ok := rfl
@[simp] theorem finishBlock_eng (s : State) : (finishBlock s).eng = s.eng.toIdle := rfl
@[simp] theorem finishBlock_mem (s : State) : (finishBlock s).mem = s.mem := rfl
@[simp] theorem finishBlock_world (s : State) : (finishBlock s).world = s.world := rfl

@[simp] theorem roundStep_build (d : Direction) (s : State) : (roundStep d s).build = s.build := rfl
@[simp] theorem roundStep_plat (d : Direction) (s : State) : (roundStep d s).plat = s.plat := rfl
@[simp] theorem roundStep_regs (d : Direction) (s : State) : (roundStep d s).regs = s.regs := rfl
@[simp] theorem roundStep_eng (d : Direction) (s : State) : (roundStep d s).eng = s.eng.oneRound s.build.cipher d := rfl
@[simp] theorem roundStep_mem (d : Direction) (s : State) : (roundStep d s).mem = s.mem := rfl
@[simp] theorem roundStep_world (d : Direction) (s : State) : (roundStep d s).world = s.world := rfl

@[simp] theorem startBlock_build (i : Instr) (d : Direction) (s : State) : (startBlock i d s).build = s.build := rfl
@[simp] theorem startBlock_plat (i : Instr) (d : Direction) (s : State) : (startBlock i d s).plat = s.plat := rfl
@[simp] theorem startBlock_regs (i : Instr) (d : Direction) (s : State) : (startBlock i d s).regs = s.regs.acceptFlags := rfl
@[simp] theorem startBlock_eng (i : Instr) (d : Direction) (s : State) : (startBlock i d s).eng = (s.eng.latch i s.regs).startRounds d { v0 := s.regs.v0, v1 := s.regs.v1 } .runBlock := rfl
@[simp] theorem startBlock_mem (i : Instr) (d : Direction) (s : State) : (startBlock i d s).mem = s.mem := rfl
@[simp] theorem startBlock_world (i : Instr) (d : Direction) (s : State) : (startBlock i d s).world = s.world := rfl

/-! ### The buffer commands -/

@[simp] theorem acceptBuffer_build (i : Instr) (s : State) : (acceptBuffer i s).build = s.build := rfl
@[simp] theorem acceptBuffer_plat (i : Instr) (s : State) : (acceptBuffer i s).plat = s.plat := rfl
@[simp] theorem acceptBuffer_regs (i : Instr) (s : State) : (acceptBuffer i s).regs = { s.regs.acceptFlags with progress := 0#32 } := rfl
@[simp] theorem acceptBuffer_eng (i : Instr) (s : State) : (acceptBuffer i s).eng = s.eng.latch i s.regs := rfl
@[simp] theorem acceptBuffer_mem (i : Instr) (s : State) : (acceptBuffer i s).mem = s.mem := rfl
@[simp] theorem acceptBuffer_world (i : Instr) (s : State) : (acceptBuffer i s).world = s.world := rfl

@[simp] theorem startIteration_build (s : State) : (startIteration s).build = s.build := rfl
@[simp] theorem startIteration_plat (s : State) : (startIteration s).plat = s.plat := rfl
@[simp] theorem startIteration_regs (s : State) : (startIteration s).regs = s.regs := rfl
@[simp] theorem startIteration_eng (s : State) : (startIteration s).eng = { s.eng with lbase := s.regs.addr, lnb := BitVec.ofNat 30 (blockCount s.regs.size), bidx := 0#30, beat := 0, phase := .bufRead } := rfl
@[simp] theorem startIteration_mem (s : State) : (startIteration s).mem = s.mem := rfl
@[simp] theorem startIteration_world (s : State) : (startIteration s).world = { s.world with windows := { base := s.regs.addr.toNat, blocks := blockCount s.regs.size } :: s.world.windows } := rfl

end Sys2Proof.Machine
end

