-- ==== Sys2Proof/Laws/Memory.lean ====
section
/-! SUPPORT. The buffer memory: what a write does to a read, and that every operation keeps the canonical form. -/

namespace Sys2Proof.Machine

@[simp] theorem Memory.read_nil (a : Nat) : Memory.read [] a = Memory.blank := rfl

theorem Memory.read_cons (c : Host.Cell) (m : Memory) (a : Nat) :
    Memory.read (c :: m) a = if c.1 = a then c.2 else Memory.read m a := rfl

theorem Memory.read_put_same (a : Nat) (b : Byte) (m : Memory) (h : b = blank → Memory.read m a = blank) :
    (Memory.put a b m).read a = b := by
  unfold Memory.put
  split
  · next hb => rw [h hb, hb]
  · simp [Memory.read_cons]

theorem Memory.read_put_other (a : Nat) (b : Byte) (m : Memory) {x : Nat} (h : x ≠ a) :
    (Memory.put a b m).read x = m.read x := by
  unfold Memory.put
  split
  · rfl
  · simp [Memory.read_cons, Ne.symm h]

/-- An address below every listed one reads as an unlisted address does. -/
theorem Memory.read_of_lt {m : Memory} {a : Nat} (h : ∀ c ∈ m, a < c.1) : m.read a = Memory.blank := by
  induction m with
  | nil => rfl
  | cons c m ih =>
    have hc := h c (by simp)
    rw [Memory.read_cons, if_neg (by omega)]
    exact ih fun d hd => h d (by simp [hd])

/-- A write leaves every other address alone, in any memory. -/
theorem Memory.read_write_other (m : Memory) (a : Nat) (b : Byte) {x : Nat} (h : x ≠ a) :
    (m.write a b).read x = m.read x := by
  induction m with
  | nil => simp [Memory.write, Memory.read_put_other _ _ _ h]
  | cons c m ih =>
    unfold Memory.write
    split
    · rw [Memory.read_put_other _ _ _ h]
    · split
      · next hc => rw [Memory.read_put_other _ _ _ h, Memory.read_cons, if_neg (by omega)]
      · rw [Memory.read_cons, Memory.read_cons, ih]

/-- A write to a memory in rising order is read back. -/
theorem Memory.read_write_same {m : Memory} (a : Nat) (b : Byte) (hm : m.Pairwise (fun c d => c.1 < d.1)) :
    (m.write a b).read a = b := by
  induction m with
  | nil => exact Memory.read_put_same _ _ _ (fun _ => rfl)
  | cons c m ih =>
    rw [List.pairwise_cons] at hm
    unfold Memory.write
    split
    · next hlt =>
      refine Memory.read_put_same _ _ _ fun _ => Memory.read_of_lt ?_
      intro d hd
      rcases List.mem_cons.mp hd with rfl | hd
      · exact hlt
      · exact lt_trans hlt (hm.1 d hd)
    · split
      · next heq => exact Memory.read_put_same _ _ _ fun _ => Memory.read_of_lt (by rw [heq]; exact hm.1)
      · next hne => rw [Memory.read_cons, if_neg (by omega), ih hm.2]

/-- What a read of a memory in rising order gives after a write. -/
theorem Memory.read_write {m : Memory} (hm : m.Pairwise (fun c d => c.1 < d.1)) (a x : Nat) (b : Byte) :
    (m.write a b).read x = if x = a then b else m.read x := by
  split
  · next h => rw [h, Memory.read_write_same a b hm]
  · next h => exact Memory.read_write_other m a b h

theorem Memory.mem_put {a : Nat} {b : Byte} {m : Memory} {c : Host.Cell} (h : c ∈ Memory.put a b m) :
    (c = (a, b) ∧ b ≠ blank) ∨ c ∈ m := by
  unfold Memory.put at h
  split at h
  · exact .inr h
  · rcases List.mem_cons.mp h with rfl | h
    · exact .inl ⟨rfl, by assumption⟩
    · exact .inr h

theorem Memory.mem_write {m : Memory} {a : Nat} {b : Byte} {c : Host.Cell} (h : c ∈ m.write a b) :
    (c = (a, b) ∧ b ≠ blank) ∨ c ∈ m := by
  induction m with
  | nil => exact Memory.mem_put h
  | cons d m ih =>
    unfold Memory.write at h
    split at h
    · exact Memory.mem_put h
    · split at h
      · rcases Memory.mem_put h with h | h
        · exact .inl h
        · exact .inr (by simp [h])
      · rcases List.mem_cons.mp h with rfl | h
        · exact .inr (by simp)
        · rcases ih h with h | h
          · exact .inl h
          · exact .inr (by simp [h])

theorem Memory.pairwise_put {a : Nat} {b : Byte} {m : Memory} (hm : m.Pairwise (fun c d => c.1 < d.1))
    (h : ∀ c ∈ m, a < c.1) : (Memory.put a b m).Pairwise (fun c d => c.1 < d.1) := by
  unfold Memory.put
  split
  · exact hm
  · exact List.pairwise_cons.mpr ⟨h, hm⟩

theorem Memory.pairwise_write {m : Memory} (a : Nat) (b : Byte) (hm : m.Pairwise (fun c d => c.1 < d.1)) :
    (m.write a b).Pairwise (fun c d => c.1 < d.1) := by
  induction m with
  | nil => exact Memory.pairwise_put hm (by simp)
  | cons c m ih =>
    have hm' := List.pairwise_cons.mp hm
    unfold Memory.write
    split
    · next hlt =>
      refine Memory.pairwise_put hm fun d hd => ?_
      rcases List.mem_cons.mp hd with rfl | hd
      · exact hlt
      · exact lt_trans hlt (hm'.1 d hd)
    · split
      · next heq => exact Memory.pairwise_put hm'.2 (by rw [heq]; exact hm'.1)
      · refine List.pairwise_cons.mpr ⟨fun d hd => ?_, ih hm'.2⟩
        rcases Memory.mem_write hd with ⟨rfl, -⟩ | hd
        · change c.1 < a; omega
        · exact hm'.1 d hd

/-- Every write inside the address space keeps the canonical form. -/
theorem Memory.wf_write {m : Memory} {a : Nat} (b : Byte) (hm : m.wf) (ha : a < Config.addrSpace) :
    (m.write a b).wf := by
  refine ⟨Memory.pairwise_write a b hm.1, fun c hc => ?_⟩
  rcases Memory.mem_write hc with ⟨rfl, hb⟩ | hc
  · exact ⟨hb, ha⟩
  · exact hm.2 c hc

theorem Memory.wf_nil : Memory.wf [] := by simp [Memory.wf]

/-- In canonical form, memories that read alike everywhere are equal. -/
theorem Memory.ext_of_wf {m n : Memory} (hm : m.wf) (hn : n.wf) (h : ∀ a, m.read a = n.read a) : m = n := by
  induction m generalizing n with
  | nil =>
    cases n with
    | nil => rfl
    | cons d n =>
      have := h d.1
      simp only [Memory.read_nil, Memory.read_cons, if_true] at this
      exact absurd this.symm (hn.2 d (by simp)).1
  | cons c m ih =>
    obtain ⟨hm1, hm2⟩ := hm
    rw [List.pairwise_cons] at hm1
    have hcb := (hm2 c (by simp)).1
    cases n with
    | nil =>
      have := h c.1
      simp only [Memory.read_nil, Memory.read_cons, if_true] at this
      exact absurd this hcb
    | cons d n =>
      obtain ⟨hn1, hn2⟩ := hn
      rw [List.pairwise_cons] at hn1
      have hdb := (hn2 d (by simp)).1
      have hcd : c.1 = d.1 := by
        rcases lt_trichotomy c.1 d.1 with hlt | heq | hgt
        · have := h c.1
          rw [Memory.read_cons, if_pos rfl, Memory.read_of_lt (m := d :: n)] at this
          · exact absurd this hcb
          · intro e he
            rcases List.mem_cons.mp he with rfl | he
            · exact hlt
            · exact lt_trans hlt (hn1.1 e he)
        · exact heq
        · have := h d.1
          rw [Memory.read_cons (c := d), if_pos rfl, Memory.read_of_lt (m := c :: m)] at this
          · exact absurd this.symm hdb
          · intro e he
            rcases List.mem_cons.mp he with rfl | he
            · exact hgt
            · exact lt_trans hgt (hm1.1 e he)
      have hv : c.2 = d.2 := by
        have := h c.1
        rwa [Memory.read_cons, if_pos rfl, Memory.read_cons, if_pos hcd.symm] at this
      have hmn : m = n := by
        refine ih ⟨hm1.2, fun e he => hm2 e (by simp [he])⟩ ⟨hn1.2, fun e he => hn2 e (by simp [he])⟩ fun a => ?_
        by_cases hca : c.1 = a
        · rw [← hca, Memory.read_of_lt hm1.1, hcd, Memory.read_of_lt hn1.1]
        · have := h a
          rwa [Memory.read_cons, if_neg hca, Memory.read_cons, if_neg (hcd ▸ hca)] at this
      rw [hmn, Prod.ext hcd hv]

end Sys2Proof.Machine
end

