-- ==== Sys2Proof/Laws/Ops.lean ====
section
/-! SUPPORT. For each shared operation, once, everything it can do; and the arms of `exec` as these operations. -/

namespace Sys2Proof.Machine

/-! ### The engine's turn of a command -/

theorem withEngine_idle {i : Instr} {start advance : State → Result} {s : State} (h : s.eng.phase = .idle) :
    withEngine i start advance s = start s := if_pos h

theorem withEngine_inFlight {i : Instr} {start advance : State → Result} {s : State} (h : s.eng.phase ≠ .idle)
    (hl : s.eng.lop = i) : withEngine i start advance s = advance s := by
  unfold withEngine; rw [if_neg h, if_pos hl]

theorem withEngine_turnedAway {i : Instr} {start advance : State → Result} {s : State} (h : s.eng.phase ≠ .idle)
    (hl : s.eng.lop ≠ i) : withEngine i start advance s = .next s.dropWrite := by
  unfold withEngine; rw [if_neg h, if_neg hl]

/-- `ENC_BLOCK` and `DEC_BLOCK` as one operation. -/
theorem exec_block {i : Instr} (hi : i = .encBlock ∨ i = .decBlock) (s : State) :
    exec i s = withEngine i (fun t => .next (startBlock i (directionOf i) t)) (advanceBlock (directionOf i)) s := by
  rcases hi with rfl | rfl <;> rfl

/-- `ENC_BUF` and `DEC_BUF` as one operation. -/
theorem exec_buffer {i : Instr} (hi : i = .encBuf ∨ i = .decBuf) (s : State) :
    exec i s = withEngine i (fun t => .next (startBuffer i t)) (advanceBuffer (directionOf i)) s := by
  rcases hi with rfl | rfl <;> rfl

theorem block_or_buffer (i : Instr) : (i = .encBlock ∨ i = .decBlock) ∨ (i = .encBuf ∨ i = .decBuf) := by
  cases i <;> simp

theorem isBlockCommand_iff {i : Instr} : isBlockCommand i = true ↔ i = .encBlock ∨ i = .decBlock := by
  cases i <;> simp [isBlockCommand]

theorem isBufferCommand_iff {i : Instr} : isBufferCommand i = true ↔ i = .encBuf ∨ i = .decBuf := by
  cases i <;> simp [isBufferCommand]

theorem State.busy_iff {s : State} : s.busy = true ↔ s.eng.phase ≠ .idle := by simp [State.busy]

theorem State.not_busy_iff {s : State} : s.busy = false ↔ s.eng.phase = .idle := by simp [State.busy]

/-! ### One byte access -/

/-- If a byte access answers a next state, the address exists, and the access completed, was a bus error, or was not
answered. -/
theorem memAccess_next {k : AccessKind} {a : Nat} {ok err : State → Result} {s t : State}
    (h : memAccess k a ok err s = .next t) :
    a < Config.addrSpace ∧
    ((platformReply s.plat k a = .completes ∧ ok s = .next t) ∨
     (platformReply s.plat k a = .busError ∧ err s = .next t) ∨
     (platformReply s.plat k a = .neverAnswers ∧ t = s)) := by
  unfold memAccess at h
  split at h
  · next ha =>
    refine ⟨ha, ?_⟩
    split at h
    · next hr => exact .inl ⟨hr, h⟩
    · next hr => exact .inr (.inl ⟨hr, h⟩)
    · next hr => cases h; exact .inr (.inr ⟨hr, rfl⟩)
  · cases h

theorem memAccess_completes {k : AccessKind} {a : Nat} {ok err : State → Result} {s : State}
    (ha : a < Config.addrSpace) (hr : platformReply s.plat k a = .completes) : memAccess k a ok err s = ok s := by
  unfold memAccess; rw [if_pos ha, hr]

theorem memAccess_busError {k : AccessKind} {a : Nat} {ok err : State → Result} {s : State}
    (ha : a < Config.addrSpace) (hr : platformReply s.plat k a = .busError) : memAccess k a ok err s = err s := by
  unfold memAccess; rw [if_pos ha, hr]

theorem memAccess_neverAnswers {k : AccessKind} {a : Nat} {ok err : State → Result} {s : State}
    (ha : a < Config.addrSpace) (hr : platformReply s.plat k a = .neverAnswers) :
    memAccess k a ok err s = .next s := by
  unfold memAccess; rw [if_pos ha, hr]

/-! ### A command in flight -/

/-- If a single-block command's step answers a next state, it ended the command or ran one round. -/
theorem advanceBlock_next {d : Direction} {s t : State} (h : advanceBlock d s = .next t) :
    s.eng.phase = .runBlock ∧
    ((s.eng.rcnt = 0#32 ∧ t = finishBlock s) ∨ (s.eng.rcnt ≠ 0#32 ∧ t = roundStep d s)) := by
  unfold advanceBlock at h
  split at h
  · next hp =>
    refine ⟨hp, ?_⟩
    split at h
    · next hr => cases h; exact .inl ⟨hr, rfl⟩
    · next hr => cases h; exact .inr ⟨hr, rfl⟩
  · cases h

theorem advanceBlock_runBlock {d : Direction} {s : State} (hp : s.eng.phase = .runBlock) :
    advanceBlock d s = if s.eng.rcnt = 0#32 then .next (finishBlock s) else .next (roundStep d s) := by
  unfold advanceBlock; rw [hp]

theorem advanceBuffer_bufRead {d : Direction} {s : State} (hp : s.eng.phase = .bufRead) :
    advanceBuffer d s = memAccess .read s.eng.byteAddr (fun t => .next (byteRead d t))
      (fun t => .next (t.raiseBusError t.eng.byteAddr)) s := by
  unfold advanceBuffer; rw [hp]

theorem advanceBuffer_bufRounds {d : Direction} {s : State} (hp : s.eng.phase = .bufRounds) :
    advanceBuffer d s = if s.eng.rcnt = 0#32 then .next (s.setEng { s.eng with beat := 0, phase := .bufWrite })
      else .next (roundStep d s) := by
  unfold advanceBuffer; rw [hp]

theorem advanceBuffer_bufWrite {d : Direction} {s : State} (hp : s.eng.phase = .bufWrite) :
    advanceBuffer d s = memAccess .write s.eng.byteAddr (fun t => .next (byteWritten t))
      (fun t => .next ((t.halfWrite t.eng.byteAddr (outByte t)).raiseBusError t.eng.byteAddr)) s := by
  unfold advanceBuffer; rw [hp]

/-- If a buffer command's step answers a next state, it is one of these. -/
theorem advanceBuffer_next {d : Direction} {s t : State} (h : advanceBuffer d s = .next t) :
    (s.eng.phase = .bufRead ∧ s.eng.byteAddr < Config.addrSpace ∧
      (t = byteRead d s ∨ t = s.raiseBusError s.eng.byteAddr ∨ t = s)) ∨
    (s.eng.phase = .bufRounds ∧ s.eng.rcnt = 0#32 ∧ t = s.setEng { s.eng with beat := 0, phase := .bufWrite }) ∨
    (s.eng.phase = .bufRounds ∧ s.eng.rcnt ≠ 0#32 ∧ t = roundStep d s) ∨
    (s.eng.phase = .bufWrite ∧ s.eng.byteAddr < Config.addrSpace ∧
      (t = byteWritten s ∨ t = (s.halfWrite s.eng.byteAddr (outByte s)).raiseBusError s.eng.byteAddr ∨ t = s)) := by
  unfold advanceBuffer at h
  split at h
  · next hp =>
    obtain ⟨ha, ⟨-, h⟩ | ⟨-, h⟩ | ⟨-, h⟩⟩ := memAccess_next h
    · cases h; exact .inl ⟨hp, ha, .inl rfl⟩
    · cases h; exact .inl ⟨hp, ha, .inr (.inl rfl)⟩
    · exact .inl ⟨hp, ha, .inr (.inr h)⟩
  · next hp =>
    split at h
    · next hr => cases h; exact .inr (.inl ⟨hp, hr, rfl⟩)
    · next hr => cases h; exact .inr (.inr (.inl ⟨hp, hr, rfl⟩))
  · next hp =>
    obtain ⟨ha, ⟨-, h⟩ | ⟨-, h⟩ | ⟨-, h⟩⟩ := memAccess_next h
    · cases h; exact .inr (.inr (.inr ⟨hp, ha, .inl rfl⟩))
    · cases h; exact .inr (.inr (.inr ⟨hp, ha, .inr (.inl rfl)⟩))
    · exact .inr (.inr (.inr ⟨hp, ha, .inr (.inr h)⟩))
  · cases h

/-- What acceptance of a buffer command comes to: one of its four ends. -/
theorem startBuffer_cases (i : Instr) (s : State) :
    (s.regs.misaligned = true ∧ startBuffer i s = (acceptBuffer i s).raise .misaligned) ∨
    (s.regs.misaligned = false ∧ s.regs.outOfRange = true ∧ startBuffer i s = (acceptBuffer i s).raise .range) ∨
    (s.regs.bufferOk ∧ blockCount s.regs.size = 0 ∧ startBuffer i s = (acceptBuffer i s).complete) ∨
    (s.regs.bufferOk ∧ blockCount s.regs.size ≠ 0 ∧ startBuffer i s = startIteration (acceptBuffer i s)) := by
  have hm : (acceptBuffer i s).regs.misaligned = s.regs.misaligned := rfl
  have hr : (acceptBuffer i s).regs.outOfRange = s.regs.outOfRange := rfl
  have hs : (acceptBuffer i s).regs.size = s.regs.size := rfl
  unfold startBuffer
  simp only [hm, hr, hs, Regs.bufferOk]
  cases s.regs.misaligned <;> cases s.regs.outOfRange <;> by_cases h0 : blockCount s.regs.size = 0 <;> simp [h0]

theorem blockCount_le (w : Word) : blockCount w ≤ 2 ^ 29 := by
  unfold blockCount; have := w.isLt; omega

theorem blockCount_pos_iff (w : Word) : blockCount w = 0 ↔ w = 0#32 := by
  unfold blockCount
  constructor
  · intro h; apply BitVec.eq_of_toNat_eq; simp; omega
  · rintro rfl; rfl

/-- The latched block count is the block count (R35, R141). -/
theorem toNat_ofNat_blockCount (w : Word) : (BitVec.ofNat 30 (blockCount w)).toNat = blockCount w := by
  have := blockCount_le w
  rw [BitVec.toNat_ofNat, Nat.mod_eq_of_lt (by omega)]

/-- The range check, read as numbers (R143). -/
theorem outOfRange_eq_false {r : Regs} :
    r.outOfRange = false ↔ r.addr.toNat + 8 * blockCount r.size ≤ Config.addrSpace := by
  simp [Regs.outOfRange]

theorem outOfRange_iff {r : Regs} :
    r.outOfRange = true ↔ Config.addrSpace < r.addr.toNat + 8 * blockCount r.size := by
  simp [Regs.outOfRange]

/-- The alignment check, read as numbers (R142). -/
theorem misaligned_iff {r : Regs} : r.misaligned = true ↔ r.compat = false ∧ r.size.toNat % 8 ≠ 0 := by
  simp [Regs.misaligned]

theorem misaligned_eq_false {r : Regs} : r.misaligned = false ↔ r.compat = true ∨ r.size.toNat % 8 = 0 := by
  cases h : r.compat <;> simp [Regs.misaligned, h]

/-! ### Races and free values -/

/-- What scrambling leaves alone: all but memory and the count of draws. -/
theorem scrambleBytes_frame (n a : Nat) (s : State) :
    (scrambleBytes n a s).build = s.build ∧ (scrambleBytes n a s).plat = s.plat ∧
    (scrambleBytes n a s).regs = s.regs ∧ (scrambleBytes n a s).eng = s.eng ∧
    ∃ k, (scrambleBytes n a s).world = { s.world with draws := k } := by
  induction n generalizing a s with
  | zero => exact ⟨rfl, rfl, rfl, rfl, s.world.draws, rfl⟩
  | succ n ih =>
    obtain ⟨h1, h2, h3, h4, k, h5⟩ := ih (a + 1) (s.setMem (s.mem.write a (Config.freeByte s.world.draws))).drawn
    exact ⟨h1, h2, h3, h4, k, h5⟩

theorem scrambleBlocks_frame (as : List Nat) (s : State) :
    (scrambleBlocks as s).build = s.build ∧ (scrambleBlocks as s).plat = s.plat ∧
    (scrambleBlocks as s).regs = s.regs ∧ (scrambleBlocks as s).eng = s.eng ∧
    ∃ k, (scrambleBlocks as s).world = { s.world with draws := k } := by
  induction as generalizing s with
  | nil => exact ⟨rfl, rfl, rfl, rfl, s.world.draws, rfl⟩
  | cons a as ih =>
    obtain ⟨h1, h2, h3, h4, k, h5⟩ := ih (scrambleBytes 8 a s)
    obtain ⟨g1, g2, g3, g4, l, g5⟩ := scrambleBytes_frame 8 a s
    refine ⟨h1.trans g1, h2.trans g2, h3.trans g3, h4.trans g4, k, ?_⟩
    change (scrambleBlocks as (scrambleBytes 8 a s)).world = _
    rw [h5, g5]

theorem scrambleBytes_read {n a : Nat} (s : State) {x : Nat} (h : x < a ∨ a + n ≤ x) :
    (scrambleBytes n a s).mem.read x = s.mem.read x := by
  induction n generalizing a s with
  | zero => rfl
  | succ n ih =>
    rw [scrambleBytes, ih _ (by omega)]
    exact Memory.read_write_other _ _ _ (by omega)

theorem scrambleBlocks_read {as : List Nat} (s : State) {x : Nat} (h : ∀ a ∈ as, x < a ∨ a + 8 ≤ x) :
    (scrambleBlocks as s).mem.read x = s.mem.read x := by
  induction as generalizing s with
  | nil => rfl
  | cons a as ih =>
    rw [scrambleBlocks, ih _ fun b hb => h b (by simp [hb])]
    exact scrambleBytes_read s (h a (by simp))

theorem scrambleBytes_wf {n a : Nat} {s : State} (hm : s.mem.wf) (h : a + n ≤ Config.addrSpace) :
    (scrambleBytes n a s).mem.wf := by
  induction n generalizing a s with
  | zero => exact hm
  | succ n ih => exact ih (Memory.wf_write _ hm (by omega)) (by omega)

theorem scrambleBlocks_wf {as : List Nat} {s : State} (hm : s.mem.wf) (h : ∀ a ∈ as, a + 8 ≤ Config.addrSpace) :
    (scrambleBlocks as s).mem.wf := by
  induction as generalizing s with
  | nil => exact hm
  | cons a as ih => exact ih (scrambleBytes_wf hm (h a (by simp))) fun b hb => h b (by simp [hb])

/-- With no race to settle, nothing is settled. -/
theorem settleRaces_eq_self {s : State} (h : s.eng.phase ≠ .idle ∨ s.world.raced = []) : settleRaces s = s := by
  unfold settleRaces
  split
  · next hp =>
    have hr := h.resolve_left (fun hn => hn hp)
    simp only [hr, scrambleBlocks]
    cases s with
    | mk b p r e m w => cases w with | mk i re rl ws ra dr => cases hr; rfl
  · rfl

/-- What settling the races leaves alone. -/
theorem settleRaces_frame (s : State) :
    (settleRaces s).build = s.build ∧ (settleRaces s).plat = s.plat ∧ (settleRaces s).regs = s.regs ∧
    (settleRaces s).eng = s.eng ∧ (settleRaces s).world.inputs = s.world.inputs ∧
    (settleRaces s).world.resp = s.world.resp ∧ (settleRaces s).world.resetLine = s.world.resetLine ∧
    (settleRaces s).world.windows = s.world.windows := by
  unfold settleRaces
  split
  · obtain ⟨h1, h2, h3, h4, k, h5⟩ := scrambleBlocks_frame s.world.raced s
    refine ⟨h1, h2, h3, h4, ?_⟩
    simp [h5]
  · exact ⟨rfl, rfl, rfl, rfl, rfl, rfl, rfl, rfl⟩

theorem settleRaces_idle {s : State} (h : s.eng.phase = .idle) : (settleRaces s).world.raced = [] := by
  unfold settleRaces; rw [if_pos h]; rfl

theorem settleRaces_wf {s : State} (hm : s.mem.wf) (h : ∀ a ∈ s.world.raced, a + 8 ≤ Config.addrSpace) :
    (settleRaces s).mem.wf := by
  unfold settleRaces
  split
  · exact scrambleBlocks_wf hm h
  · exact hm

/-- The blocks an access falls into are inside the windows that hold it (R77). -/
theorem mem_ownedBlocks {s : State} {a b : Nat} (h : b ∈ s.ownedBlocks a) :
    ∃ w ∈ s.world.windows, w.holds a = true ∧ b = w.blockOf a ∧ b ≤ a ∧ a < b + 8 ∧ b + 8 ≤ w.base + 8 * w.blocks := by
  simp only [State.ownedBlocks, List.mem_map, List.mem_filter] at h
  obtain ⟨w, ⟨hw, hh⟩, rfl⟩ := h
  refine ⟨w, hw, hh, rfl, ?_⟩
  simp only [Window.holds, Bool.and_eq_true, decide_eq_true_eq] at hh
  simp only [Window.blockOf]
  omega

theorem ownedBlocks_eq_nil_iff {s : State} {a : Nat} :
    s.ownedBlocks a = [] ↔ ∀ w ∈ s.world.windows, a < w.base ∨ w.base + 8 * w.blocks ≤ a := by
  simp only [State.ownedBlocks, List.map_eq_nil_iff, List.filter_eq_nil_iff, Window.holds, Bool.and_eq_true,
    decide_eq_true_eq, not_and_or, not_le, not_lt]

end Sys2Proof.Machine
end

