-- ==== Sys2Proof/Laws/Buffer.lean ====
section
/-! SUPPORT. The block iterator's operations: what reading or writing one byte does, and what the bytes of a block do to
memory. -/

namespace Sys2Proof.Machine

theorem Fin8.val_succ {b : Fin 8} (h : b ≠ 7) : (b + 1).val = b.val + 1 ∧ b.val < 7 := by
  revert b; decide

/-- What the arrival of a byte leaves alone: all but the internal state. -/
theorem byteRead_frame (d : Direction) (s : State) :
    (byteRead d s).build = s.build ∧ (byteRead d s).plat = s.plat ∧ (byteRead d s).regs = s.regs ∧
    (byteRead d s).mem = s.mem ∧ (byteRead d s).world = s.world := by
  unfold byteRead
  simp only
  split <;> exact ⟨rfl, rfl, rfl, rfl, rfl⟩

/-- What the arrival of a byte comes to: the next byte of the group, or the start of the rounds (R145). -/
theorem byteRead_cases (d : Direction) (s : State) :
    (s.eng.beat ≠ 7 ∧ byteRead d s = s.setEng { s.eng with
      rbuf := s.eng.rbuf.set s.eng.beat.val (s.mem.read s.eng.byteAddr) s.eng.beat.isLt, beat := s.eng.beat + 1 }) ∨
    (s.eng.beat = 7 ∧ byteRead d s = s.setEng (Engine.startRounds d
      (loadBlock s.build.order (s.eng.rbuf.set s.eng.beat.val (s.mem.read s.eng.byteAddr) s.eng.beat.isLt)) .bufRounds
      { s.eng with
        rbuf := s.eng.rbuf.set s.eng.beat.val (s.mem.read s.eng.byteAddr) s.eng.beat.isLt, beat := 0 })) := by
  unfold byteRead
  simp only
  split
  · next h => exact .inr ⟨h, rfl⟩
  · next h => exact .inl ⟨h, rfl⟩

/-- The memory after a byte has been written. -/
theorem byteWritten_mem (s : State) : (byteWritten s).mem = s.mem.write s.eng.byteAddr (outByte s) := by
  unfold byteWritten nextBlock
  simp only
  split
  · split <;> rfl
  · rfl

/-- What the writing of a byte comes to: the next byte of the group, the next block, or the end of the command (R145,
R148). -/
theorem byteWritten_cases (s : State) :
    (s.eng.beat ≠ 7 ∧ byteWritten s =
      (s.setMem (s.mem.write s.eng.byteAddr (outByte s))).setEng { s.eng with beat := s.eng.beat + 1 }) ∨
    (s.eng.beat = 7 ∧ s.eng.bidx.toNat + 1 < s.eng.lnb.toNat ∧ byteWritten s =
      ((s.setMem (s.mem.write s.eng.byteAddr (outByte s))).setRegs
        { s.regs with progress := BitVec.ofNat 32 (s.eng.bidx.toNat + 1) }).setEng
          { s.eng with bidx := s.eng.bidx + 1#30, beat := 0, phase := .bufRead }) ∨
    (s.eng.beat = 7 ∧ s.eng.lnb.toNat ≤ s.eng.bidx.toNat + 1 ∧ byteWritten s =
      ((s.setMem (s.mem.write s.eng.byteAddr (outByte s))).setRegs
        { s.regs with progress := BitVec.ofNat 32 (s.eng.bidx.toNat + 1) }).complete) := by
  have h7 (h : s.eng.beat = 7) :
      byteWritten s = nextBlock (s.setMem (s.mem.write s.eng.byteAddr (outByte s))) := if_pos h
  by_cases h : s.eng.beat = 7
  · by_cases hn : s.eng.bidx.toNat + 1 < s.eng.lnb.toNat
    · exact .inr (.inl ⟨h, hn, (h7 h).trans (if_pos hn)⟩)
    · exact .inr (.inr ⟨h, by omega, (h7 h).trans (if_neg hn)⟩)
  · exact .inl ⟨h, if_neg h⟩

/-- A write that was not completed changes at most its byte, to the byte written (R67). -/
theorem halfWrite_read {s : State} (hm : s.mem.wf) (a x : Nat) (b : Byte) :
    (s.halfWrite a b).mem.read x = s.mem.read x ∨ (x = a ∧ (s.halfWrite a b).mem.read x = b) := by
  rw [State.halfWrite_mem]
  split
  · rw [Memory.read_write hm.1]
    split
    · next h => exact .inr ⟨h, rfl⟩
    · exact .inl rfl
  · exact .inl rfl

/-- A read after the bytes `j .. j+n-1` of a block have been stored. -/
theorem storeBytes_read {o : ByteOrder} {b : Block} {n j : Nat} {m : Memory} {a x : Nat}
    (hm : m.Pairwise (fun c d => c.1 < d.1)) :
    (storeBytes o b a n j m).read x =
      if a + j ≤ x ∧ x < a + j + n then blockByte o b (x - a) else m.read x := by
  induction n generalizing j m with
  | zero => simp [storeBytes]
  | succ n ih =>
    rw [storeBytes, ih (Memory.pairwise_write _ _ hm), Memory.read_write hm]
    by_cases h1 : x = a + j
    · subst h1
      rw [if_neg (by omega), if_pos rfl, if_pos (by omega)]
      congr 1
      omega
    · rw [if_neg h1]
      split <;> split <;> first | rfl | omega

/-- Storing bytes inside the address space keeps memory's canonical form. -/
theorem storeBytes_wf {o : ByteOrder} {b : Block} {n j : Nat} {m : Memory} {a : Nat} (hm : m.wf)
    (h : a + j + n ≤ Config.addrSpace) : (storeBytes o b a n j m).wf := by
  induction n generalizing j m with
  | zero => exact hm
  | succ n ih => exact ih (Memory.wf_write _ hm (by omega)) (by omega)

/-- Transforming a block in place leaves the bytes outside it alone. -/
theorem cipherBlock_read_other {bd : Build} {d : Direction} {k : Key} {r : Word} {a : Nat} {m : Memory}
    (hm : m.Pairwise (fun c d => c.1 < d.1)) {x : Nat} (h : x < a ∨ a + 8 ≤ x) :
    (cipherBlock bd d k r a m).read x = m.read x := by
  rw [cipherBlock, storeBytes_read hm, if_neg (by omega)]

theorem cipherBlock_wf {bd : Build} {d : Direction} {k : Key} {r : Word} {a : Nat} {m : Memory} (hm : m.wf)
    (h : a + 8 ≤ Config.addrSpace) : (cipherBlock bd d k r a m).wf := storeBytes_wf hm (by omega)

theorem cipherBlocks_wf {bd : Build} {d : Direction} {k : Key} {r : Word} {n a : Nat} {m : Memory} (hm : m.wf)
    (h : a + 8 * n ≤ Config.addrSpace) : (cipherBlocks bd d k r n a m).wf := by
  induction n generalizing a m with
  | zero => exact hm
  | succ n ih => exact ih (cipherBlock_wf hm (by omega)) (by omega)

/-- A block is read from bytes that read alike. -/
theorem blockAt_congr {o : ByteOrder} {m n : Memory} {a : Nat} (h : ∀ j, j < 8 → m.read (a + j) = n.read (a + j)) :
    blockAt o m a = blockAt o n a := by
  have h0 := h 0 (by omega)
  have h1 := h 1 (by omega)
  have h2 := h 2 (by omega)
  have h3 := h 3 (by omega)
  have h4 := h 4 (by omega)
  have h5 := h 5 (by omega)
  have h6 := h 6 (by omega)
  have h7 := h 7 (by omega)
  rw [Nat.add_zero] at h0
  unfold blockAt
  rw [h0, h1, h2, h3, h4, h5, h6, h7]

end Sys2Proof.Machine
end

