-- ==== Sys2Proof/Laws/Step.lean ====
section
/-! SUPPORT. What one step can do: the engine's turn, the issue of a command, each event; and what a host access
reaches. -/

namespace Sys2Proof.Machine

/-! ### The step -/

theorem step_nil {s : State} (h : s.world.inputs = []) : step s = engineTurn s := by unfold step; rw [h]

theorem step_cons {s : State} {e : Event} {es : List Event} (h : s.world.inputs = e :: es) :
    step s = takeEvent e (s.withInputs es) := by unfold step; rw [h]

/-- If a step answers a next state, it is the engine's turn or the next event. -/
theorem step_next {s t : State} (h : step s = .next t) :
    (s.world.inputs = [] ∧ engineTurn s = .next t) ∨
    ∃ e es, s.nextEvent e es ∧ takeEvent e (s.withInputs es) = .next t := by
  unfold step at h
  split at h
  · next hi => exact .inl ⟨hi, h⟩
  · next e es hi => exact .inr ⟨e, es, hi, h⟩

/-- If the engine's turn answers a next state, the engine had nothing to do, or the command in flight took a step. -/
theorem engineTurn_next {s t : State} (h : engineTurn s = .next t) :
    ((s.world.resetLine = true ∨ s.eng.phase = .idle) ∧ t = s) ∨
    (s.world.resetLine = false ∧ s.eng.phase ≠ .idle ∧ ∃ u, exec s.eng.lop s = .next u ∧ t = settleRaces u) := by
  unfold engineTurn at h
  split at h
  · next hc => cases h; exact .inl ⟨hc, rfl⟩
  · next hc =>
    rw [not_or] at hc
    cases hx : exec s.eng.lop s with
    | next u => rw [hx] at h; cases h; exact .inr ⟨by simpa using hc.1, hc.2, u, rfl, rfl⟩
    | fault f => rw [hx] at h; cases h
    | refused r => rw [hx] at h; cases h

theorem engineTurn_busy {s u : State} (hr : s.world.resetLine = false) (hp : s.eng.phase ≠ .idle)
    (h : exec s.eng.lop s = .next u) : engineTurn s = .next (settleRaces u) := by
  unfold engineTurn
  rw [if_neg (by simp [hr, hp]), h]

theorem engineTurn_idle {s : State} (h : s.world.resetLine = true ∨ s.eng.phase = .idle) : engineTurn s = .next s :=
  if_pos h

/-- If a meaning answers a next state, the command was accepted, took a step, or was turned away. -/
theorem exec_next {i : Instr} {s t : State} (h : exec i s = .next t) :
    (s.eng.phase = .idle ∧ isBlockCommand i = true ∧ t = startBlock i (directionOf i) s) ∨
    (s.eng.phase = .idle ∧ isBufferCommand i = true ∧ t = startBuffer i s) ∨
    (s.eng.phase ≠ .idle ∧ s.eng.lop = i ∧ isBlockCommand i = true ∧ advanceBlock (directionOf i) s = .next t) ∨
    (s.eng.phase ≠ .idle ∧ s.eng.lop = i ∧ isBufferCommand i = true ∧ advanceBuffer (directionOf i) s = .next t) ∨
    (s.eng.phase ≠ .idle ∧ s.eng.lop ≠ i ∧ t = s.dropWrite) := by
  by_cases hp : s.eng.phase = .idle
  · rcases block_or_buffer i with hi | hi
    · rw [exec_block hi, withEngine_idle hp] at h
      cases h; exact .inl ⟨hp, isBlockCommand_iff.mpr hi, rfl⟩
    · rw [exec_buffer hi, withEngine_idle hp] at h
      cases h; exact .inr (.inl ⟨hp, isBufferCommand_iff.mpr hi, rfl⟩)
  · by_cases hl : s.eng.lop = i
    · rcases block_or_buffer i with hi | hi
      · rw [exec_block hi, withEngine_inFlight hp hl] at h
        exact .inr (.inr (.inl ⟨hp, hl, isBlockCommand_iff.mpr hi, h⟩))
      · rw [exec_buffer hi, withEngine_inFlight hp hl] at h
        exact .inr (.inr (.inr (.inl ⟨hp, hl, isBufferCommand_iff.mpr hi, h⟩)))
    · rcases block_or_buffer i with hi | hi
      · rw [exec_block hi, withEngine_turnedAway hp hl] at h
        cases h; exact .inr (.inr (.inr (.inr ⟨hp, hl, rfl⟩)))
      · rw [exec_buffer hi, withEngine_turnedAway hp hl] at h
        cases h; exact .inr (.inr (.inr (.inr ⟨hp, hl, rfl⟩)))

/-- Acceptance always answers a next state. -/
theorem exec_idle {s : State} (i : Instr) (h : s.eng.phase = .idle) : ∃ t, exec i s = .next t := by
  rcases block_or_buffer i with hi | hi
  · exact ⟨_, by rw [exec_block hi, withEngine_idle h]⟩
  · exact ⟨_, by rw [exec_buffer hi, withEngine_idle h]⟩

/-! ### The events -/

theorem takeEvent_regRead {a : Access} {s : State} (h : s.world.resetLine = false) :
    takeEvent (.regRead a) s = .next (hostRead a s) := by simp [takeEvent, h]

theorem takeEvent_regRead_reset {a : Access} {s : State} (h : s.world.resetLine = true) :
    takeEvent (.regRead a) s = .next (s.respond .notTaken) := by simp [takeEvent, h]

theorem takeEvent_regWrite_reset {a : Access} {d : Word} {s : State} (h : s.world.resetLine = true) :
    takeEvent (.regWrite a d) s = .next (s.respond .notTaken) := by simp [takeEvent, h]

theorem takeEvent_regWrite {a : Access} {d : Word} {s : State} (h : s.world.resetLine = false)
    (hc : issuesCommand a s = false) : takeEvent (.regWrite a d) s = .next (hostWrite a d s) := by
  simp [takeEvent, h, hc]

theorem takeEvent_command {a : Access} {d : Word} {s : State} (h : s.world.resetLine = false)
    (hc : issuesCommand a s = true) : takeEvent (.regWrite a d) s = issueCommand d (s.respond .written) := by
  simp [takeEvent, h, hc]

theorem issueCommand_ok {w : Word} {i : Instr} (h : decode w = .ok i) (s : State) : issueCommand w s = exec i s := by
  unfold issueCommand; rw [h]

theorem issueCommand_error {w : Word} {e : DecodeError} (h : decode w = .error e) (s : State) :
    issueCommand w s = .next s.illegalWord := by
  unfold issueCommand; rw [h]

/-! ### Host accesses -/

theorem regAt_regOffset (r : Reg) : regAt (regOffset r) = some r := by cases r <;> rfl

theorem regOffset_lt (r : Reg) : regOffset r < 0x100 ∧ regOffset r % 4 = 0 := by cases r <;> decide

/-- What an aligned 32-bit access inside the window reaches. -/
theorem accessTarget_window (base off : Nat) (h4 : off % 4 = 0) (h : off < 0x100) :
    accessTarget base { addr := base + off, bytes := 4 } =
      match regAt off with | some r => .register r | none => .reserved := by
  unfold accessTarget
  have h1 : ¬ (base + off < base ∨ base + 0x100 ≤ base + off) := by omega
  simp only [h1, if_false, Nat.add_sub_cancel_left, h4]
  cases regAt off <;> simp

theorem accessTarget_regAccess (base : Nat) (r : Reg) : accessTarget base (regAccess base r) = .register r := by
  rw [regAccess, accessTarget_window base _ (regOffset_lt r).2 (regOffset_lt r).1, regAt_regOffset]

theorem accessTarget_erroneous {base : Nat} {a : Access} (h1 : base ≤ a.addr) (h2 : a.addr < base + 0x100)
    (h3 : a.bytes ≠ 4 ∨ (a.addr - base) % 4 ≠ 0) : accessTarget base a = .erroneous := by
  unfold accessTarget
  rw [if_neg (by omega), if_pos h3]

theorem regAt_eq_some {off : Nat} {r : Reg} (h : regAt off = some r) : off = regOffset r := by
  unfold regAt at h
  split at h <;> cases h <;> rfl

/-- The one access that reaches a register. -/
theorem accessTarget_register {base : Nat} {a : Access} {r : Reg} (h : accessTarget base a = .register r) :
    a = regAccess base r := by
  unfold accessTarget at h
  split at h
  · cases h
  · next h1 =>
    split at h
    · cases h
    · next h2 =>
      rw [not_or, not_not, not_not] at h2
      cases hr : regAt (a.addr - base) with
      | none => rw [hr] at h; cases h
      | some q =>
        rw [hr] at h
        cases h
        have := regAt_eq_some hr
        cases a
        simp only [regAccess, Access.mk.injEq] at *
        omega

theorem issuesCommand_iff {a : Access} {s : State} :
    issuesCommand a s = true ↔ s.eng.phase = .idle ∧ a = regAccess s.plat.regBase .cmd := by
  simp only [issuesCommand, Bool.and_eq_true, Bool.not_eq_true', beq_iff_eq, State.not_busy_iff]
  constructor
  · rintro ⟨h1, h2⟩; exact ⟨h1, accessTarget_register h2⟩
  · rintro ⟨h1, rfl⟩; exact ⟨h1, accessTarget_regAccess _ _⟩

/-- What a host read leaves alone: all but its answer and the windows it may close. -/
theorem hostRead_frame (a : Access) (s : State) :
    (hostRead a s).build = s.build ∧ (hostRead a s).plat = s.plat ∧ (hostRead a s).regs = s.regs ∧
    (hostRead a s).eng = s.eng ∧ (hostRead a s).mem = s.mem ∧
    ∃ ws p, (hostRead a s).world = { s.world with resp := p, windows := ws } ∧ (ws = s.world.windows ∨ ws = []) := by
  unfold hostRead
  split
  · exact ⟨rfl, rfl, rfl, rfl, rfl, s.world.windows, _, rfl, .inl rfl⟩
  · exact ⟨rfl, rfl, rfl, rfl, rfl, s.world.windows, _, rfl, .inl rfl⟩
  · exact ⟨rfl, rfl, rfl, rfl, rfl, s.world.windows, _, rfl, .inl rfl⟩
  · split
    · exact ⟨rfl, rfl, rfl, rfl, rfl, [], _, rfl, .inr rfl⟩
    · exact ⟨rfl, rfl, rfl, rfl, rfl, s.world.windows, _, rfl, .inl rfl⟩

/-- A host read of a register answers its value (R183). -/
theorem hostRead_resp {a : Access} {s : State} {r : Reg} (h : accessTarget s.plat.regBase a = .register r) :
    (hostRead a s).world.resp = .data (readReg r s) := by
  unfold hostRead
  simp only [h]
  split <;> rfl

/-- A host read of a reserved offset answers 0 (R34). -/
theorem hostRead_resp_reserved {a : Access} {s : State} (h : accessTarget s.plat.regBase a = .reserved) :
    (hostRead a s).world.resp = .data 0#32 := by
  unfold hostRead; simp only [h]; rfl

/-- What looking at the interrupt output leaves alone. -/
theorem hostIrq_frame (s : State) :
    (hostIrq s).build = s.build ∧ (hostIrq s).plat = s.plat ∧ (hostIrq s).regs = s.regs ∧
    (hostIrq s).eng = s.eng ∧ (hostIrq s).mem = s.mem ∧
    ∃ ws, (hostIrq s).world = { s.world with resp := .irq s.irq, windows := ws } ∧ (ws = s.world.windows ∨ ws = []) := by
  unfold hostIrq
  simp only
  split
  · exact ⟨rfl, rfl, rfl, rfl, rfl, [], rfl, .inr rfl⟩
  · exact ⟨rfl, rfl, rfl, rfl, rfl, s.world.windows, rfl, .inl rfl⟩

theorem writeReg_frame (r : Reg) (d : Word) (s : State) :
    (writeRegIdle r d s).eng = s.eng ∧ (writeRegIdle r d s).mem = s.mem ∧ (writeRegIdle r d s).build = s.build ∧
    (writeRegIdle r d s).plat = s.plat ∧ (writeRegIdle r d s).world = s.world ∧
    (writeRegBusy r d s).eng = s.eng ∧ (writeRegBusy r d s).mem = s.mem ∧ (writeRegBusy r d s).build = s.build ∧
    (writeRegBusy r d s).plat = s.plat ∧ (writeRegBusy r d s).world = s.world := by
  cases r <;> exact ⟨rfl, rfl, rfl, rfl, rfl, rfl, rfl, rfl, rfl, rfl⟩

/-- What a host write that issues no command does: an answer, and at a register the effect of R184 or R185 on the
registers. -/
theorem hostWrite_frame (a : Access) (d : Word) (s : State) :
    (hostWrite a d s).build = s.build ∧ (hostWrite a d s).plat = s.plat ∧ (hostWrite a d s).eng = s.eng ∧
    (hostWrite a d s).mem = s.mem ∧ (∃ p, (hostWrite a d s).world = { s.world with resp := p }) ∧
    ((hostWrite a d s).regs = s.regs ∨
     ∃ r, a = regAccess s.plat.regBase r ∧
      (hostWrite a d s).regs = (if s.busy then writeRegBusy r d s else writeRegIdle r d s).regs) := by
  unfold hostWrite
  split
  · exact ⟨rfl, rfl, rfl, rfl, ⟨_, rfl⟩, .inl rfl⟩
  · exact ⟨rfl, rfl, rfl, rfl, ⟨_, rfl⟩, .inl rfl⟩
  · exact ⟨rfl, rfl, rfl, rfl, ⟨_, rfl⟩, .inl rfl⟩
  · next r hr =>
    obtain ⟨h1, h2, h3, h4, h5, g1, g2, g3, g4, g5⟩ := writeReg_frame r d s
    split
    · exact ⟨g3, g4, g1, g2, ⟨.written, by simp [g5]⟩, .inr ⟨r, accessTarget_register hr, rfl⟩⟩
    · exact ⟨h3, h4, h1, h2, ⟨.written, by simp [h5]⟩, .inr ⟨r, accessTarget_register hr, rfl⟩⟩

/-- A busy engine's registers change under a host write in their flags alone (R185, R187). -/
theorem writeRegBusy_regs (r : Reg) (d : Word) (s : State) :
    (writeRegBusy r d s).regs = s.regs ∨ (writeRegBusy r d s).regs = s.regs.dropFlag ∨
    (r = .status ∧ (writeRegBusy r d s).regs = s.regs.clearFlags d) := by
  cases r <;> simp [writeRegBusy]

/-- What an access of the host to memory leaves alone. -/
theorem hostMemRead_frame (a : BitVec 32) (s : State) :
    (hostMemRead a s).build = s.build ∧ (hostMemRead a s).plat = s.plat ∧ (hostMemRead a s).regs = s.regs ∧
    (hostMemRead a s).eng = s.eng ∧ (hostMemRead a s).mem = s.mem ∧
    ∃ p k, (hostMemRead a s).world = { s.world with resp := p, draws := k } := by
  unfold hostMemRead
  split
  · exact ⟨rfl, rfl, rfl, rfl, rfl, _, s.world.draws, rfl⟩
  · exact ⟨rfl, rfl, rfl, rfl, rfl, _, _, rfl⟩

theorem hostMemWrite_frame (a : BitVec 32) (b : Byte) (s : State) :
    (hostMemWrite a b s).build = s.build ∧ (hostMemWrite a b s).plat = s.plat ∧ (hostMemWrite a b s).regs = s.regs ∧
    (hostMemWrite a b s).eng = s.eng ∧
    (hostMemWrite a b s).mem = (scrambleBlocks (s.ownedBlocks a.toNat) (s.setMem (s.mem.write a.toNat b))).mem ∧
    ∃ k, (hostMemWrite a b s).world = { s.world with
      resp := .memWritten, draws := k,
      raced := if s.busy then s.ownedBlocks a.toNat ++ s.world.raced else s.world.raced } := by
  obtain ⟨h1, h2, h3, h4, k, h5⟩ :=
    scrambleBlocks_frame (s.ownedBlocks a.toNat) (s.setMem (s.mem.write a.toNat b))
  unfold hostMemWrite
  cases hb : s.busy
  · exact ⟨h1, h2, h3, h4, rfl, k, by simp [h5]⟩
  · exact ⟨h1, h2, h3, h4, rfl, k, by simp [h5]⟩

/-! ### One step by its event -/

theorem step_engine {s : State} {es : List Event} (h : s.nextEvent .engine es) :
    step s = engineTurn (s.withInputs es) := step_cons h

theorem step_regRead {s : State} {es : List Event} {a : Access} (h : s.nextEvent (.regRead a) es)
    (hr : s.world.resetLine = false) : step s = .next (hostRead a (s.withInputs es)) :=
  (step_cons h).trans (takeEvent_regRead hr)

theorem step_regRead_reset {s : State} {es : List Event} {a : Access} (h : s.nextEvent (.regRead a) es)
    (hr : s.world.resetLine = true) : step s = .next ((s.withInputs es).respond .notTaken) :=
  (step_cons h).trans (takeEvent_regRead_reset hr)

theorem step_regWrite {s : State} {es : List Event} {a : Access} {d : Word} (h : s.nextEvent (.regWrite a d) es)
    (hr : s.world.resetLine = false) (hc : issuesCommand a s = false) :
    step s = .next (hostWrite a d (s.withInputs es)) :=
  (step_cons h).trans (takeEvent_regWrite hr hc)

theorem step_regWrite_reset {s : State} {es : List Event} {a : Access} {d : Word}
    (h : s.nextEvent (.regWrite a d) es) (hr : s.world.resetLine = true) :
    step s = .next ((s.withInputs es).respond .notTaken) :=
  (step_cons h).trans (takeEvent_regWrite_reset hr)

theorem step_command {s : State} {es : List Event} {a : Access} {d : Word} (h : s.nextEvent (.regWrite a d) es)
    (hr : s.world.resetLine = false) (hc : issuesCommand a s = true) :
    step s = issueCommand d ((s.withInputs es).respond .written) :=
  (step_cons h).trans (takeEvent_command hr hc)

theorem step_irqSample {s : State} {es : List Event} (h : s.nextEvent .irqSample es) :
    step s = .next (hostIrq (s.withInputs es)) := step_cons h

theorem step_memRead {s : State} {es : List Event} {a : BitVec 32} (h : s.nextEvent (.memRead a) es) :
    step s = .next (hostMemRead a (s.withInputs es)) := step_cons h

theorem step_memWrite {s : State} {es : List Event} {a : BitVec 32} {b : Byte} (h : s.nextEvent (.memWrite a b) es) :
    step s = .next (hostMemWrite a b (s.withInputs es)) := step_cons h

theorem step_resetAssert {s : State} {es : List Event} (h : s.nextEvent .resetAssert es) :
    step s = .next (assertReset (s.withInputs es)) := step_cons h

theorem step_resetRelease {s : State} {es : List Event} (h : s.nextEvent .resetRelease es) :
    step s = .next (releaseReset (s.withInputs es)) := step_cons h

/-! ### Reset -/

theorem cutWrite_cases (s : State) :
    cutWrite s = s ∨
    (s.eng.phase = .bufWrite ∧ s.eng.byteAddr < Config.addrSpace ∧
      cutWrite s = s.halfWrite s.eng.byteAddr (outByte s)) := by
  unfold cutWrite
  split
  · next h => exact .inr ⟨h.1, h.2, rfl⟩
  · exact .inl rfl

/-- What asserting reset gives: the reset values, and the configuration and the events to come as they were. -/
theorem assertReset_frame (s : State) :
    (assertReset s).build = s.build ∧ (assertReset s).plat = s.plat ∧ (assertReset s).regs = Regs.reset ∧
    (assertReset s).eng = Engine.reset ∧ (assertReset s).world.inputs = s.world.inputs ∧
    (assertReset s).world.resetLine = true ∧ (assertReset s).world.windows = [] ∧
    (assertReset s).world.raced = [] := by
  obtain ⟨h1, h2, h3, h4, h5, -, -, -⟩ := settleRaces_frame (cutWrite s).resetEngine
  have hr := settleRaces_idle (s := (cutWrite s).resetEngine) rfl
  refine ⟨?_, ?_, h3, h4, ?_, rfl, rfl, hr⟩
  · refine Eq.trans h1 ?_
    rcases cutWrite_cases s with h | ⟨-, -, h⟩ <;> rw [h] <;> rfl
  · refine Eq.trans h2 ?_
    rcases cutWrite_cases s with h | ⟨-, -, h⟩ <;> rw [h] <;> rfl
  · refine Eq.trans h5 ?_
    rcases cutWrite_cases s with h | ⟨-, -, h⟩ <;> rw [h] <;> rfl

theorem releaseReset_cases (s : State) :
    (s.world.resetLine = false ∧ releaseReset s = s) ∨
    (s.world.resetLine = true ∧
      releaseReset s = s.resetEngine.setWorld { s.world with resetLine := false }) := by
  unfold releaseReset
  cases h : s.world.resetLine
  · exact .inl ⟨rfl, rfl⟩
  · exact .inr ⟨rfl, rfl⟩

end Sys2Proof.Machine
end

