-- ==== Sys2Proof/Laws/HostProgram.lean ====
section
/-! SUPPORT. Host programs: what one turn of the host can do. -/

namespace Sys2Proof.Machine

@[simp] theorem HostResult.ofStep_next (k : State → HostRun) (t : State) :
    HostResult.ofStep k (.next t) = .next (k t) := rfl

@[simp] theorem HostRun.answered_machine (h : HostRun) (op : HostOp) (rest : List HostOp) (t : State) :
    (h.answered op rest t).machine = t := rfl

@[simp] theorem HostRun.answered_answers (h : HostRun) (op : HostOp) (rest : List HostOp) (t : State) :
    (h.answered op rest t).answers = h.answers ++ [t.world.resp] := rfl

@[simp] theorem HostRun.answered_todo (h : HostRun) (op : HostOp) (rest : List HostOp) (t : State) :
    (h.answered op rest t).todo = if op.over t.world.resp then rest else op :: rest := rfl

theorem hostTurn_nil {h : HostRun} (ht : h.todo = []) : hostTurn h = .next h := by
  unfold hostTurn
  rw [ht]

theorem hostTurn_cons {h : HostRun} {op : HostOp} {rest : List HostOp} (ht : h.todo = op :: rest) :
    hostTurn h =
      HostResult.ofStep (h.answered op rest) (step (h.machine.withInputs [op.event h.machine.plat.regBase])) := by
  unfold hostTurn
  rw [ht]

/-- A run that goes on does so from the machine's next state. -/
theorem HostResult.ofStep_cases {k : State → HostRun} {r : Result} {h : HostRun}
    (hr : HostResult.ofStep k r = .next h) : ∃ t, r = .next t ∧ h = k t := by
  cases r with
  | next t => exact ⟨t, rfl, (Host.Outcome.next.inj hr).symm⟩
  | fault f => cases hr
  | refused f => cases hr

/-- Everything a turn of the host can do. -/
theorem hostTurn_cases {h k : HostRun} (hk : hostTurn h = .next k) :
    (h.todo = [] ∧ k = h) ∨
    (∃ op rest t, h.todo = op :: rest ∧
      step (h.machine.withInputs [op.event h.machine.plat.regBase]) = .next t ∧ k = h.answered op rest t) := by
  cases ht : h.todo with
  | nil => exact .inl ⟨rfl, Host.Outcome.next.inj (hk.symm.trans (hostTurn_nil ht))⟩
  | cons op rest =>
    obtain ⟨t, hs, rfl⟩ := HostResult.ofStep_cases ((hostTurn_cons ht).symm.trans hk)
    exact .inr ⟨op, rest, t, rfl, hs, rfl⟩

end Sys2Proof.Machine
end

