-- ==== Sys2Proof/Laws/PerInstr.lean ====
section
/-! SUPPORT. Statements about every command, made command by command. -/

namespace Sys2Proof

/-- The command is well formed (R84) and its word decodes to it (R81, R83). -/
def Laws.WellFormedRoundTrip.Statement (i : Instr) : Prop := i.wf = true ∧ decode (encode i) = .ok i

theorem Laws.WellFormedRoundTrip.encBlock : Laws.WellFormedRoundTrip.Statement .encBlock := ⟨rfl, rfl⟩

theorem Laws.WellFormedRoundTrip.decBlock : Laws.WellFormedRoundTrip.Statement .decBlock := ⟨rfl, rfl⟩

theorem Laws.WellFormedRoundTrip.encBuf : Laws.WellFormedRoundTrip.Statement .encBuf := ⟨rfl, rfl⟩

theorem Laws.WellFormedRoundTrip.decBuf : Laws.WellFormedRoundTrip.Statement .decBuf := ⟨rfl, rfl⟩

end Sys2Proof
end

