-- ==== Sys2Proof/Tests/Slice0.lean ====
section
/-! SUPPORT. The model's own tests: ill-formed terms refused, words decoded, vectors of 95_test_vectors.md, one step
of each kind, and for every obligation with hypotheses a state and operands that meet them (theorems `witness_…`). -/

open Sys2Proof Sys2Proof.Machine

namespace Sys2Proof.Tests

set_option Elab.async false

/-! ### Well-formed terms -/

theorem test_wf_command : Instr.wf .encBlock = true ∧ Instr.wf .decBuf = true := by decide +kernel

/-- A byte access is no transaction (R181). -/
theorem test_wf_access_narrow : Access.wf 0x100 { addr := 0x108, bytes := 1 } = false := by decide +kernel

theorem test_wf_access_wide : Access.wf 0x100 { addr := 0x108, bytes := 8 } = false := by decide +kernel

theorem test_wf_access_misaligned : Access.wf 0x100 { addr := 0x10A, bytes := 4 } = false := by decide +kernel

theorem test_wf_access_below : Access.wf 0x100 { addr := 0xFC, bytes := 4 } = false := by decide +kernel

theorem test_wf_access_above : Access.wf 0x100 { addr := 0x200, bytes := 4 } = false := by decide +kernel

theorem test_wf_access_last : Access.wf 0x100 { addr := 0x1FC, bytes := 4 } = true := by decide +kernel

theorem test_wf_region_reversed : Region.wf ⟨5, 4, .completes, .busError⟩ = false := by decide +kernel

theorem test_wf_region_outside : Region.wf ⟨0, 2 ^ 32, .completes, .busError⟩ = false := by decide +kernel

theorem test_wf_platform_base : Platform.wf { regBase := 0x80, regions := [] } = false := by decide +kernel

theorem test_wf_platform_region : Platform.wf { regBase := 0, regions := [⟨5, 4, .completes, .completes⟩] } = false :=
  by
  decide +kernel

theorem test_wf_event : Event.wf 0 (.regRead { addr := 2, bytes := 4 }) = false ∧
    Event.wf 0 (.regWrite { addr := 0, bytes := 2 } 1#32) = false ∧
    Event.wf 0 (.platformRegions [⟨1, 0, .completes, .completes⟩]) = false ∧ Event.wf 0 .engine = true :=
      by decide +kernel

/-! ### Decoding: words written out bit by bit from R80 and R81 -/

theorem test_decode_enc_block : decode 0b00000000000000000000000000000001#32 = .ok .encBlock := rfl

theorem test_decode_dec_block : decode 0b00000000000000000000000000000010#32 = .ok .decBlock := rfl

theorem test_decode_enc_buf : decode 0b00000000000000000000000000000011#32 = .ok .encBuf := rfl

theorem test_decode_dec_buf : decode 0b00000000000000000000000000000100#32 = .ok .decBuf := rfl

/-- 95_test_vectors.md section 3 and R82: every word here is illegal. -/
theorem test_decode_illegal_op : decode 0x00000000#32 = .error .reservedOp ∧
  decode 0x00000005#32 = .error .reservedOp ∧
    decode 0x00000006#32 = .error .reservedOp ∧ decode 0x0000000F#32 = .error .reservedOp := ⟨rfl, rfl, rfl, rfl⟩

theorem test_decode_illegal_mbz : decode 0x00000010#32 = .error .mbzNotZero ∧
  decode 0x00000011#32 = .error .mbzNotZero ∧
    decode 0x80000001#32 = .error .mbzNotZero ∧ decode 0xFFFFFFFF#32 = .error .mbzNotZero := ⟨rfl, rfl, rfl, rfl⟩

/-! ### Vectors of 95_test_vectors.md -/

def zeroKey : Key := ⟨0#32, 0#32, 0#32, 0#32⟩

def seqKey : Key := ⟨0x00010203#32, 0x04050607#32, 0x08090A0B#32, 0x0C0D0E0F#32⟩

/-- V-T1 and V-T5. -/
theorem test_vector_tea : transform .tea .encipher ⟨0#32, 0#32⟩ zeroKey 32#32 = ⟨0x41EA3A0A#32, 0x94BAA940#32⟩ ∧
    transform .tea .decipher ⟨0x41EA3A0A#32, 0x94BAA940#32⟩ zeroKey 32#32 = ⟨0#32, 0#32⟩ := by decide +kernel

/-- V-X2 and V-X6. -/
theorem test_vector_xtea : transform .xtea .encipher ⟨0x41424344#32, 0x45464748#32⟩ seqKey 32#32 =
      ⟨0x497DF3D0#32, 0x72612CB5#32⟩ ∧
    transform .xtea .decipher ⟨0xDEE9D4D8#32, 0xF7131ED9#32⟩ zeroKey 32#32 = ⟨0#32, 0#32⟩ := by decide +kernel

/-- Section 2.1: the first `sum` of 32 decipher rounds. -/
theorem test_vector_sum : startSum .decipher 32#32 = 0xC6EF3720#32 := by decide +kernel

/-- The zero buffer's bytes after V-T1, in both orders (section 4.1). -/
theorem test_vector_bytes :
    (List.range 8).map (blockByte .le ⟨0x41EA3A0A#32, 0x94BAA940#32⟩) =
      [0x0A#8, 0x3A#8, 0xEA#8, 0x41#8, 0x40#8, 0xA9#8, 0xBA#8, 0x94#8] ∧
    (List.range 8).map (blockByte .be ⟨0x41EA3A0A#32, 0x94BAA940#32⟩) =
      [0x41#8, 0xEA#8, 0x3A#8, 0x0A#8, 0x94#8, 0xBA#8, 0xA9#8, 0x40#8] := by decide +kernel

/-! ### States for the tests below -/

/-- Registers for a buffer of two blocks that ends exactly at 2^32, two rounds, the interrupt enabled. -/
def regs : Regs :=
  { Regs.reset with
    irqEn := true, rounds := 2#32, key := seqKey, v0 := 0x01234567#32, v1 := 0x89ABCDEF#32,
    addr := 0xFFFFFFF0#32, size := 16#32 }

/-- An idle engine with these registers. -/
def idle (r : Regs) : State := { State.reset with regs := r }

/-- The state after `n` steps. -/
def after (n : Nat) (s : State) : State :=
  match Host.Core.run Sys2Proof.core n s with
  | .next t => t
  | .fault _ => s
  | .refused _ => s

/-- The command accepted, with these registers, and then `n` engine steps. -/
def running (i : Instr) (r : Regs) (n : Nat) : State := after (n + 1) ((idle r).withFetchWord 32 (encode i).toNat)

/-- The state under a platform of these regions. -/
def under (s : State) (rs : List Region) : State := { s with plat := { s.plat with regions := rs } }

/-- A next state, with what it holds, from the kernel's evaluation. -/
theorem next_of {r : Result} {P : State → Prop} [DecidablePred P]
    (h : (match r with | .next t => decide (P t) | .fault _ => false | .refused _ => false) = true) :
    ∃ t, r = .next t ∧ P t := by
  cases r with
  | next t => exact ⟨t, rfl, of_decide_eq_true h⟩
  | fault f => cases h
  | refused f => cases h

theorem next_exists {r : Result}
    (h : (match r with | .next _ => true | .fault _ => false | .refused _ => false) = true) : ∃ t, r = .next t := by
  cases r with
  | next t => exact ⟨t, rfl⟩
  | fault f => cases h
  | refused f => cases h

/-- A host access at an offset of the window. -/
def at4 (off : Nat) : Access := { addr := off, bytes := 4 }

/-! ### One step of each kind -/

/-- Acceptance of `ENC_BLOCK` latches the block (R200). -/
theorem test_enc_block_accepts : ∃ t, exec .encBlock (idle regs) = .next t ∧ t.eng.w0 = 0x01234567#32 ∧
    t.eng.phase = .runBlock ∧ t.eng.sum = 0#32 := next_of (by decide +kernel)

/-- V-T2: the end of one TEA round over zeros. -/
theorem test_enc_block_result :
    (running .encBlock { Regs.reset with rounds := 1#32 } 2).regs.v0 = 0x9E3779B9#32 ∧
    (running .encBlock { Regs.reset with rounds := 1#32 } 2).regs.v1 = 0xDBE8D32F#32 := by decide +kernel

/-- `DEC_BLOCK` starts from `R * DELTA` (R111). -/
theorem test_dec_block_accepts : ∃ t, exec .decBlock (idle Regs.reset) = .next t ∧ t.eng.sum = 0xC6EF3720#32 :=
  next_of (by decide +kernel)

/-- V-T2 undone. -/
theorem test_dec_block_result :
    (running .decBlock { Regs.reset with rounds := 1#32, v0 := 0x9E3779B9#32, v1 :=
      0xDBE8D32F#32 } 2).regs.v0 = 0#32 := by
  decide +kernel

/-- Section 4.1: `ADDR = 0xFFFFFFF9`, `SIZE = 8` is `RANGE`; with `SIZE = 7` in safe mode it is `MISALIGNED`. -/
theorem test_enc_buf_checks :
    (∃ t, exec .encBuf (idle { regs with addr := 0xFFFFFFF9#32, size := 8#32 }) = .next t ∧ statusWord t = 0x32#32) ∧
    (∃ t, exec .encBuf (idle { regs with addr := 0xFFFFFFF9#32, size := 7#32 }) = .next t ∧ statusWord t = 0x22#32) :=
  ⟨next_of (by decide +kernel), next_of (by decide +kernel)⟩

/-- Section 4.1: `SIZE = 0xFFFFFFFF` in compatibility mode is `2^29` blocks, accepted at 0. -/
theorem test_enc_buf_largest : ∃ t,
    exec .encBuf (idle { regs with compat := true, addr := 0#32, size := 0xFFFFFFFF#32 }) = .next t ∧
    t.eng.lnb = 536870912#30 ∧ statusWord t = 1#32 := next_of (by decide +kernel)

/-- Section 4.1: `SIZE = 0` completes at once, even at the last address. -/
theorem test_dec_buf_empty : ∃ t,
    exec .decBuf (idle { regs with addr := 0xFFFFFFFF#32, size := 0#32 }) = .next t ∧ statusWord t = 2#32 :=
  next_of (by decide +kernel)

/-- R157: size 9 in compatibility mode is two blocks. -/
theorem test_dec_buf_overrun : ∃ t,
    exec .decBuf (idle { regs with compat := true, addr := 0x1000#32, size := 9#32 }) = .next t ∧ t.eng.lnb = 2#30 :=
  next_of (by decide +kernel)

/-- Memory's canonical form: writing the blank byte removes the entry, and order does not matter. -/
theorem test_memory_canonical :
    ((Memory.write [] 5 1#8).write 3 2#8).write 5 0#8 = [(3, 2#8)] ∧
    (Memory.write [] 5 1#8).write 3 2#8 = (Memory.write [] 3 2#8).write 5 1#8 := by decide +kernel

/-! ### Witnesses: what meets the hypotheses of the obligations -/

/-- `State.Inv`, field by field. -/
def invHolds (s : State) : Bool :=
  decide (s.mem.wf ∧ phaseOfCommand s.eng.phase s.eng.lop = true ∧
    (s.eng.phase ≠ .idle → s.regs.done = false ∧ s.regs.err = .ok) ∧
    (s.eng.phase ≠ .idle → s.eng.lk = s.regs.key ∧ s.eng.lr = s.regs.rounds) ∧
    (s.eng.phase.ofBuffer = true →
      s.eng.lbase = s.regs.addr ∧ s.eng.lnb.toNat = blockCount s.regs.size ∧ s.regs.bufferOk ∧
      s.eng.bidx.toNat < s.eng.lnb.toNat ∧ s.regs.progress.toNat = s.eng.bidx.toNat) ∧
    (s.eng.phase.runsRounds = true → s.eng.rcnt.toNat ≤ s.eng.lr.toNat) ∧
    (s.eng.phase = .idle → s.world.raced = []) ∧
    (∀ w ∈ s.world.windows, w.base + 8 * w.blocks ≤ Config.addrSpace) ∧
    (∀ a ∈ s.world.raced, a + 8 ≤ Config.addrSpace) ∧
    (s.world.resetLine = true → s.regs = Regs.reset ∧ s.eng = Engine.reset))

theorem inv_of_holds {s : State} (h : invHolds s = true) : s.Inv := by
  obtain ⟨h1, h2, h3, h4, h5, h6, h7, h8, h9, h10⟩ := of_decide_eq_true h
  exact ⟨h1, h2, h3, h4, h5, h6, h7, h8, h9, h10⟩

/-- `State.DatapathInv`, field by field. -/
def datapathHolds (s : State) : Bool :=
  decide ((s.eng.phase = .runBlock → s.remaining = runRounds s.build.cipher (directionOf s.eng.lop)
      { v0 := s.regs.v0, v1 := s.regs.v1 } s.eng.lk s.eng.lr) ∧
    (s.eng.phase = .bufRounds → s.remaining = runRounds s.build.cipher (directionOf s.eng.lop)
      (loadBlock s.build.order s.eng.rbuf) s.eng.lk s.eng.lr) ∧
    (s.eng.phase = .bufWrite → s.eng.block = transform s.build.cipher (directionOf s.eng.lop)
      (loadBlock s.build.order s.eng.rbuf) s.eng.lk s.eng.lr))

theorem datapath_of_holds {s : State} (h : datapathHolds s = true) : s.DatapathInv := by
  obtain ⟨h1, h2, h3⟩ := of_decide_eq_true h
  exact ⟨h1, h2, h3⟩

/-- An engine held in reset. -/
def held : State := after 1 ((idle regs).withInputs [.resetAssert])

/-- A state whose memory holds bytes at both ends of the buffer of `regs` and next to it. -/
def filled (s : State) : State := { s with mem := [(0xFFFFFFEF, 1#8), (0xFFFFFFF0, 2#8), (0xFFFFFFFF, 3#8)] }

theorem witness_ResetGivesEveryRegisterItsResetValue :
    ((running .encBuf regs 3).withInputs [.resetAssert]).nextEvent .resetAssert [] ∧
    (∃ t, step ((running .encBuf regs 3).withInputs [.resetAssert]) = .next t) ∧
    held.Inv ∧ held.world.resetLine = true ∧ (∃ t, step held = .next t) ∧
    (held.withInputs [.resetRelease]).nextEvent .resetRelease [] ∧
    (held.withInputs [.regRead (at4 0)]).world.resetLine = true ∧
    (held.withInputs [.regRead (at4 0)]).nextEvent (.regRead (at4 0)) [] ∧
    (held.withInputs [.regWrite (at4 0xC) 1#32]).nextEvent (.regWrite (at4 0xC) 1#32) [] :=
  ⟨rfl, next_exists (by decide +kernel), inv_of_holds (by decide +kernel), by decide +kernel,
    next_exists (by decide +kernel), rfl, by decide +kernel, rfl, rfl⟩

theorem witness_ResetKeepsMemoryButForTheByteInFlight :
    (∃ s : State, s.mem.wf ∧ s.nextEvent .resetAssert [] ∧ s.world.raced = [] ∧ s.eng.phase = .bufWrite) ∧
    (∃ s : State, s.mem.wf ∧ s.nextEvent .resetAssert [] ∧ s.world.raced = [] ∧ s.eng.phase = .runBlock) :=
  ⟨⟨(running .encBuf regs 12).withInputs [.resetAssert], by decide +kernel, rfl, by decide +kernel,
    by decide +kernel⟩,
    ⟨(running .encBlock regs 1).withInputs [.resetAssert], by decide +kernel, rfl, by decide +kernel,
      by decide +kernel⟩⟩

theorem witness_ReadsReturnTheRegisterMap :
    ((idle regs).eng.phase = .idle ∧ ∃ t, exec .encBlock (idle regs) = .next t ∧ t.eng.phase = .runBlock) ∧
    ((running .decBlock regs 0).eng.phase = .runBlock ∧
      ∃ t, step (running .decBlock regs 0) = .next t ∧ t.eng.phase = .runBlock) ∧
    (∃ s : State, s.world.resetLine = false ∧
      s.nextEvent (.regRead { addr := s.plat.regBase + 0x00, bytes := 4 }) []) ∧
    (∃ s : State, s.world.resetLine = false ∧
      s.nextEvent (.regRead { addr := s.plat.regBase + 0xFC, bytes := 4 }) []) :=
  ⟨⟨rfl, next_of (by decide +kernel)⟩, ⟨by decide +kernel, next_of (by decide +kernel)⟩,
    ⟨(idle regs).withInputs [.regRead (at4 0x00)], rfl, rfl⟩,
    ⟨(running .encBuf regs 3).withInputs [.regRead (at4 0xFC)], by decide +kernel, by decide +kernel⟩⟩

theorem witness_ReadsHaveNoSideEffect :
    ((running .encBuf regs 3).withInputs [.regRead (at4 0x34)]).nextEvent (.regRead (at4 0x34)) [] := rfl

/-- A byte access at the window's first address, and a misaligned access at its last. -/
theorem witness_ErroneousAccessesChangeNothing :
    (∃ (s : State) (a : Access), s.world.resetLine = false ∧ s.plat.regBase ≤ a.addr ∧
      a.addr < s.plat.regBase + 0x100 ∧ a.bytes ≠ 4 ∧ s.nextEvent (.regRead a) []) ∧
    (∃ (s : State) (a : Access), s.world.resetLine = false ∧ s.plat.regBase ≤ a.addr ∧
      a.addr < s.plat.regBase + 0x100 ∧ (a.addr - s.plat.regBase) % 4 ≠ 0 ∧ s.nextEvent (.regWrite a 1#32) []) :=
  ⟨⟨(idle regs).withInputs [.regRead ⟨0, 1⟩], ⟨0, 1⟩, rfl, by decide +kernel, by decide +kernel, by decide +kernel,
    rfl⟩,
    ⟨(idle regs).withInputs [.regWrite ⟨0xFF, 4⟩ 1#32], ⟨0xFF, 4⟩, rfl, by decide +kernel, by decide +kernel,
      by decide +kernel, rfl⟩⟩

theorem witness_IdleWritesReachTheirRegister :
    (∃ s : State, s.ready ∧ s.nextEvent (.regWrite { addr := s.plat.regBase + 0x0C, bytes := 4 } 1#32) [] ∧
      decode 1#32 = .ok .encBlock) ∧
    (∃ s : State, s.ready ∧ s.nextEvent (.regWrite { addr := s.plat.regBase + 0x0C, bytes := 4 } 5#32) [] ∧
      decode 5#32 = .error .reservedOp) ∧
    (∃ s : State, s.ready ∧ s.nextEvent (.regWrite { addr := s.plat.regBase + 0x00, bytes := 4 } 3#32) []) ∧
    (∃ s : State, s.ready ∧ s.nextEvent (.regWrite { addr := s.plat.regBase + 0xFC, bytes := 4 } 3#32) []) :=
  ⟨⟨(idle regs).withInputs [.regWrite (at4 0xC) 1#32], ⟨rfl, rfl⟩, rfl, rfl⟩,
    ⟨(idle regs).withInputs [.regWrite (at4 0xC) 5#32], ⟨rfl, rfl⟩, rfl, rfl⟩,
    ⟨(idle regs).withInputs [.regWrite (at4 0x00) 3#32], ⟨rfl, rfl⟩, rfl⟩,
    ⟨(idle regs).withInputs [.regWrite (at4 0xFC) 3#32], ⟨rfl, rfl⟩, rfl⟩⟩

/-- A dropped write at the two ends of the operand registers, one at `STATUS`, one that does nothing. -/
theorem witness_BusyWritesAreDropped :
    (running .encBuf regs 3).eng.phase ≠ .idle ∧ (running .encBuf regs 3).world.resetLine = false ∧
    (running .encBuf regs 3).plat.regBase = 0 ∧
    ((running .encBuf regs 3).withInputs [.regWrite (at4 0x0C) 6#32]).nextEvent (.regWrite (at4 0x0C) 6#32) [] ∧
    ((running .encBuf regs 3).withInputs [.regWrite (at4 0x30) 6#32]).nextEvent (.regWrite (at4 0x30) 6#32) [] ∧
    ((running .encBuf regs 3).withInputs [.regWrite (at4 0x08) 6#32]).nextEvent (.regWrite (at4 0x08) 6#32) [] ∧
    ((running .encBuf regs 3).withInputs [.regWrite (at4 0x34) 6#32]).nextEvent (.regWrite (at4 0x34) 6#32) [] ∧
    ((running .encBuf regs 3).withInputs [.regWrite (at4 0xFC) 6#32]).nextEvent (.regWrite (at4 0xFC) 6#32) [] :=
  ⟨by decide +kernel, by decide +kernel, by decide +kernel, rfl, rfl, rfl, rfl, rfl⟩

theorem witness_IllegalWordEndsAtOnce :
    ∀ w ∈ [0#32, 5#32, 0x10#32], (∀ i, w ≠ encode i) ∧
      ∃ s : State, s.ready ∧ s.nextEvent (.regWrite (regAccess s.plat.regBase .cmd) w) [] ∧ s.regs.irqEn = true :=
  fun w hw => ⟨fun i => by
      simp only [List.mem_cons, List.not_mem_nil, or_false] at hw
      rcases hw with rfl | rfl | rfl <;> cases i <;> decide,
    (idle regs).withInputs [.regWrite (at4 0xC) w], ⟨rfl, rfl⟩, rfl, rfl⟩

theorem witness_InterruptFollowsDone :
    (2#32).getLsbD 1 = true ∧ (idle Regs.reset).regs.irqEn = false ∧ (idle regs).regs.irqEn = true ∧
    ((idle regs).withInputs [.irqSample]).nextEvent .irqSample [] := ⟨by decide +kernel, rfl, rfl, rfl⟩

/-- Two states with different keys, in flight and read. -/
theorem witness_KeysAreNeverReadBack :
    sameButKey ((idle regs).withInputs [.regRead (at4 0x14)]) ((idle { regs with key :=
      zeroKey }).withInputs [.regRead (at4 0x14)]) ∧
    ((idle regs).withInputs [.regRead (at4 0x14)]).nextEvent (.regRead (at4 0x14)) [] ∧ seqKey ≠ zeroKey :=
  ⟨rfl, rfl, by decide +kernel⟩

/-- An idle engine, and operands for each of the four ends of acceptance, those of the range check at its boundary. -/
theorem witness_AcceptanceLatchesTheOperands :
    (idle regs).eng.phase = .idle ∧
    (regs.compat = false ∧ ({ regs with size := 9#32 } : Regs).size.toNat % 8 ≠ 0) ∧
    (({ regs with addr := 0xFFFFFFF1#32 } : Regs).addr.toNat + 8 * ((regs.size.toNat + 7) / 8) > 2 ^ 32) ∧
    (({ regs with size := 0#32 } : Regs).size.toNat + 7) / 8 = 0 ∧
    regs.addr.toNat + 8 * ((regs.size.toNat + 7) / 8) = 2 ^ 32 := by decide +kernel

theorem witness_FailedChecksTouchNoMemory :
    (idle { regs with size := 9#32 }).eng.phase = .idle ∧ (idle { regs with size := 9#32 }).regs.compat = false ∧
    (idle { regs with size := 9#32 }).regs.size.toNat % 8 ≠ 0 ∧
    (idle { regs with addr := 0xFFFFFFF1#32 }).regs.size.toNat % 8 = 0 ∧
    (idle { regs with addr := 0xFFFFFFF1#32 }).regs.addr.toNat +
      8 * (((idle { regs with addr := 0xFFFFFFF1#32 }).regs.size.toNat + 7) / 8) > 2 ^ 32 := by decide +kernel

theorem witness_EmptyBufferCompletesAtOnce :
    (idle { regs with addr := 0xFFFFFFFF#32, size := 0#32 }).eng.phase = .idle ∧
    (idle { regs with addr := 0xFFFFFFFF#32, size := 0#32 }).regs.size = 0#32 := by decide +kernel

/-- With one round left, and with none. -/
theorem witness_BlockCommandStepByStep :
    (running .encBlock regs 1).eng.phase = .runBlock ∧ (running .encBlock regs 1).eng.lop = .encBlock ∧
    (running .encBlock regs 1).eng.rcnt = 1#32 ∧
    (running .decBlock regs 2).eng.phase = .runBlock ∧ (running .decBlock regs 2).eng.lop = .decBlock ∧
    (running .decBlock regs 2).eng.rcnt = 0#32 := by decide +kernel

theorem witness_BlockCommandsTransformTheirBlock :
    (idle regs).ready ∧ (idle regs).world.inputs = [] ∧ (idle regs).world.raced = [] ∧
    1 ≤ (idle regs).regs.rounds.toNat + 1 := ⟨⟨rfl, rfl⟩, rfl, rfl, by decide +kernel⟩

/-- Accepted, in its last step, and turned away. -/
theorem witness_BlockCommandFrame :
    (∃ t, exec .encBlock (idle regs) = .next t) ∧ (∃ t, exec .decBlock (running .decBlock regs 2) = .next t) ∧
    (∃ t, exec .encBlock (running .decBlock regs 2) = .next t) := ⟨next_exists (by decide +kernel),
      next_exists (by decide +kernel), next_exists (by decide +kernel)⟩

/-- The first byte of the buffer and the last one of the address space. -/
theorem witness_BufferReadsOneByteAStep :
    (running .encBuf regs 0).eng.phase = .bufRead ∧ (running .encBuf regs 0).eng.lop = .encBuf ∧
    (running .encBuf regs 0).eng.byteAddr = 0xFFFFFFF0 ∧ (running .encBuf regs 0).eng.beat = 0 ∧
    platformReply (running .encBuf regs 0).plat .read 0xFFFFFFF0 = .completes ∧
    (running .decBuf { regs with addr := 0xFFFFFFF8#32, size := 8#32 } 7).eng.phase = .bufRead ∧
    (running .decBuf { regs with addr := 0xFFFFFFF8#32, size := 8#32 } 7).eng.byteAddr = 2 ^ 32 - 1 ∧
    (running .decBuf { regs with addr := 0xFFFFFFF8#32, size := 8#32 } 7).eng.beat = 7 := by decide +kernel

theorem witness_BufferRoundsOneRoundAStep :
    (running .encBuf regs 9).eng.phase = .bufRounds ∧ (running .encBuf regs 9).eng.lop = .encBuf ∧
    (running .encBuf regs 9).eng.rcnt = 1#32 ∧
    (running .decBuf regs 10).eng.phase = .bufRounds ∧ (running .decBuf regs 10).eng.lop = .decBuf ∧
    (running .decBuf regs 10).eng.rcnt = 0#32 := by decide +kernel

/-- A byte before the eighth, the eighth byte of a block that has a next one,
  and the last byte of the address space. -/
theorem witness_BufferWritesOneByteAStep :
    (running .encBuf regs 11).eng.phase = .bufWrite ∧ (running .encBuf regs 11).eng.lop = .encBuf ∧
    (running .encBuf regs 11).mem.wf ∧ (running .encBuf regs 11).eng.byteAddr = 0xFFFFFFF0 ∧
    platformReply (running .encBuf regs 11).plat .write 0xFFFFFFF0 = .completes ∧
    (running .encBuf regs 18).eng.phase = .bufWrite ∧ (running .encBuf regs 18).eng.beat = 7 ∧
    (running .encBuf regs 18).eng.bidx.toNat + 1 < (running .encBuf regs 18).eng.lnb.toNat ∧
    (running .encBuf regs 37).eng.phase = .bufWrite ∧ (running .encBuf regs 37).eng.beat = 7 ∧
    (running .encBuf regs 37).eng.byteAddr = 2 ^ 32 - 1 ∧
    (running .encBuf regs 37).eng.lnb.toNat ≤ (running .encBuf regs 37).eng.bidx.toNat + 1 := by decide +kernel

/-- Every access of the buffer's first byte is a bus error. -/
def failing : List Region := [⟨0xFFFFFFF0, 0xFFFFFFF0, .busError, .busError⟩]

theorem witness_BusErrorEndsTheCommand :
    (∃ s : State, s.eng.lop = .encBuf ∧ s.mem.wf ∧ s.eng.byteAddr < 2 ^ 32 ∧ s.eng.phase = .bufRead ∧
      platformReply s.plat .read s.eng.byteAddr = .busError) ∧
    (∃ s : State, s.eng.lop = .decBuf ∧ s.mem.wf ∧ s.eng.byteAddr < 2 ^ 32 ∧ s.eng.phase = .bufWrite ∧
      platformReply s.plat .write s.eng.byteAddr = .busError) :=
  ⟨⟨under (running .encBuf regs 0) failing, by decide +kernel⟩, ⟨under (running .decBuf regs 11) failing,
    by decide +kernel⟩⟩

/-- No access of the buffer's first byte is ever answered. -/
def silent : List Region := [⟨0xFFFFFFF0, 0xFFFFFFF0, .neverAnswers, .neverAnswers⟩]

theorem witness_UnansweredAccessHangsTheEngine :
    (∃ s : State, s.Inv ∧ s.world.inputs = [] ∧ s.eng.phase = .bufRead ∧
      platformReply s.plat .read s.eng.byteAddr = .neverAnswers) ∧
    (∃ s : State, s.Inv ∧ s.world.inputs = [] ∧ s.eng.phase = .bufWrite ∧
      platformReply s.plat .write s.eng.byteAddr = .neverAnswers) :=
  ⟨⟨under (running .encBuf regs 0) silent, inv_of_holds (by decide +kernel), by decide +kernel⟩,
    ⟨under (running .encBuf regs 11) silent, inv_of_holds (by decide +kernel), by decide +kernel⟩⟩

/-- A buffer that ends at 2^32, in safe mode; and one that overruns to it, in compatibility mode. -/
theorem witness_BufferCommandsTransformTheirBlocks :
    (idle regs).ready ∧ (idle regs).world.inputs = [] ∧ (idle regs).world.raced = [] ∧ regs.size.toNat % 8 = 0 ∧
    regs.addr.toNat + 8 * ((regs.size.toNat + 7) / 8) ≤ 2 ^ 32 ∧
    memOkRange (idle regs).plat regs.addr.toNat (8 * ((regs.size.toNat + 7) / 8)) ∧
    ({ regs with compat := true, size := 9#32 } : Regs).compat = true ∧
    regs.addr.toNat + 8 * (((9#32).toNat + 7) / 8) ≤ 2 ^ 32 :=
  ⟨⟨rfl, rfl⟩, rfl, rfl, by decide +kernel, by decide +kernel, fun _ _ _ => ⟨rfl, rfl⟩, rfl, by decide +kernel⟩

theorem witness_BlocksAreTransformedIndependently :
    (filled (idle regs)).mem.wf ∧ 0xFFFFFFF0 + 8 * 2 ≤ 2 ^ 32 ∧ 1 < 2 ∧ 0xFFFFFFEF < 0xFFFFFFF0 ∧
    0xFFFFFFF0 + 8 * 2 ≤ 2 ^ 32 := by decide +kernel

theorem witness_BufferRoundTripRestoresMemory :
    (filled (idle regs)).mem.wf ∧ (filled (idle regs)).ready ∧ (filled (idle regs)).world.inputs = [] ∧
    (filled (idle regs)).world.raced = [] ∧ (filled (idle regs)).regs.size.toNat % 8 = 0 ∧
    (filled (idle regs)).regs.addr.toNat + 8 * (((filled (idle regs)).regs.size.toNat + 7) / 8) ≤ 2 ^ 32 ∧
    memOkRange (filled (idle regs)).plat (filled (idle regs)).regs.addr.toNat
      (8 * (((filled (idle regs)).regs.size.toNat + 7) / 8)) :=
  ⟨by decide +kernel, ⟨rfl, rfl⟩, rfl, rfl, by decide +kernel, by decide +kernel, fun _ _ _ => ⟨rfl, rfl⟩⟩

/-- A byte written, a bus error that sets `FAULTADDR`, and the eighth byte, which raises `PROGRESS`. -/
theorem witness_BufferCommandFrame :
    (∃ t, exec .encBuf (running .encBuf regs 11) = .next t ∧ t.regs = (running .encBuf regs 11).regs) ∧
    (∃ t, exec .encBuf (under (running .encBuf regs 0) failing) = .next t ∧
      t.regs.faultAddr ≠ (running .encBuf regs 0).regs.faultAddr) ∧
    (∃ t, exec .encBuf (running .encBuf regs 18) = .next t ∧
      t.regs.progress ≠ (running .encBuf regs 18).regs.progress) :=
  ⟨next_of (by decide +kernel), next_of (by decide +kernel), next_of (by decide +kernel)⟩

theorem witness_BusyEngineTurnsOtherCommandsAway :
    (running .encBuf regs 3).eng.phase ≠ .idle ∧ (running .encBuf regs 3).eng.lop ≠ .decBuf := by decide +kernel

/-- A state that no run reaches: `ENC_BLOCK` in `BUF_READ`, and a byte address of 2^32. -/
theorem witness_MisfitStatesFault :
    phaseOfCommand .bufRead .encBlock = false ∧ phaseOfCommand .runBlock .encBuf = false ∧
    ({ Engine.reset with lop := .encBuf, phase := .bufRead, lbase := 0xFFFFFFF8#32, bidx :=
      1#30 } : Engine).byteAddr =
      2 ^ 32 := by decide +kernel

theorem witness_StepRunsTheDecodedCommand :
    ∃ s : State, s.ready ∧ decode 3#32 = .ok .encBuf ∧
      s.nextEvent (.regWrite (regAccess s.plat.regBase .cmd) 3#32) [] :=
  ⟨(idle regs).withInputs [.regWrite (at4 0xC) 3#32], ⟨rfl, rfl⟩, rfl, rfl⟩

theorem witness_EngineTurnRunsTheCommandInFlight :
    (∃ s : State, s.world.resetLine = false ∧ s.eng.phase ≠ .idle ∧ s.world.inputs = [] ∧
      ∃ t, exec s.eng.lop s = .next t) ∧
    (∃ s : State, s.world.resetLine = false ∧ s.eng.phase ≠ .idle ∧ s.nextEvent .engine [] ∧
      ∃ t, exec s.eng.lop { s with world := { s.world with inputs := [] } } = .next t) ∧
    ((idle regs).eng.phase = .idle ∧ (idle regs).world.inputs = []) ∧
    (held.world.resetLine = true ∧ (held.withInputs [.engine]).nextEvent .engine []) :=
  ⟨⟨running .encBuf regs 11, by decide +kernel, by decide +kernel, by decide +kernel,
      next_exists (by decide +kernel)⟩,
    ⟨(running .encBuf regs 11).withInputs [.engine], by decide +kernel, by decide +kernel, rfl,
      next_exists (by decide +kernel)⟩,
    ⟨rfl, rfl⟩, ⟨by decide +kernel, rfl⟩⟩

/-- The invariants in every phase, each with a next state. -/
theorem witness_StepKeepsInvariant :
    (idle regs).Inv ∧ (running .encBlock regs 1).Inv ∧ (running .encBuf regs 5).Inv ∧ (running .decBuf regs 9).Inv ∧
    (running .encBuf regs 37).Inv ∧ held.Inv ∧ (∃ t, step (running .encBuf regs 37) = .next t) :=
  ⟨inv_of_holds (by decide +kernel), inv_of_holds (by decide +kernel), inv_of_holds (by decide +kernel),
    inv_of_holds (by decide +kernel),
    inv_of_holds (by decide +kernel), inv_of_holds (by decide +kernel), next_exists (by decide +kernel)⟩

theorem witness_MachineNeverStops : ((running .encBuf regs 37).withInputs [.regWrite (at4 0xC) 1#32]).Inv :=
  inv_of_holds (by decide +kernel)

theorem witness_StepKeepsDatapathInvariant :
    (running .encBlock regs 1).DatapathInv ∧ (running .decBuf regs 9).DatapathInv ∧
    (running .encBuf regs 37).DatapathInv ∧ (running .encBuf regs 37).Inv ∧
    (∃ t, step (running .encBuf regs 37) = .next t) :=
  ⟨datapath_of_holds (by decide +kernel), datapath_of_holds (by decide +kernel),
    datapath_of_holds (by decide +kernel),
    inv_of_holds (by decide +kernel), next_exists (by decide +kernel)⟩

theorem witness_BlockResultAtEveryInterleaving :
    (running .decBlock regs 2).Inv ∧ (running .decBlock regs 2).DatapathInv ∧
    (running .decBlock regs 2).eng.phase = .runBlock ∧
    (∃ t, step (running .decBlock regs 2) = .next t ∧ t.eng.phase = .idle) :=
  ⟨inv_of_holds (by decide +kernel), datapath_of_holds (by decide +kernel), by decide +kernel,
    next_of (by decide +kernel)⟩

theorem witness_BusyAndDoneNeverTogether :
    (idle regs).Inv ∧ ((idle regs).withInputs [.regWrite (at4 0xC) 1#32]).Inv ∧
    (∃ t, Host.Core.run Sys2Proof.core 2 ((idle regs).withInputs [.regWrite (at4 0xC) 1#32]) = .next t ∧
      t.busy = true) :=
  ⟨inv_of_holds (by decide +kernel), inv_of_holds (by decide +kernel), next_of (by decide +kernel)⟩

theorem witness_ConfigurationNeverChanges :
    (∃ t, step (idle regs) = .next t) ∧ (∀ rs es, ¬ (idle regs).nextEvent (.platformRegions rs) es) :=
  ⟨next_exists (by decide +kernel), fun _ _ h => by cases h⟩

theorem witness_OnlyTheHostWritesKeys :
    ∃ t, step ((idle regs).withInputs [.regWrite (at4 0x20) 7#32]) = .next t ∧
      t.regs.key ≠ ((idle regs).withInputs [.regWrite (at4 0x20) 7#32]).regs.key := next_of (by decide +kernel)

/-- A write dropped at the first and at the last operand register; a step that sets `WIGN`; one that clears it. -/
theorem witness_IgnoredWriteFlagIsSticky :
    (∃ s : State, s.busy = true ∧ s.world.resetLine = false ∧
      s.nextEvent (.regWrite (regAccess s.plat.regBase .ctrl) 0#32) []) ∧
    (∃ s : State, s.busy = true ∧ s.world.resetLine = false ∧ s.regs.wign = false ∧
      s.nextEvent (.regWrite (regAccess s.plat.regBase .size) 0#32) [] ∧
      ∃ t, step s = .next t ∧ t.regs.wign = true) ∧
    (∃ s : State, s.regs.wign = true ∧ ∃ t, step s = .next t ∧ t.regs.wign = false) :=
  ⟨⟨(running .encBuf regs 3).withInputs [.regWrite (at4 0x04) 0#32], by decide +kernel, by decide +kernel,
    by decide +kernel⟩,
    ⟨(running .encBuf regs 3).withInputs [.regWrite (at4 0x30) 0#32], by decide +kernel, by decide +kernel,
      by decide +kernel, by decide +kernel, next_of (by decide +kernel)⟩,
    ⟨(idle { regs with wign := true }).withInputs [.regWrite (at4 0x08) 4#32], rfl, next_of (by decide +kernel)⟩⟩

/-- A bus error on a read, and a reset that finds an address in `FAULTADDR`. -/
theorem witness_FaultAddressChangesOnlyOnBusErrors :
    (under (running .encBuf regs 0) failing).Inv ∧ (under (running .encBuf regs 0) failing).eng.phase ≠ .idle ∧
    (∃ t, step (under (running .encBuf regs 0) failing) = .next t ∧ t.eng.phase = .idle ∧ t.regs.err = .busError ∧
      t.regs.faultAddr ≠ (under (running .encBuf regs 0) failing).regs.faultAddr) ∧
    ((idle { regs with faultAddr := 9#32 }).withInputs [.resetAssert]).Inv ∧
    (∃ t, step ((idle { regs with faultAddr := 9#32 }).withInputs [.resetAssert]) = .next t ∧
      t.regs.faultAddr ≠ 9#32) :=
  ⟨inv_of_holds (by decide +kernel), by decide +kernel, next_of (by decide +kernel),
    inv_of_holds (by decide +kernel), next_of (by decide +kernel)⟩

theorem witness_ErrorCodeStaysUntilTheNextCommand :
    ((idle regs).withInputs [.regWrite (at4 0xC) 0#32]).eng.phase = .idle ∧
    (∃ t, step ((idle regs).withInputs [.regWrite (at4 0xC) 0#32]) = .next t ∧
      t.regs.err ≠ ((idle regs).withInputs [.regWrite (at4 0xC) 0#32]).regs.err) := ⟨rfl, next_of (by decide +kernel)⟩

theorem witness_EveryCommandEnds :
    (running .encBuf regs 0).Inv ∧ (running .encBuf regs 0).world.inputs = [] ∧
    (running .encBuf regs 0).eng.phase ≠ .idle ∧ alwaysAnswers (running .encBuf regs 0).plat ∧
    (running .encBlock regs 0).Inv ∧ (running .encBlock regs 0).eng.phase = .runBlock :=
  ⟨inv_of_holds (by decide +kernel), by decide +kernel, by decide +kernel,
    by
      rw [show (running .encBuf regs 0).plat = Config.defaultPlatform by decide +kernel]
      exact fun _ _ h => (nomatch h),
    inv_of_holds (by decide +kernel), by decide +kernel⟩

/-- The last byte of a command's range, and the byte before the first. -/
theorem witness_RacingReadsAreFree :
    (∃ s : State, s.nextEvent (.memRead 0xFFFFFFFF#32) [] ∧ ∃ w ∈ s.world.windows,
      w.base ≤ (0xFFFFFFFF#32).toNat ∧ (0xFFFFFFFF#32).toNat < w.base + 8 * w.blocks) ∧
    (∃ s : State, s.nextEvent (.memRead 0xFFFFFFEF#32) [] ∧ s.world.windows ≠ [] ∧ ∀ w ∈ s.world.windows,
      (0xFFFFFFEF#32).toNat < w.base ∨ w.base + 8 * w.blocks ≤ (0xFFFFFFEF#32).toNat) :=
  ⟨⟨(running .encBuf regs 3).withInputs [.memRead 0xFFFFFFFF#32], rfl, by decide +kernel⟩,
    ⟨(running .encBuf regs 3).withInputs [.memRead 0xFFFFFFEF#32], rfl, by decide +kernel, by decide +kernel⟩⟩

theorem witness_HostMemoryWritesReachTheirByte :
    (∃ s : State, s.mem.wf ∧ s.nextEvent (.memWrite 0xFFFFFFEF#32 1#8) [] ∧ s.world.windows ≠ [] ∧
      ∀ w ∈ s.world.windows,
        (0xFFFFFFEF#32).toNat < w.base ∨ w.base + 8 * w.blocks ≤ (0xFFFFFFEF#32).toNat) ∧
    (∃ s : State, s.mem.wf ∧ s.nextEvent (.memWrite 0xFFFFFFF0#32 1#8) [] ∧ s.world.windows ≠ [] ∧
      ∀ w ∈ s.world.windows, w.base ≤ (0xFFFFFFF0#32).toNat → (0xFFFFFFF0#32).toNat < w.base + 8 * w.blocks →
        0xFFFFFFF8 < w.base ∨ (0xFFFFFFF8 - w.base) / 8 ≠ ((0xFFFFFFF0#32).toNat - w.base) / 8) :=
  ⟨⟨(running .encBuf regs 3).withInputs [.memWrite 0xFFFFFFEF#32 1#8], by decide +kernel, rfl, by decide +kernel,
    by decide +kernel⟩,
    ⟨(running .encBuf regs 3).withInputs [.memWrite 0xFFFFFFF0#32 1#8], by decide +kernel, rfl, by decide +kernel,
      by decide +kernel⟩⟩

theorem witness_ObservingTheEndPublishesMemory :
    (∃ s : State, s.world.resetLine = false ∧ s.eng.phase = .idle ∧ s.world.windows ≠ [] ∧
      s.nextEvent (.regRead (regAccess s.plat.regBase .status)) [.memRead 0xFFFFFFF0#32]) ∧
    (∃ s : State, s.world.resetLine = false ∧ s.irq = true ∧ s.world.windows ≠ [] ∧
      s.nextEvent .irqSample [.memRead 0xFFFFFFF0#32]) :=
  ⟨⟨(running .encBuf regs 38).withInputs [.regRead (at4 0x08), .memRead 0xFFFFFFF0#32], by decide +kernel,
    by decide +kernel, by decide +kernel, by decide +kernel⟩,
    ⟨(running .encBuf regs 38).withInputs [.irqSample, .memRead 0xFFFFFFF0#32], by decide +kernel, by decide +kernel,
      by decide +kernel, rfl⟩⟩

theorem witness_KeyBytesPackIntoKeyWords : (List.replicate 15 0#8).length ≠ 16 ∧ ([] : List Byte).length ≠ 16 := by
  decide +kernel

/-! ### Host programs (R85, R86) -/

/-- The host's run of these lines on this machine. -/
def hostAt (ops : List HostOp) (s : State) : HostRun := ⟨ops, [], s⟩

/-- The lines that are left after one turn of the host. -/
def linesLeft (h : HostRun) : List HostOp :=
  match hostTurn h with
  | .next k => k.todo
  | .fault _ => []
  | .refused _ => []

/-- `WAIT_DONE` stays while the command runs and is over once `DONE` reads 1 (R85). -/
theorem test_wait_done : linesLeft (hostAt [.waitDone, .rd .v0] (running .encBlock regs 1)) = [.waitDone, .rd .v0] ∧
    linesLeft (hostAt [.waitDone, .rd .v0] (running .encBlock regs 3)) = [.rd .v0] := by decide +kernel

/-- The expansion of `DECIPHER` with `R` left out, as R86 writes it. -/
theorem test_decipher_program : decipherProgram ⟨1#32, 2#32⟩ seqKey =
    [.wr .key0 0x00010203#32, .wr .key1 0x04050607#32, .wr .key2 0x08090A0B#32, .wr .key3 0x0C0D0E0F#32,
      .wr .rounds 32#32, .wr .v0 1#32, .wr .v1 2#32, .wr .cmd 2#32, .waitDone, .rd .v0, .rd .v1, .wr .status 2#32] :=
        rfl

/-- Program P2's key bytes and operands, and a key of 15 bytes (R86, R212). -/
theorem test_encrypt_program :
    encryptProgram .le 0x2000#32 0x10#32 ((List.range 16).map (BitVec.ofNat 8)) = .ok
      [.wr .key0 0x03020100#32, .wr .key1 0x07060504#32, .wr .key2 0x0B0A0908#32, .wr .key3 0x0F0E0D0C#32,
        .wr .rounds 32#32, .wr .addr 0x2000#32, .wr .size 0x10#32, .wr .cmd 3#32, .waitDone, .rd .status,
        .wr .status 2#32] ∧
    encryptProgram .le 0x2000#32 0x10#32 (List.replicate 15 0#8) = .error .invalidKeyLength := ⟨rfl, rfl⟩

/-- Each kind of line, on a machine that meets its hypotheses: busy and at its end, and idle. -/
theorem witness_HostTurnsFollowTheProgram :
    (hostAt [.waitDone] (running .encBlock regs 1)).todo = .waitDone :: [] ∧
    (hostAt [.waitDone] (running .encBlock regs 1)).machine.world.resetLine = false ∧
    (hostAt [.waitDone] (running .encBlock regs 1)).machine.regs.done = false ∧
    (hostAt [.waitDone] (running .encBlock regs 3)).machine.world.resetLine = false ∧
    (hostAt [.waitDone] (running .encBlock regs 3)).machine.regs.done = true ∧
    (hostAt [.rd .faultAddr] (running .encBuf regs 3)).todo = .rd .faultAddr :: [] ∧
    (hostAt [.rd .faultAddr] (running .encBuf regs 3)).machine.world.resetLine = false ∧
    (hostAt [.wr .cmd 4#32] (idle regs)).todo = .wr .cmd 4#32 :: [] ∧
    (hostAt [.wr .cmd 4#32] (idle regs)).machine.Inv ∧
    (hostAt [.wr .cmd 4#32] held).machine.Inv ∧ (hostAt [.wr .cmd 4#32] held).machine.world.resetLine = true ∧
    (hostAt [.memRead 0xFFFFFFFF#32] (idle regs)).todo = .memRead 0xFFFFFFFF#32 :: [] ∧
    (hostAt [.memWrite 0#32 1#8] (idle regs)).todo = .memWrite 0#32 1#8 :: [] :=
  ⟨rfl, by decide +kernel, by decide +kernel, by decide +kernel, by decide +kernel, rfl, by decide +kernel, rfl,
    inv_of_holds (by decide +kernel), inv_of_holds (by decide +kernel), by decide +kernel, rfl, rfl⟩

/-- A step that opens a range, and steps that end it: a read of `STATUS`, the interrupt seen, reset. -/
theorem witness_ExclusiveAccessLastsUntilObserved :
    (∃ t, step ((idle regs).withInputs [.regWrite (at4 0x0C) 3#32]) = .next t ∧
      t.world.windows = [⟨0xFFFFFFF0, 2⟩] ∧ (idle regs).world.windows = []) ∧
    (running .encBuf regs 38).world.windows ≠ [] ∧ (running .encBuf regs 3).world.windows ≠ [] ∧
    (∃ t, step ((running .encBuf regs 38).withInputs [.regRead (at4 0x08)]) = .next t ∧ t.world.windows = []) ∧
    (∃ t, step ((running .encBuf regs 38).withInputs [.irqSample]) = .next t ∧ t.world.windows = []) ∧
    (∃ t, step ((running .encBuf regs 3).withInputs [.resetAssert]) = .next t ∧ t.world.windows = []) :=
  ⟨next_of (by decide +kernel), by decide +kernel, by decide +kernel, next_of (by decide +kernel),
    next_of (by decide +kernel), next_of (by decide +kernel)⟩

end Sys2Proof.Tests
end

section
/-! Words and their four bytes (R8). A word is read off as a number: `load32` as the weighted sum of its bytes, a byte of
`store32` as a digit of the word in base `2 ^ 8`. Big endian is little endian with the bytes in reverse. -/

namespace Sys2Proof.Machine

theorem load32_be (b0 b1 b2 b3 : Byte) : load32 .be b0 b1 b2 b3 = load32 .le b3 b2 b1 b0 := rfl

theorem store32_be (w : Word) (j : Nat) : store32 .be w j = store32 .le w (3 - j) := rfl

/-- Appending a word above `b` puts `b` at the weight-1 end. -/
theorem toNat_append_byte {n : Nat} (x : BitVec n) (b : Byte) : (x ++ b).toNat = 2 ^ 8 * x.toNat + b.toNat := by
  rw [BitVec.toNat_append, Nat.shiftLeft_eq, Nat.mul_comm, Nat.two_pow_add_eq_or_of_lt b.isLt]

theorem toNat_load32_le (b0 b1 b2 b3 : Byte) :
    (load32 .le b0 b1 b2 b3).toNat = b0.toNat + 2 ^ 8 * b1.toNat + 2 ^ 16 * b2.toNat + 2 ^ 24 * b3.toNat := by
  simp only [load32, toNat_append_byte]
  omega

theorem toNat_store32_le (w : Word) (j : Nat) : (store32 .le w j).toNat = w.toNat / 2 ^ (8 * j) % 2 ^ 8 := by
  simp only [store32, BitVec.extractLsb'_toNat, Nat.shiftRight_eq_div_pow]

theorem load32_store32_le (w : Word) :
    load32 .le (store32 .le w 0) (store32 .le w 1) (store32 .le w 2) (store32 .le w 3) = w := by
  apply BitVec.eq_of_toNat_eq
  have hw := w.isLt
  simp only [toNat_load32_le, toNat_store32_le]
  omega

/-- Each digit of the weighted sum is the byte that was put there. -/
theorem store32_load32_le (b0 b1 b2 b3 : Byte) :
    store32 .le (load32 .le b0 b1 b2 b3) 0 = b0 ∧ store32 .le (load32 .le b0 b1 b2 b3) 1 = b1 ∧
    store32 .le (load32 .le b0 b1 b2 b3) 2 = b2 ∧ store32 .le (load32 .le b0 b1 b2 b3) 3 = b3 := by
  have h0 := b0.isLt
  have h1 := b1.isLt
  have h2 := b2.isLt
  have h3 := b3.isLt
  refine ⟨?_, ?_, ?_, ?_⟩ <;> apply BitVec.eq_of_toNat_eq <;> rw [toNat_store32_le, toNat_load32_le] <;> omega

/-- `load32` after `store32`, in either byte order. -/
theorem load32_store32 (o : ByteOrder) (w : Word) :
    load32 o (store32 o w 0) (store32 o w 1) (store32 o w 2) (store32 o w 3) = w := by
  cases o with
  | le => exact load32_store32_le w
  | be => simpa only [load32_be, store32_be] using load32_store32_le w

/-- `store32` after `load32`, in either byte order. -/
theorem store32_load32 (o : ByteOrder) (b0 b1 b2 b3 : Byte) :
    store32 o (load32 o b0 b1 b2 b3) 0 = b0 ∧ store32 o (load32 o b0 b1 b2 b3) 1 = b1 ∧
    store32 o (load32 o b0 b1 b2 b3) 2 = b2 ∧ store32 o (load32 o b0 b1 b2 b3) 3 = b3 := by
  cases o with
  | le => exact store32_load32_le b0 b1 b2 b3
  | be =>
    obtain ⟨h3, h2, h1, h0⟩ := store32_load32_le b3 b2 b1 b0
    exact ⟨h0, h1, h2, h3⟩

/-- Settles O8: the sum is the little-endian one read in the order of the bytes; each inverse is
proved of little endian by digits in base `2 ^ 8`. -/
theorem loadAndStoreAreInverse : Obligations.LoadAndStoreAreInverse := by
  unfold Obligations.LoadAndStoreAreInverse
  exact ⟨fun b0 b1 b2 b3 => ⟨toNat_load32_le b0 b1 b2 b3, toNat_load32_le b3 b2 b1 b0⟩,
    load32_store32, store32_load32⟩

end Sys2Proof.Machine
end

section
/-! A bus error on a byte access of `ENC_BUF` or `DEC_BUF` (R67, R204): the step in flight as one equation for each kind of
access; what it does to each byte then comes from `halfWrite_read`. -/

namespace Sys2Proof.Machine

/-- The turn of a buffer command that is in flight (R145). -/
theorem exec_buffer_inFlight {i : Instr} (hi : i = .encBuf ∨ i = .decBuf) {s : State} (hl : s.eng.lop = i)
    (hp : s.eng.phase ≠ .idle) : exec i s = advanceBuffer (directionOf i) s :=
  (exec_buffer hi s).trans (withEngine_inFlight hp hl)

/-- A byte read that fails ends the command and does nothing else (R67). -/
theorem exec_buffer_readBusError {i : Instr} (hi : i = .encBuf ∨ i = .decBuf) {s : State} (hl : s.eng.lop = i)
    (ha : s.eng.byteAddr < 2 ^ 32) (hp : s.eng.phase = .bufRead)
    (hr : platformReply s.plat .read s.eng.byteAddr = .busError) :
    exec i s = .next (s.raiseBusError s.eng.byteAddr) := by
  rw [exec_buffer_inFlight hi hl (by simp [hp]), advanceBuffer_bufRead hp, memAccess_busError ha hr]

/-- A byte write that fails leaves its byte to a free draw and ends the command (R67). -/
theorem exec_buffer_writeBusError {i : Instr} (hi : i = .encBuf ∨ i = .decBuf) {s : State} (hl : s.eng.lop = i)
    (ha : s.eng.byteAddr < 2 ^ 32) (hp : s.eng.phase = .bufWrite)
    (hr : platformReply s.plat .write s.eng.byteAddr = .busError) :
    exec i s = .next ((s.halfWrite s.eng.byteAddr (outByte s)).raiseBusError s.eng.byteAddr) := by
  rw [exec_buffer_inFlight hi hl (by simp [hp]), advanceBuffer_bufWrite hp, memAccess_busError ha hr]

/-- Settles O29: `raiseBusError` gives the end of the command, `halfWrite` the two values a failed write may leave. -/
theorem busErrorEndsTheCommand : Obligations.BusErrorEndsTheCommand := by
  unfold Obligations.BusErrorEndsTheCommand
  intro s i hi hl hm ha
  have hbyte (x : Nat) := halfWrite_read hm s.eng.byteAddr x (outByte s)
  constructor
  · intro hp hr
    exact ⟨_, exec_buffer_readBusError hi hl ha hp hr, rfl, rfl, rfl⟩
  · intro hp hr
    refine ⟨_, exec_buffer_writeBusError hi hl ha hp hr, rfl, rfl, fun x hx => ?other, ?own⟩
    case other => exact (hbyte x).resolve_right fun h => hx h.1
    case own => exact (hbyte s.eng.byteAddr).imp_right And.right

end Sys2Proof.Machine
end

section
/-! The command words (R80 to R83): a word is its two fields, the decoder accepts the fields of the four encoded words
and no others, so decoding and encoding are inverse to each other. -/

namespace Sys2Proof

/-- The two fields of `CMD32` make up the whole word (R80). -/
theorem mbzField_append_opField (w : Word) : mbzField w ++ opField w = w := by
  unfold mbzField opField
  exact (BitVec.extractLsb'_append_extractLsb'_eq_extractLsb' rfl).trans BitVec.extractLsb'_eq_self

theorem word_eq_iff_fields {w v : Word} : w = v ↔ mbzField w = mbzField v ∧ opField w = opField v := by
  refine ⟨fun h => h ▸ ⟨rfl, rfl⟩, fun ⟨hmbz, hop⟩ => ?_⟩
  calc w = mbzField w ++ opField w := (mbzField_append_opField w).symm
    _ = mbzField v ++ opField v := by rw [hmbz, hop]
    _ = v := mbzField_append_opField v

/-- No command sets a bit of MBZ (R81). -/
@[simp] theorem mbzField_encode (i : Instr) : mbzField (encode i) = 0 := by cases i <;> rfl

theorem decode_encode (i : Instr) : decode (encode i) = .ok i := by
  cases i with
  | encBlock => exact Laws.WellFormedRoundTrip.encBlock.2
  | decBlock => exact Laws.WellFormedRoundTrip.decBlock.2
  | encBuf => exact Laws.WellFormedRoundTrip.encBuf.2
  | decBuf => exact Laws.WellFormedRoundTrip.decBuf.2

theorem decode_eq_ok_iff {w : Word} {i : Instr} :
    decode w = .ok i ↔ mbzField w = 0 ∧ decodeOp (opField w) = .ok i := by
  unfold decode
  split
  next h => exact ⟨fun hop => ⟨h, hop⟩, And.right⟩
  next h => exact ⟨nofun, fun ⟨hmbz, _⟩ => absurd hmbz h⟩

/-- Each command has one operation code: of the 16 values of OP, only its own decodes to it (R81). -/
theorem opField_encode_of_decodeOp {op : BitVec 4} {i : Instr} (h : decodeOp op = .ok i) : opField (encode i) = op := by
  unfold decodeOp at h
  split at h
  case h_5 => cases h
  all_goals
    next hop =>
      cases h
      exact BitVec.eq_of_toNat_eq hop.symm

theorem decode_eq_ok_iff_eq_encode {w : Word} {i : Instr} : decode w = .ok i ↔ w = encode i := by
  constructor
  · intro h
    obtain ⟨hmbz, hop⟩ := decode_eq_ok_iff.mp h
    exact word_eq_iff_fields.mpr ⟨hmbz.trans (mbzField_encode i).symm, (opField_encode_of_decodeOp hop).symm⟩
  · rintro rfl
    exact decode_encode i

/-- A word is illegal exactly when it is no command's word (R82, R83): an outcome of the decoder is a command or an
error, never both. -/
theorem exists_decode_eq_error_iff {w : Word} : (∃ e, decode w = .error e) ↔ ∀ i, w ≠ encode i := by
  simp only [ne_eq, ← decode_eq_ok_iff_eq_encode]
  cases decode w with
  | ok i => simp
  | error e => simp

/-- Settles O1: a decoded word has the fields of its command's word, and these are the whole word. -/
theorem decodeAndEncodeAgree : Obligations.DecodeAndEncodeAgree := by
  unfold Obligations.DecodeAndEncodeAgree
  exact ⟨fun _ _ => decode_eq_ok_iff_eq_encode, rfl, rfl, rfl, rfl, fun _ => exists_decode_eq_error_iff⟩

end Sys2Proof
end

section
/-! The Block Transform (R110 to R119). Each round of one direction is undone by the round of the other with the same
`sum`: a half round adds to one word a term that does not read that word. A run then undoes the other direction's run,
because it starts from the `sum` that the other ends with. -/

namespace Sys2Proof.Machine

/-- The direction whose rounds undo those of `d`. -/
def Direction.reverse : Direction → Direction
  | .encipher => .decipher
  | .decipher => .encipher

theorem mixRound_reverse (c : CipherStructure) (d : Direction) (k : Key) (m : Mix) :
    mixRound c d.reverse k (mixRound c d k m) = m := by
  cases c with
  | tea => cases d with
    | encipher => simp only [Direction.reverse, mixRound, teaEncRound, teaDecRound, BitVec.add_sub_cancel]
    | decipher => simp only [Direction.reverse, mixRound, teaEncRound, teaDecRound, BitVec.sub_add_cancel]
  | xtea => cases d with
    | encipher => simp only [Direction.reverse, mixRound, xteaEncRound, xteaDecRound, BitVec.add_sub_cancel]
    | decipher => simp only [Direction.reverse, mixRound, xteaEncRound, xteaDecRound, BitVec.sub_add_cancel]

theorem repeatRounds_eq_iterate (f : Mix → Mix) (n : Nat) : repeatRounds f n = f^[n] := by
  induction n with
  | zero => rfl
  | succ n ih => funext m; exact congrFun ih (f m)

theorem repeatRounds_reverse (c : CipherStructure) (d : Direction) (k : Key) (n : Nat) (m : Mix) :
    repeatRounds (mixRound c d.reverse k) n (repeatRounds (mixRound c d k) n m) = m := by
  simp only [repeatRounds_eq_iterate]
  exact Function.LeftInverse.iterate (mixRound_reverse c d k) n m

/-- What one round adds to `sum` (R110, R111, R116, R117). -/
def Direction.sumStep : Direction → Word
  | .encipher => delta
  | .decipher => -delta

theorem mixRound_sum (c : CipherStructure) (d : Direction) (k : Key) (m : Mix) :
    (mixRound c d k m).sum = m.sum + d.sumStep := by
  cases d with
  | encipher => cases c <;> rfl
  | decipher => cases c <;> exact BitVec.sub_eq_add_neg m.sum delta

theorem repeatRounds_sum (c : CipherStructure) (d : Direction) (k : Key) (n : Nat) (m : Mix) :
    (repeatRounds (mixRound c d k) n m).sum = m.sum + n • d.sumStep := by
  induction n generalizing m with
  | zero => simp [repeatRounds]
  | succ n ih => rw [repeatRounds, ih, mixRound_sum, succ_nsmul', add_assoc]

theorem startSum_add_steps (d : Direction) (r : Word) :
    startSum d r + r.toNat • d.sumStep = startSum d.reverse r := by
  have hmul (x : Word) : r.toNat • x = r * x := by
    rw [nsmul_eq_mul, BitVec.natCast_eq_ofNat, BitVec.ofNat_toNat, BitVec.setWidth_eq]
  rw [hmul]
  cases d with
  | encipher => exact BitVec.zero_add _
  | decipher => exact (congrArg (r * delta + ·) (mul_neg r delta)).trans (add_neg_cancel _)

/-- A run ends with the `sum` the other direction starts from (R119). -/
theorem runRounds_sum (c : CipherStructure) (d : Direction) (b : Block) (k : Key) (r : Word) :
    (runRounds c d b k r).sum = startSum d.reverse r :=
  (repeatRounds_sum c d k r.toNat _).trans (startSum_add_steps d r)

theorem transform_reverse (c : CipherStructure) (d : Direction) (b : Block) (k : Key) (r : Word) :
    transform c d.reverse (transform c d b k r) k r = b := by
  have hrun : runRounds c d.reverse (transform c d b k r) k r = ⟨b.v0, b.v1, startSum d r⟩ := by
    have hstart : (⟨(transform c d b k r).v0, (transform c d b k r).v1, startSum d.reverse r⟩ : Mix) =
        runRounds c d b k r := by rw [← runRounds_sum c d b k r]; rfl
    rw [runRounds, hstart]
    exact repeatRounds_reverse c d k r.toNat _
  rw [transform, hrun]

/-- Settles O6: `transform_reverse` in each direction. -/
theorem decipherInvertsEncipher : Obligations.DecipherInvertsEncipher := by
  unfold Obligations.DecipherInvertsEncipher
  exact fun c b k r => ⟨transform_reverse c .encipher b k r, transform_reverse c .decipher b k r⟩

/-- A host's read sees the build, the registers of the register map and whether a command runs, nothing else (R183). -/
theorem readReg_congr {s t : State} (hbuild : t.build = s.build) (hregs : t.regs = s.regs) (hbusy : t.busy = s.busy)
    (r : Reg) : readReg r t = readReg r s := by
  cases r with
  | id => exact congrArg idWord hbuild
  | status => simp only [readReg, statusWord, hregs, hbusy]
  | _ => simp only [readReg, hregs]

/-- Settles O7: both directions end where the other starts, and `SUM` is none of what a read sees. -/
theorem sumBookkeeping : Obligations.SumBookkeeping := by
  unfold Obligations.SumBookkeeping
  exact ⟨fun c b k r => ⟨runRounds_sum c .encipher b k r, runRounds_sum c .decipher b k r⟩,
    fun r _ _ => readReg_congr rfl rfl rfl r⟩

/-- With no rounds the run ends where it starts. -/
theorem runRounds_zero (c : CipherStructure) (d : Direction) (b : Block) (k : Key) :
    runRounds c d b k 0#32 = ⟨b.v0, b.v1, startSum d 0#32⟩ := rfl

/-- Settles O5, by `runRounds_zero`. -/
theorem zeroRoundsAreTheIdentity : Obligations.ZeroRoundsAreTheIdentity := by
  unfold Obligations.ZeroRoundsAreTheIdentity
  intro c d b k
  rw [transform, runRounds_zero]

end Sys2Proof.Machine
end

section
/-! Acceptance of `ENC_BUF` and `DEC_BUF` (R141 to R144, R200): of the four ends of `startBuffer_cases`, the two of a command
that passes its checks. -/

namespace Sys2Proof.Machine

/-- Acceptance of a buffer command on an idle engine (R200). -/
theorem exec_buffer_idle {i : Instr} (hi : i = .encBuf ∨ i = .decBuf) {s : State} (hp : s.eng.phase = .idle) :
    exec i s = .next (startBuffer i s) :=
  (exec_buffer hi s).trans (withEngine_idle hp)

/-- Both checks passed, no block to do (R144). -/
theorem startBuffer_empty (i : Instr) {s : State} (hok : s.regs.bufferOk) (hn : blockCount s.regs.size = 0) :
    startBuffer i s = (acceptBuffer i s).complete := by
  rcases startBuffer_cases i s with ⟨hm, -⟩ | ⟨-, hr, -⟩ | ⟨-, -, h⟩ | ⟨-, h0, -⟩
  · simp [hok.1] at hm
  · simp [hok.2] at hr
  · exact h
  · exact absurd hn h0

/-- Both checks passed, some block to do (R145). -/
theorem startBuffer_iterates (i : Instr) {s : State} (hok : s.regs.bufferOk) (hn : blockCount s.regs.size ≠ 0) :
    startBuffer i s = startIteration (acceptBuffer i s) := by
  rcases startBuffer_cases i s with ⟨hm, -⟩ | ⟨-, hr, -⟩ | ⟨-, h0, -⟩ | ⟨-, -, h⟩
  · simp [hok.1] at hm
  · simp [hok.2] at hr
  · exact absurd h0 hn
  · exact h

/-- No bytes are a whole number of blocks, and their range ends where it begins: at most at the last address. -/
theorem bufferOk_of_size_zero {r : Regs} (h : r.size = 0#32) : r.bufferOk := by
  refine ⟨misaligned_eq_false.mpr (.inr (by simp [h])), outOfRange_eq_false.mpr ?_⟩
  rw [(blockCount_pos_iff r.size).mpr h, Nat.mul_zero, Nat.add_zero]
  exact r.addr.isLt.le

/-- Settles O22: size 0 passes both checks at every `ADDR` and in both modes, and leaves no block to do. -/
theorem emptyBufferCompletesAtOnce : Obligations.EmptyBufferCompletesAtOnce := by
  unfold Obligations.EmptyBufferCompletesAtOnce
  intro s i hp hi hsize
  have hstart : startBuffer i s = (acceptBuffer i s).complete :=
    startBuffer_empty i (bufferOk_of_size_zero hsize) ((blockCount_pos_iff s.regs.size).mpr hsize)
  exact ⟨_, (exec_buffer_idle hi hp).trans (congrArg _ hstart), rfl, State.not_busy_iff.mpr rfl, rfl, rfl⟩

end Sys2Proof.Machine
end

section
/-! Blocks in memory (R64, R145, R146, R152): a block in memory is its eight bytes and the other way round, so transforming
blocks in place is undone by the other direction. -/

namespace Sys2Proof.Machine

/-- `blockByte` of the block in memory is the byte in memory. -/
theorem blockByte_blockAt (o : ByteOrder) (m : Memory) (a : Nat) {j : Nat} (hj : j < 8) :
    blockByte o (blockAt o m a) j = m.read (a + j) := by
  obtain ⟨h0, h1, h2, h3⟩ := store32_load32 o (m.read a) (m.read (a + 1)) (m.read (a + 2)) (m.read (a + 3))
  obtain ⟨h4, h5, h6, h7⟩ := store32_load32 o (m.read (a + 4)) (m.read (a + 5)) (m.read (a + 6)) (m.read (a + 7))
  match j, hj with
  | 0, _ => exact h0
  | 1, _ => exact h1
  | 2, _ => exact h2
  | 3, _ => exact h3
  | 4, _ => exact h4
  | 5, _ => exact h5
  | 6, _ => exact h6
  | 7, _ => exact h7

/-- Memory that holds the bytes of `b` holds `b`. -/
theorem blockAt_eq_of_bytes {o : ByteOrder} {m : Memory} {a : Nat} {b : Block}
    (h : ∀ j, j < 8 → m.read (a + j) = blockByte o b j) : blockAt o m a = b := by
  have h0 : m.read a = store32 o b.v0 0 := h 0 (by decide)
  have h1 : m.read (a + 1) = store32 o b.v0 1 := h 1 (by decide)
  have h2 : m.read (a + 2) = store32 o b.v0 2 := h 2 (by decide)
  have h3 : m.read (a + 3) = store32 o b.v0 3 := h 3 (by decide)
  have h4 : m.read (a + 4) = store32 o b.v1 0 := h 4 (by decide)
  have h5 : m.read (a + 5) = store32 o b.v1 1 := h 5 (by decide)
  have h6 : m.read (a + 6) = store32 o b.v1 2 := h 6 (by decide)
  have h7 : m.read (a + 7) = store32 o b.v1 3 := h 7 (by decide)
  rw [blockAt, h0, h1, h2, h3, h4, h5, h6, h7, load32_store32, load32_store32]

/-- Eight bytes in a row of memory are the block there. -/
theorem loadBlock_eq_blockAt (o : ByteOrder) {bs : Vector Byte 8} {m : Memory} {a : Nat}
    (h : ∀ j (hj : j < 8), bs[j] = m.read (a + j)) : loadBlock o bs = blockAt o m a := by
  simp only [loadBlock, blockAt, h, Nat.add_zero]

section
variable (bd : Build) (d : Direction) (k : Key) (r : Word)

theorem blockAt_cipherBlock {m : Memory} (hm : m.wf) (a : Nat) :
    blockAt bd.order (cipherBlock bd d k r a m) a = transform bd.cipher d (blockAt bd.order m a) k r := by
  refine blockAt_eq_of_bytes fun j hj => ?_
  rw [cipherBlock, storeBytes_read hm.1, if_pos (by omega), Nat.add_sub_cancel_left]

theorem cipherBlocks_read_outside {n a x : Nat} {m : Memory} (hm : m.wf) (ha : a + 8 * n ≤ Config.addrSpace)
    (hx : x < a ∨ a + 8 * n ≤ x) : (cipherBlocks bd d k r n a m).read x = m.read x := by
  induction n generalizing a m with
  | zero => rfl
  | succ n ih =>
    calc (cipherBlocks bd d k r n (a + 8) (cipherBlock bd d k r a m)).read x
        = (cipherBlock bd d k r a m).read x := ih (cipherBlock_wf hm (by omega)) (by omega) (by omega)
      _ = m.read x := cipherBlock_read_other hm.1 (by omega)

/-- Each block is transformed from what stood there at the start: no other block's write reaches it (R146). -/
theorem blockAt_cipherBlocks {n a j : Nat} {m : Memory} (hm : m.wf) (ha : a + 8 * n ≤ Config.addrSpace) (hj : j < n) :
    blockAt bd.order (cipherBlocks bd d k r n a m) (a + 8 * j) =
      transform bd.cipher d (blockAt bd.order m (a + 8 * j)) k r := by
  induction n generalizing a j m with
  | zero => omega
  | succ n ih =>
    have hwf : (cipherBlock bd d k r a m).wf := cipherBlock_wf hm (by omega)
    rw [cipherBlocks]
    cases j with
    | zero =>
      simp only [Nat.mul_zero, Nat.add_zero, ← blockAt_cipherBlock bd d k r hm a]
      exact blockAt_congr fun x hx => cipherBlocks_read_outside bd d k r hwf (by omega) (by omega)
    | succ j =>
      have hrest : blockAt bd.order (cipherBlock bd d k r a m) (a + 8 * (j + 1)) =
          blockAt bd.order m (a + 8 * (j + 1)) :=
        blockAt_congr fun x hx => cipherBlock_read_other hm.1 (by omega)
      rw [← hrest, show a + 8 * (j + 1) = a + 8 + 8 * j by omega]
      exact ih hwf (by omega) (by omega)

/-- In-place transforms of the two directions undo each other, byte for byte (R152). -/
theorem cipherBlocks_reverse_read {n a : Nat} {m : Memory} (hm : m.wf) (ha : a + 8 * n ≤ Config.addrSpace) (x : Nat) :
    (cipherBlocks bd d.reverse k r n a (cipherBlocks bd d k r n a m)).read x = m.read x := by
  have hwf : (cipherBlocks bd d k r n a m).wf := cipherBlocks_wf hm ha
  by_cases hx : a ≤ x ∧ x < a + 8 * n
  case neg =>
    rw [cipherBlocks_read_outside bd d.reverse k r hwf ha (by omega),
      cipherBlocks_read_outside bd d k r hm ha (by omega)]
  case pos =>
    obtain ⟨i, j, hi, hj, rfl⟩ : ∃ i j, i < n ∧ j < 8 ∧ x = a + 8 * i + j :=
      ⟨(x - a) / 8, (x - a) % 8, by omega, by omega, by omega⟩
    rw [← blockByte_blockAt bd.order _ (a + 8 * i) hj, ← blockByte_blockAt bd.order m (a + 8 * i) hj,
      blockAt_cipherBlocks bd d.reverse k r hwf ha hi, blockAt_cipherBlocks bd d k r hm ha hi, transform_reverse]

end

end Sys2Proof.Machine
end

section
/-! A buffer command from the host's write of its word to its end (R145 to R148), where no event is to come and every byte
access completes. Each phase of a block is one run of the machine: eight reads, the rounds, eight writes; `runsTo_block` puts
them together, `runsTo_blocks` the blocks, `runsTo_bufferCommand` acceptance before them. -/

namespace Sys2Proof.Machine

/-! ### Runs -/

/-- `n` steps of the machine lead from `s` to `t`. -/
def RunsTo (n : Nat) (s t : State) : Prop := Host.Core.run Sys2Proof.core n s = .next t

theorem RunsTo.refl (s : State) : RunsTo 0 s s := rfl

/-- The first step of a run that goes on. -/
theorem run_succ_eq_next_iff {M : Host.Core} {n : Nat} {s t : M.State} :
    M.run (n + 1) s = .next t ↔ ∃ u, M.step s = .next u ∧ M.run n u = .next t := by
  rw [Host.Core.run]
  cases M.step s with
  | next u => exact ⟨fun h => ⟨u, rfl, h⟩, fun ⟨_, hu, h⟩ => Host.Outcome.next.inj hu ▸ h⟩
  | fault f => exact ⟨nofun, fun ⟨_, hu, _⟩ => nomatch hu⟩
  | refused r => exact ⟨nofun, fun ⟨_, hu, _⟩ => nomatch hu⟩

theorem runsTo_succ_iff {n : Nat} {s t : State} : RunsTo (n + 1) s t ↔ ∃ u, step s = .next u ∧ RunsTo n u t :=
  run_succ_eq_next_iff (M := Sys2Proof.core)

theorem RunsTo.head {n : Nat} {s u t : State} (h : step s = .next u) (hn : RunsTo n u t) : RunsTo (n + 1) s t :=
  runsTo_succ_iff.mpr ⟨u, h, hn⟩

theorem RunsTo.trans {m n : Nat} {s u t : State} (hm : RunsTo m s u) (hn : RunsTo n u t) : RunsTo (m + n) s t := by
  induction m generalizing s with
  | zero =>
    obtain rfl : s = u := Host.Outcome.next.inj hm
    rwa [Nat.zero_add]
  | succ m ih =>
    obtain ⟨v, hv, hrest⟩ := runsTo_succ_iff.mp hm
    rw [Nat.succ_add]
    exact .head hv (ih hrest)

/-! ### One step of a buffer command in flight -/

/-- A buffer command is in flight in the phase `p`, and the engine is left to itself. -/
structure State.Serving (p : Phase) (s : State) : Prop where
  command : s.eng.lop = .encBuf ∨ s.eng.lop = .decBuf
  phase : s.eng.phase = p
  inputs : s.world.inputs = []
  released : s.world.resetLine = false
  raced : s.world.raced = []

/-- A step of the engine moves on to another phase. -/
theorem State.Serving.transfer {p q : Phase} {s t : State} (hs : s.Serving p) (hlop : t.eng.lop = s.eng.lop)
    (hphase : t.eng.phase = q) (hworld : t.world = s.world) : t.Serving q where
  command := hlop ▸ hs.command
  phase := hphase
  inputs := hworld ▸ hs.inputs
  released := hworld ▸ hs.released
  raced := hworld ▸ hs.raced

/-- Every byte access of the current block completes. -/
structure State.BlockReachable (s : State) : Prop where
  inSpace : s.eng.blockAddr + 8 ≤ Config.addrSpace
  completes : memOkRange s.plat s.eng.blockAddr 8

theorem State.BlockReachable.byteAddr {s : State} (hb : s.BlockReachable) :
    s.eng.byteAddr < Config.addrSpace ∧ platformReply s.plat .read s.eng.byteAddr = .completes ∧
      platformReply s.plat .write s.eng.byteAddr = .completes := by
  have hbeat := s.eng.beat.isLt
  have hspace := hb.inSpace
  exact ⟨by unfold Engine.byteAddr; omega,
    hb.completes _ (Nat.le_add_right _ _) (Nat.add_lt_add_left hbeat _)⟩

/-- With no event to come and no race to settle, the step is the command's own. -/
theorem State.Serving.step_eq {p : Phase} {s u : State} (hs : s.Serving p) (hp : p ≠ .idle)
    (h : advanceBuffer (directionOf s.eng.lop) s = .next u) (hworld : u.world = s.world) : step s = .next u := by
  have hbusy : s.eng.phase ≠ .idle := hs.phase ▸ hp
  have hexec : exec s.eng.lop s = .next u := (exec_buffer_inFlight hs.command rfl hbusy).trans h
  rw [step_nil hs.inputs, engineTurn_busy hs.released hbusy hexec, settleRaces_eq_self (.inr (hworld ▸ hs.raced))]

theorem State.Serving.step_bufRead {s : State} (hs : s.Serving .bufRead) (hb : s.BlockReachable) :
    step s = .next (byteRead (directionOf s.eng.lop) s) := by
  obtain ⟨haddr, hread, -⟩ := hb.byteAddr
  obtain ⟨-, -, -, -, hworld⟩ := byteRead_frame (directionOf s.eng.lop) s
  exact hs.step_eq (by decide) ((advanceBuffer_bufRead hs.phase).trans (memAccess_completes haddr hread)) hworld

theorem State.Serving.step_round {s : State} (hs : s.Serving .bufRounds) (hr : s.eng.rcnt ≠ 0#32) :
    step s = .next (roundStep (directionOf s.eng.lop) s) :=
  hs.step_eq (by decide) ((advanceBuffer_bufRounds hs.phase).trans (if_neg hr)) rfl

theorem State.Serving.step_roundsOver {s : State} (hs : s.Serving .bufRounds) (hr : s.eng.rcnt = 0#32) :
    step s = .next (s.setEng { s.eng with beat := 0, phase := .bufWrite }) :=
  hs.step_eq (by decide) ((advanceBuffer_bufRounds hs.phase).trans (if_pos hr)) rfl

theorem byteWritten_world (s : State) : (byteWritten s).world = s.world := by
  rcases byteWritten_cases s with ⟨-, h⟩ | ⟨-, -, h⟩ | ⟨-, -, h⟩ <;> rw [h] <;> rfl

theorem State.Serving.step_bufWrite {s : State} (hs : s.Serving .bufWrite) (hb : s.BlockReachable) :
    step s = .next (byteWritten s) := by
  obtain ⟨haddr, -, hwrite⟩ := hb.byteAddr
  exact hs.step_eq (by decide) ((advanceBuffer_bufWrite hs.phase).trans (memAccess_completes haddr hwrite))
    (byteWritten_world s)

/-! ### The three phases of a block -/

/-- The internal state after the eighth read: the block `b` is in the datapath and its rounds are to come. -/
def Engine.blockLoaded (d : Direction) (b : Block) (bs : Vector Byte 8) (e : Engine) : Engine :=
  { e with rbuf := bs, beat := 0 }.startRounds d b .bufRounds

/-- The internal state when the rounds are over: the datapath holds `m` and the writes are to come. -/
def Engine.roundsOver (m : Mix) (e : Engine) : Engine :=
  { e with w0 := m.v0, w1 := m.v1, sum := m.sum, rcnt := 0#32, beat := 0, phase := .bufWrite }

/-- The bytes of the current block that have been read stand in the buffer (R145). -/
def State.HasReadBytes (s : State) : Prop :=
  ∀ j (hj : j < 8), j < s.eng.beat.val → s.eng.rbuf[j] = s.mem.read (s.eng.blockAddr + j)

/-- The byte that a step of `BUF_READ` reads joins those before it. -/
theorem State.HasReadBytes.set {s : State} (hread : s.HasReadBytes) {j : Nat} (hj : j < 8)
    (hle : j ≤ s.eng.beat.val) :
    (s.eng.rbuf.set s.eng.beat.val (s.mem.read s.eng.byteAddr) s.eng.beat.isLt)[j] =
      s.mem.read (s.eng.blockAddr + j) := by
  rw [Vector.getElem_set]
  split
  · next h => rw [← h]; rfl
  · exact hread j hj (by omega)

/-- The state after a byte that is not the block's last has been read. -/
def State.byteTaken (s : State) : State :=
  s.setEng { s.eng with
    rbuf := s.eng.rbuf.set s.eng.beat.val (s.mem.read s.eng.byteAddr) s.eng.beat.isLt, beat := s.eng.beat + 1 }

/-- `BUF_READ` from the byte `beat` on: the datapath gets the block that memory holds. -/
theorem runsTo_blockLoaded {n : Nat} {s : State} (hs : s.Serving .bufRead) (hb : s.BlockReachable)
    (hn : s.eng.beat.val + n = 7) (hread : s.HasReadBytes) :
    ∃ bs, RunsTo (n + 1) s (s.setEng
      (s.eng.blockLoaded (directionOf s.eng.lop) (blockAt s.build.order s.mem s.eng.blockAddr) bs)) := by
  induction n generalizing s with
  | zero =>
    obtain ⟨hne, -⟩ | ⟨-, h⟩ := byteRead_cases (directionOf s.eng.lop) s
    · exact absurd (Fin.ext hn) hne
    · rw [loadBlock_eq_blockAt s.build.order fun j hj => hread.set hj (by omega)] at h
      exact ⟨_, .head ((hs.step_bufRead hb).trans (congrArg _ h)) (.refl _)⟩
  | succ n ih =>
    obtain ⟨hne, h⟩ | ⟨heq, -⟩ := byteRead_cases (directionOf s.eng.lop) s
    · have hbeat : s.byteTaken.eng.beat.val = s.eng.beat.val + 1 := (Fin8.val_succ hne).1
      have hread' : s.byteTaken.HasReadBytes := fun j hj hlt => hread.set hj (by omega)
      obtain ⟨bs, hrun⟩ := ih (s := s.byteTaken) (hs.transfer rfl hs.phase rfl) ⟨hb.inSpace, hb.completes⟩
        (by omega) hread'
      exact ⟨bs, .head ((hs.step_bufRead hb).trans (congrArg _ h)) hrun⟩
    · simp [heq] at hn

/-- A round leaves the end of the rounds where it was (R125). -/
theorem roundStep_remaining {s : State} (hr : s.eng.rcnt ≠ 0#32) :
    (roundStep (directionOf s.eng.lop) s).remaining = s.remaining := by
  have hpos : s.eng.rcnt.toNat ≠ 0 := fun h => hr (BitVec.eq_of_toNat_eq h)
  have hcount : s.eng.rcnt.toNat = (s.eng.rcnt - 1#32).toNat + 1 := by bv_omega
  rw [State.remaining, State.remaining, hcount]
  rfl

/-- `BUF_ROUNDS` to its end. -/
theorem runsTo_roundsOver {n : Nat} {s : State} (hs : s.Serving .bufRounds) (hn : s.eng.rcnt.toNat = n) :
    RunsTo (n + 1) s (s.setEng (s.eng.roundsOver s.remaining)) := by
  induction n generalizing s with
  | zero =>
    have hr : s.eng.rcnt = 0#32 := BitVec.eq_of_toNat_eq hn
    have hover : s.eng.roundsOver s.remaining = { s.eng with beat := 0, phase := .bufWrite } := by
      rw [State.remaining, hn, Engine.roundsOver, ← hr]
      rfl
    rw [hover]
    exact .head (hs.step_roundsOver hr) (.refl _)
  | succ n ih =>
    have hr : s.eng.rcnt ≠ 0#32 := fun h => by simp [h] at hn
    have hrun := ih (s := roundStep (directionOf s.eng.lop) s) (hs.transfer rfl hs.phase rfl)
      (by change (s.eng.rcnt - 1#32).toNat = n; bv_omega)
    rw [roundStep_remaining hr] at hrun
    exact .head (hs.step_round hr) hrun

/-- The state after a byte that is not the block's last has been written. -/
def State.byteStored (s : State) : State :=
  (s.setMem (s.mem.write s.eng.byteAddr (outByte s))).setEng { s.eng with beat := s.eng.beat + 1 }

/-- The state in which a block has been written back in full, memory being `m`. -/
def State.blockStored (m : Memory) (s : State) : State := (s.setMem m).setEng { s.eng with beat := 7 }

/-- `BUF_WRITE` from the byte `beat` on: the rest of the datapath's block is stored, and the block ends. -/
theorem runsTo_nextBlock {n : Nat} {s : State} (hs : s.Serving .bufWrite) (hb : s.BlockReachable)
    (hn : s.eng.beat.val + n = 7) :
    RunsTo (n + 1) s (nextBlock (s.blockStored
      (storeBytes s.build.order s.eng.block s.eng.blockAddr (n + 1) s.eng.beat.val s.mem))) := by
  induction n generalizing s with
  | zero =>
    have hbeat : s.eng.beat = 7 := Fin.ext hn
    have hlast : byteWritten s = nextBlock (s.setMem (s.mem.write s.eng.byteAddr (outByte s))) := if_pos hbeat
    have heng : s.eng = { s.eng with beat := 7 } := by rw [← hbeat]
    have hstored : s.blockStored (s.mem.write s.eng.byteAddr (outByte s)) =
        s.setMem (s.mem.write s.eng.byteAddr (outByte s)) := by rw [State.blockStored, ← heng]; rfl
    exact .head ((hs.step_bufWrite hb).trans (congrArg _ (hlast.trans (congrArg nextBlock hstored.symm)))) (.refl _)
  | succ n ih =>
    obtain ⟨hne, h⟩ | ⟨heq, -⟩ | ⟨heq, -⟩ := byteWritten_cases s
    · have hbeat : s.byteStored.eng.beat.val = s.eng.beat.val + 1 := (Fin8.val_succ hne).1
      have hrun := ih (s := s.byteStored) (hs.transfer rfl hs.phase rfl) ⟨hb.inSpace, hb.completes⟩ (by omega)
      rw [hbeat] at hrun
      exact .head ((hs.step_bufWrite hb).trans (congrArg _ h)) hrun
    · simp [heq] at hn
    · simp [heq] at hn

/-! ### A block, and all of them -/

/-- The state at the end of the current block, after its eighth write: memory is `mem`, the datapath holds `m`, the buffer
`bs`, and the iterator is where it was. -/
def State.afterBlock (mem : Memory) (m : Mix) (bs : Vector Byte 8) (s : State) : State :=
  (s.setMem mem).setEng
    { s.eng with w0 := m.v0, w1 := m.v1, sum := m.sum, rcnt := 0#32, beat := 7, rbuf := bs, phase := .bufWrite }

/-- A block from its first read to its eighth write, `17 + R` steps: it is transformed in place (R145). -/
theorem runsTo_block {s : State} (hs : s.Serving .bufRead) (hb : s.BlockReachable) (hbeat : s.eng.beat = 0) :
    ∃ mem m bs, mem = cipherBlock s.build (directionOf s.eng.lop) s.eng.lk s.eng.lr s.eng.blockAddr s.mem ∧
      RunsTo (17 + s.eng.lr.toNat) s (nextBlock (s.afterBlock mem m bs)) := by
  obtain ⟨bs, hload⟩ := runsTo_blockLoaded (n := 7) hs hb (by simp [hbeat]) (by simp [State.HasReadBytes, hbeat])
  have hrounds := hload.trans (runsTo_roundsOver (n := s.eng.lr.toNat) (hs.transfer rfl rfl rfl) rfl)
  have hstore := hrounds.trans (runsTo_nextBlock (n := 7) (hs.transfer rfl rfl rfl) ⟨hb.inSpace, hb.completes⟩ rfl)
  rw [show 17 + s.eng.lr.toNat = 7 + 1 + (s.eng.lr.toNat + 1) + (7 + 1) by omega]
  exact ⟨_, _, bs, rfl, hstore⟩

/-- What the command in flight makes of `s` when it has `n` blocks to do and its end is `OK` (R145 to R148): the blocks are
transformed in place, the registers count them, and the engine is idle. -/
structure EndsAfterBlocks (n : Nat) (s t : State) : Prop where
  mem : t.mem = cipherBlocks s.build (directionOf s.eng.lop) s.eng.lk s.eng.lr n s.eng.blockAddr s.mem
  regs : t.regs = { s.regs with progress := BitVec.ofNat 32 s.eng.lnb.toNat, done := true, err := .ok }
  idle : t.eng.phase = .idle
  build : t.build = s.build
  plat : t.plat = s.plat
  world : t.world = s.world

/-- The start of the block after the current one. -/
def State.toNextBlock (s : State) : State :=
  (s.setRegs { s.regs with progress := BitVec.ofNat 32 (s.eng.bidx.toNat + 1) }).setEng
    { s.eng with bidx := s.eng.bidx + 1#30, beat := 0, phase := .bufRead }

theorem nextBlock_more {s : State} (h : s.eng.bidx.toNat + 1 < s.eng.lnb.toNat) : nextBlock s = s.toNextBlock :=
  if_pos h

theorem nextBlock_last {s : State} (h : s.eng.bidx.toNat + 1 = s.eng.lnb.toNat) :
    nextBlock s = (s.setRegs { s.regs with progress := BitVec.ofNat 32 s.eng.lnb.toNat }).complete := by
  rw [← h]
  exact if_neg (by omega)

theorem State.toNextBlock_bidx {s : State} (h : s.eng.bidx.toNat + 1 < s.eng.lnb.toNat) :
    s.toNextBlock.eng.bidx.toNat = s.eng.bidx.toNat + 1 := by
  change (s.eng.bidx + 1#30).toNat = _
  bv_omega

theorem State.toNextBlock_blockAddr {s : State} (h : s.eng.bidx.toNat + 1 < s.eng.lnb.toNat) :
    s.toNextBlock.eng.blockAddr = s.eng.blockAddr + 8 := by
  rw [Engine.blockAddr, State.toNextBlock_bidx h, Engine.blockAddr, Nat.mul_succ, Nat.add_assoc]
  rfl

/-- The last block's end is the command's (R148, R205). -/
theorem endsAfterBlocks_one {s : State} {mem : Memory} (m : Mix) (bs : Vector Byte 8)
    (hmem : mem = cipherBlock s.build (directionOf s.eng.lop) s.eng.lk s.eng.lr s.eng.blockAddr s.mem) :
    EndsAfterBlocks 1 s
      ((s.afterBlock mem m bs).setRegs { s.regs with progress := BitVec.ofNat 32 s.eng.lnb.toNat }).complete where
  mem := hmem
  regs := rfl
  idle := rfl
  build := rfl
  plat := rfl
  world := rfl

/-- What the other blocks end in, this block and the others end in. -/
theorem EndsAfterBlocks.succ {n : Nat} {s t : State} {mem : Memory} {m : Mix} {bs : Vector Byte 8}
    (ht : EndsAfterBlocks n (s.afterBlock mem m bs).toNextBlock t)
    (hmem : mem = cipherBlock s.build (directionOf s.eng.lop) s.eng.lk s.eng.lr s.eng.blockAddr s.mem)
    (hmore : s.eng.bidx.toNat + 1 < s.eng.lnb.toNat) : EndsAfterBlocks (n + 1) s t where
  mem := by
    rw [ht.mem, State.toNextBlock_blockAddr (s := s.afterBlock mem m bs) hmore, cipherBlocks, ← hmem]
    rfl
  regs := ht.regs
  idle := ht.idle
  build := ht.build
  plat := ht.plat
  world := ht.world

/-- The iterator from the start of a block to the end of the command, with `n` blocks after this one. -/
theorem runsTo_blocks {n : Nat} {s : State} (hs : s.Serving .bufRead) (hbeat : s.eng.beat = 0)
    (hleft : s.eng.bidx.toNat + (n + 1) = s.eng.lnb.toNat)
    (hspace : s.eng.blockAddr + 8 * (n + 1) ≤ Config.addrSpace)
    (hok : memOkRange s.plat s.eng.blockAddr (8 * (n + 1))) :
    ∃ t, RunsTo ((n + 1) * (17 + s.eng.lr.toNat)) s t ∧ EndsAfterBlocks (n + 1) s t := by
  induction n generalizing s with
  | zero =>
    obtain ⟨mem, m, bs, hmem, hrun⟩ := runsTo_block hs ⟨hspace, hok⟩ hbeat
    rw [nextBlock_last (s := s.afterBlock mem m bs) hleft] at hrun
    rw [Nat.zero_add, Nat.one_mul]
    exact ⟨_, hrun, endsAfterBlocks_one m bs hmem⟩
  | succ n ih =>
    have hb : s.BlockReachable := ⟨by omega, fun x hlo hhi => hok x hlo (by omega)⟩
    have hmore : s.eng.bidx.toNat + 1 < s.eng.lnb.toNat := by omega
    obtain ⟨mem, m, bs, hmem, hrun⟩ := runsTo_block hs hb hbeat
    rw [nextBlock_more (s := s.afterBlock mem m bs) hmore] at hrun
    have hidx : (s.afterBlock mem m bs).toNextBlock.eng.bidx.toNat = s.eng.bidx.toNat + 1 :=
      State.toNextBlock_bidx hmore
    have haddr : (s.afterBlock mem m bs).toNextBlock.eng.blockAddr = s.eng.blockAddr + 8 :=
      State.toNextBlock_blockAddr hmore
    have hleft' : s.eng.bidx.toNat + 1 + (n + 1) = s.eng.lnb.toNat := by omega
    have hok' : memOkRange s.plat (s.eng.blockAddr + 8) (8 * (n + 1)) :=
      fun x hlo hhi => hok x (by omega) (by omega)
    obtain ⟨t, hrest, ht⟩ := ih (s := (s.afterBlock mem m bs).toNextBlock) (hs.transfer rfl rfl rfl) rfl
      (by rw [hidx]; exact hleft') (by omega) (by rw [haddr]; exact hok')
    rw [Nat.succ_mul, Nat.add_comm]
    exact ⟨t, hrun.trans hrest, ht.succ hmem hmore⟩

/-! ### The whole command -/

theorem tableWord_encode (i : Instr) : tableWord 32 (encode i).toNat = encode i := by cases i <;> rfl

/-- The engine as a command finds it when the host's write of its word is taken: idle, released, and no event to come. -/
def State.issued (s : State) : State :=
  { s with
    eng := s.eng.toIdle
    world := { s.world with resetLine := false, inputs := [], resp := .written } }

/-- The host's write of a command's word, with no other event to come, is the command's acceptance (R186). -/
theorem step_withFetchWord {s : State} (hin : s.world.inputs = []) (i : Instr) :
    step (s.withFetchWord 32 (encode i).toNat) = exec i s.issued := by
  have hevent : (s.withFetchWord 32 (encode i).toNat).nextEvent (commandEvent s.plat.regBase (encode i)) [] := by
    simp [State.withFetchWord, tableWord_encode, hin]
  rw [step_command hevent rfl (issuesCommand_iff.mpr ⟨rfl, rfl⟩), issueCommand_ok (decode_encode i)]
  rfl

/-- What a buffer command that the host issues in `s` makes of it when its end is `OK` (R145 to R148): the blocks of the
range are transformed in place and `PROGRESS` counts them. -/
structure BufferDone (i : Instr) (s t : State) : Prop where
  mem : t.mem =
    cipherBlocks s.build (directionOf i) s.regs.key s.regs.rounds (blockCount s.regs.size) s.regs.addr.toNat s.mem
  regs : t.regs = { s.regs with progress := BitVec.ofNat 32 (blockCount s.regs.size), done := true, err := .ok }
  idle : t.eng.phase = .idle
  build : t.build = s.build
  plat : t.plat = s.plat
  inputs : t.world.inputs = []
  raced : t.world.raced = []

theorem bufferDone_of_empty (i : Instr) {s : State} (hraced : s.world.raced = []) (hn : blockCount s.regs.size = 0) :
    BufferDone i s (acceptBuffer i s.issued).complete where
  mem := by rw [hn]; rfl
  regs := by rw [hn]; rfl
  idle := rfl
  build := rfl
  plat := rfl
  inputs := rfl
  raced := hraced

/-- The state in which the iteration of a buffer command begins (R145). -/
def State.iterating (i : Instr) (s : State) : State := startIteration (acceptBuffer i s.issued)

theorem State.iterating_lnb (i : Instr) (s : State) : (s.iterating i).eng.lnb.toNat = blockCount s.regs.size :=
  toNat_ofNat_blockCount s.regs.size

theorem State.iterating_blockAddr (i : Instr) (s : State) : (s.iterating i).eng.blockAddr = s.regs.addr.toNat := rfl

theorem bufferDone_of_endsAfterBlocks {i : Instr} {s t : State} (hraced : s.world.raced = [])
    (ht : EndsAfterBlocks (blockCount s.regs.size) (s.iterating i) t) : BufferDone i s t where
  mem := by rw [ht.mem, State.iterating_blockAddr]; rfl
  regs := by rw [ht.regs, State.iterating_lnb]; rfl
  idle := ht.idle
  build := ht.build
  plat := ht.plat
  inputs := by rw [ht.world]; rfl
  raced := by rw [ht.world]; exact hraced

/-- A buffer command that the host issues, its checks passed and every byte access of its range completing, runs to its end
`OK`: one step to be accepted, `17 + R` steps for each block (log entries 6, 8 and 28). -/
theorem runsTo_bufferDone {i : Instr} (hi : i = .encBuf ∨ i = .decBuf) {s : State} (hin : s.world.inputs = [])
    (hraced : s.world.raced = []) (hok : s.regs.bufferOk)
    (hmem : memOkRange s.plat s.regs.addr.toNat (8 * blockCount s.regs.size)) :
    ∃ t, RunsTo (blockCount s.regs.size * (17 + s.regs.rounds.toNat) + 1) (s.withFetchWord 32 (encode i).toNat) t ∧
      BufferDone i s t := by
  have hstep := (step_withFetchWord hin i).trans (exec_buffer_idle hi rfl)
  by_cases hn : blockCount s.regs.size = 0
  case pos =>
    rw [startBuffer_empty i (s := s.issued) hok hn] at hstep
    rw [hn, Nat.zero_mul]
    exact ⟨_, .head hstep (.refl _), bufferDone_of_empty i hraced hn⟩
  case neg =>
    rw [startBuffer_iterates i (s := s.issued) hok hn] at hstep
    obtain ⟨n, hcount⟩ : ∃ n, blockCount s.regs.size = n + 1 := Nat.exists_eq_succ_of_ne_zero hn
    have hserving : (s.iterating i).Serving .bufRead := ⟨hi, rfl, rfl, rfl, hraced⟩
    have hleft : 0 + (n + 1) = (s.iterating i).eng.lnb.toNat := by rw [State.iterating_lnb]; omega
    have hspace := outOfRange_eq_false.mp hok.2
    rw [hcount] at hspace hmem
    obtain ⟨t, hrun, ht⟩ := runsTo_blocks hserving rfl hleft hspace hmem
    rw [← hcount] at ht
    rw [hcount]
    exact ⟨t, .head hstep hrun, bufferDone_of_endsAfterBlocks hraced ht⟩

end Sys2Proof.Machine
end

section
/-! The round trip of R152: each command of the pair is `runsTo_bufferDone`, and the second one's transform of memory undoes
the first one's. -/

namespace Sys2Proof.Machine

/-- The registers a buffer command leaves pass the checks it passed. -/
theorem BufferDone.bufferOk {i : Instr} {s t : State} (ht : BufferDone i s t) (hok : s.regs.bufferOk) :
    t.regs.bufferOk := by
  rw [ht.regs]
  exact hok

/-- A buffer command and then the one of the other direction leave every byte as it was (R152). -/
theorem BufferDone.read_roundTrip {i j : Instr} {s t u : State} (ht : BufferDone i s t) (hu : BufferDone j t u)
    (hdir : directionOf j = (directionOf i).reverse) (hm : s.mem.wf) (hok : s.regs.bufferOk) (a : Nat) :
    u.mem.read a = s.mem.read a := by
  rw [hu.mem, ht.build, ht.regs, ht.mem, hdir]
  exact cipherBlocks_reverse_read s.build (directionOf i) s.regs.key s.regs.rounds hm (outOfRange_eq_false.mp hok.2) a

/-- Settles O33: the first command's end is a state to issue the second one in, with the same operands. -/
theorem bufferRoundTripRestoresMemory : Obligations.BufferRoundTripRestoresMemory := by
  unfold Obligations.BufferRoundTripRestoresMemory
  intro s i j hij hm _ hin hraced halign hrange hmem
  have hok : s.regs.bufferOk := ⟨misaligned_eq_false.mpr halign, outOfRange_eq_false.mpr hrange⟩
  obtain ⟨hi, hj, hdir⟩ : (i = .encBuf ∨ i = .decBuf) ∧ (j = .encBuf ∨ j = .decBuf) ∧
      directionOf j = (directionOf i).reverse := by
    rcases hij with ⟨rfl, rfl⟩ | ⟨rfl, rfl⟩
    · exact ⟨.inl rfl, .inr rfl, rfl⟩
    · exact ⟨.inr rfl, .inl rfl, rfl⟩
  obtain ⟨t, hst, ht⟩ := runsTo_bufferDone hi hin hraced hok hmem
  have hmem' : memOkRange t.plat t.regs.addr.toNat (8 * blockCount t.regs.size) := by
    rw [ht.plat, ht.regs]
    exact hmem
  obtain ⟨u, htu, hu⟩ := runsTo_bufferDone hj ht.inputs ht.raced (ht.bufferOk hok) hmem'
  rw [ht.regs] at htu
  refine ⟨_, t, u, Nat.le_add_left _ _, hst, ht.idle, ?_, ?_, htu, hu.idle, ?_, ?_, ht.read_roundTrip hu hdir hm hok⟩
  · rw [ht.regs]
  · rw [ht.regs]
  · rw [hu.regs]
  · rw [hu.regs]

end Sys2Proof.Machine
end

section
/-! The host's bus at the window (R180, R181): which offsets are registers, and what an access comes to that is erroneous or
at a reserved offset. -/

namespace Sys2Proof.Machine

/-! ### The map of the window (R21, R34) -/

/-- The registers lie next to each other from the window's first offset on. -/
theorem regAt_isSome : ∀ k < 15, (regAt (4 * k)).isSome := by decide

/-- Every aligned offset is a register's or lies behind the last register. -/
theorem regOffset_or_reserved {off : Nat} (h4 : off % 4 = 0) : (∃ r, off = regOffset r) ∨ 0x3C ≤ off := by
  by_cases h : off < 0x3C
  case neg => exact .inr (by omega)
  case pos =>
    have hsome : (regAt off).isSome := by
      have := regAt_isSome (off / 4) (by omega)
      rwa [Nat.mul_div_cancel' (Nat.dvd_of_mod_eq_zero h4)] at this
    obtain ⟨r, hr⟩ := Option.isSome_iff_exists.mp hsome
    exact .inl ⟨r, regAt_eq_some hr⟩

theorem regOffset_lt_reserved (r : Reg) : regOffset r < 0x3C := by cases r <;> decide

theorem regAt_eq_none {off : Nat} (h : 0x3C ≤ off) : regAt off = none := by
  cases hr : regAt off with
  | none => rfl
  | some r =>
    have := regOffset_lt_reserved r
    have := regAt_eq_some hr
    omega

/-- An aligned 32-bit access behind the registers reaches no register (R34). -/
theorem accessTarget_reserved (base : Nat) {off : Nat} (h4 : off % 4 = 0) (h : off < 0x100) (hlast : 0x3C ≤ off) :
    accessTarget base { addr := base + off, bytes := 4 } = .reserved := by
  rw [accessTarget_window base off h4 h, regAt_eq_none hlast]

/-! ### Accesses by what they reach -/

theorem hostRead_erroneous {a : Access} {s : State} (h : accessTarget s.plat.regBase a = .erroneous) :
    hostRead a s = s.respond (.error 0#32) := by
  unfold hostRead; rw [h]

theorem hostWrite_erroneous {a : Access} {s : State} (d : Word) (h : accessTarget s.plat.regBase a = .erroneous) :
    hostWrite a d s = s.respond (.error 0#32) := by
  unfold hostWrite; rw [h]

theorem hostWrite_reserved {a : Access} {s : State} (d : Word) (h : accessTarget s.plat.regBase a = .reserved) :
    hostWrite a d s = s.respond .written := by
  unfold hostWrite; rw [h]

/-- A write at a register while the engine is idle (R184). -/
theorem hostWrite_idle {s : State} (r : Reg) (d : Word) (hp : s.eng.phase = .idle) :
    hostWrite (regAccess s.plat.regBase r) d s = (writeRegIdle r d s).respond .written := by
  unfold hostWrite; rw [accessTarget_regAccess, State.not_busy_iff.mpr hp]; rfl

/-- A write at a register while the engine is busy (R185). -/
theorem hostWrite_busy {s : State} (r : Reg) (d : Word) (hp : s.eng.phase ≠ .idle) :
    hostWrite (regAccess s.plat.regBase r) d s = (writeRegBusy r d s).respond .written := by
  unfold hostWrite; rw [accessTarget_regAccess, State.busy_iff.mpr hp]; rfl

/-- Only an access that reaches `CMD` issues a command. -/
theorem issuesCommand_eq_false {a : Access} {s : State} (h : accessTarget s.plat.regBase a ≠ .register .cmd) :
    issuesCommand a s = false := by
  simp [issuesCommand, h]

/-- A write while the engine is busy issues no command (R185). -/
theorem issuesCommand_busy (a : Access) {s : State} (hp : s.eng.phase ≠ .idle) : issuesCommand a s = false :=
  Bool.eq_false_iff.mpr fun h => hp (issuesCommand_iff.mp h).1

/-- Settles O14: the access is no transaction, so the step is the error response alone. -/
theorem erroneousAccessesChangeNothing : Obligations.ErroneousAccessesChangeNothing := by
  unfold Obligations.ErroneousAccessesChangeNothing
  intro s es a d hreset hlo hhi hbad hev
  have htarget : accessTarget s.plat.regBase a = .erroneous := accessTarget_erroneous hlo hhi hbad
  have hanswer : step s = .next ((s.withInputs es).respond (.error 0#32)) := by
    rcases hev with hread | hwrite
    · exact (step_regRead hread hreset).trans (congrArg _ (hostRead_erroneous htarget))
    · have hno : issuesCommand a s = false := issuesCommand_eq_false (by simp [htarget])
      exact (step_regWrite hwrite hreset hno).trans (congrArg _ (hostWrite_erroneous d htarget))
  exact ⟨_, hanswer, rfl, rfl, rfl, rfl⟩

end Sys2Proof.Machine
end

section
/-! What a host read returns (R183): the three composed words as the table gives them, and `V0`, `V1` unchanged while a
single-block command runs (R120). -/

namespace Sys2Proof.Machine

/-! ### The composed words -/

theorem idWord_eq (b : Build) : idWord b = 0x54450100#32 ||| (if b.order = .be then 2#32 else 0#32) |||
    (if b.cipher = .xtea then 1#32 else 0#32) := by
  simp [idWord, flagBit]

theorem ctrlWord_eq (r : Regs) :
    ctrlWord r = (if r.compat then 1#32 else 0#32) ||| (if r.irqEn then 2#32 else 0#32) := rfl

theorem statusWord_eq (s : State) : statusWord s =
    (if s.eng.phase ≠ .idle then 1#32 else 0#32) ||| (if s.regs.done then 2#32 else 0#32) |||
      (if s.regs.wign then 4#32 else 0#32) ||| s.regs.err.code <<< 4 := by
  simp [statusWord, flagBit, State.busy]

/-! ### `V0` and `V1` while a single-block command runs -/

/-- A turn of the engine that leaves a single-block command running is a round, which touches no register (R125). -/
theorem engineTurn_runBlock_regs {s t : State} (h : engineTurn s = .next t) (hs : s.eng.phase = .runBlock)
    (ht : t.eng.phase = .runBlock) : t.regs = s.regs := by
  rcases engineTurn_next h with ⟨-, rfl⟩ | ⟨-, -, u, hu, rfl⟩
  · rfl
  obtain ⟨-, -, hregs, heng, -⟩ := settleRaces_frame u
  rw [heng] at ht
  rw [hregs]
  rcases exec_next hu with ⟨hp, -⟩ | ⟨hp, -⟩ | ⟨-, -, -, hblock⟩ | ⟨-, -, -, hbuf⟩ | ⟨-, hlop, -⟩
  · simp [hs] at hp
  · simp [hs] at hp
  · obtain ⟨-, ⟨-, rfl⟩ | ⟨-, rfl⟩⟩ := advanceBlock_next hblock
    · simp at ht
    · rfl
  · rcases advanceBuffer_next hbuf with ⟨hp, -⟩ | ⟨hp, -⟩ | ⟨hp, -⟩ | ⟨hp, -⟩ <;> simp [hs] at hp
  · exact absurd rfl hlop

/-- A write to a busy engine changes no operand register (R185). -/
theorem hostWrite_busy_keepsBlock (a : Access) (d : Word) {s : State} (hp : s.eng.phase ≠ .idle) :
    (hostWrite a d s).regs.v0 = s.regs.v0 ∧ (hostWrite a d s).regs.v1 = s.regs.v1 := by
  obtain ⟨-, -, -, -, -, h | ⟨r, -, h⟩⟩ := hostWrite_frame a d s
  · rw [h]; exact ⟨rfl, rfl⟩
  · rw [h, if_pos (State.busy_iff.mpr hp)]
    rcases writeRegBusy_regs r d s with h | h | ⟨-, h⟩ <;> rw [h] <;> exact ⟨rfl, rfl⟩

/-- No event that leaves a single-block command running changes `V0` or `V1`. -/
theorem takeEvent_runBlock_keepsBlock {e : Event} {s t : State} (h : takeEvent e s = .next t)
    (hs : s.eng.phase = .runBlock) (ht : t.eng.phase = .runBlock) : t.regs.v0 = s.regs.v0 ∧ t.regs.v1 = s.regs.v1 := by
  have hbusy : s.eng.phase ≠ .idle := by simp [hs]
  have hkeep (hregs : t.regs = s.regs) : t.regs.v0 = s.regs.v0 ∧ t.regs.v1 = s.regs.v1 := by simp [hregs]
  cases e with
  | engine => exact hkeep (engineTurn_runBlock_regs h hs ht)
  | regRead a =>
    cases hr : s.world.resetLine with
    | true => rw [takeEvent_regRead_reset hr] at h; cases h; exact hkeep rfl
    | false =>
      rw [takeEvent_regRead hr] at h
      cases h
      obtain ⟨-, -, hregs, -⟩ := hostRead_frame a s
      exact hkeep hregs
  | regWrite a d =>
    cases hr : s.world.resetLine with
    | true => rw [takeEvent_regWrite_reset hr] at h; cases h; exact hkeep rfl
    | false =>
      rw [takeEvent_regWrite hr (issuesCommand_busy a hbusy)] at h
      cases h
      exact hostWrite_busy_keepsBlock a d hbusy
  | irqSample =>
    cases h
    obtain ⟨-, -, hregs, -⟩ := hostIrq_frame s
    exact hkeep hregs
  | memRead a =>
    cases h
    obtain ⟨-, -, hregs, -⟩ := hostMemRead_frame a s
    exact hkeep hregs
  | memWrite a b =>
    cases h
    obtain ⟨-, -, hregs, -⟩ := hostMemWrite_frame a b s
    exact hkeep hregs
  | resetAssert =>
    cases h
    obtain ⟨-, -, -, heng, -⟩ := assertReset_frame s
    rw [heng] at ht
    cases ht
  | resetRelease =>
    cases h
    rcases releaseReset_cases s with ⟨-, h⟩ | ⟨-, h⟩ <;> rw [h] at ht hkeep ⊢
    · exact hkeep rfl
    · cases ht
  | platformRegions rs => cases h; exact hkeep rfl

theorem step_runBlock_keepsBlock {s t : State} (h : step s = .next t) (hs : s.eng.phase = .runBlock)
    (ht : t.eng.phase = .runBlock) : t.regs.v0 = s.regs.v0 ∧ t.regs.v1 = s.regs.v1 := by
  rcases step_next h with ⟨-, hturn⟩ | ⟨e, es, -, hevent⟩
  · exact takeEvent_runBlock_keepsBlock (e := .engine) hturn hs ht
  · exact takeEvent_runBlock_keepsBlock (s := s.withInputs es) hevent hs ht

/-- Acceptance of a single-block command on an idle engine (R200). -/
theorem exec_block_idle {i : Instr} (hi : i = .encBlock ∨ i = .decBlock) {s : State} (hp : s.eng.phase = .idle) :
    exec i s = .next (startBlock i (directionOf i) s) :=
  (exec_block hi s).trans (withEngine_idle hp)

/-- Settles O12: at a register's offset the read answers `readReg`, which the table gives register by register; behind the
last register it answers 0. -/
theorem readsReturnTheRegisterMap : Obligations.ReadsReturnTheRegisterMap := by
  unfold Obligations.ReadsReturnTheRegisterMap
  refine ⟨fun s t i hi hstep ht => ?running, fun s es off h4 hoff hreset hev => ⟨_, step_regRead hev hreset, ?answer⟩⟩
  case running =>
    rcases hstep with ⟨hp, hexec⟩ | ⟨hp, hstep⟩
    · obtain rfl := Host.Outcome.next.inj ((exec_block_idle hi hp).symm.trans hexec)
      exact ⟨rfl, rfl⟩
    · exact step_runBlock_keepsBlock hstep hp ht
  case answer =>
    rcases regOffset_or_reserved h4 with ⟨r, rfl⟩ | hlast
    · refine (hostRead_resp (s := s.withInputs es) (accessTarget_regAccess s.plat.regBase r)).trans
        (congrArg HostResp.data ?_)
      cases r
      case id => exact idWord_eq s.build
      case ctrl => exact ctrlWord_eq s.regs
      case status =>
        refine (statusWord_eq (s.withInputs es)).trans (congrArg _ ?_)
        rw [State.withInputs_regs]
        cases s.regs.err <;> rfl
      all_goals rfl
    · refine (hostRead_resp_reserved (s := s.withInputs es)
        (accessTarget_reserved s.plat.regBase h4 hoff hlast)).trans (congrArg HostResp.data ?_)
      repeat rw [if_neg (by omega)]

end Sys2Proof.Machine
end

section
/-! What a host write does at each offset, idle (R184) and busy (R185). -/

namespace Sys2Proof.Machine

/-- A write behind the last register changes nothing, idle or busy (R34). -/
theorem step_regWrite_reserved {s : State} {es : List Event} {off : Nat} {d : Word} (h4 : off % 4 = 0)
    (hoff : off < 0x100) (hlast : 0x3C ≤ off) (hreset : s.world.resetLine = false)
    (hev : s.nextEvent (.regWrite { addr := s.plat.regBase + off, bytes := 4 } d) es) :
    step s = .next ((s.withInputs es).respond .written) := by
  have htarget := accessTarget_reserved s.plat.regBase h4 hoff hlast
  have hno := issuesCommand_eq_false (s := s) (by rw [htarget]; nofun)
  exact (step_regWrite hev hreset hno).trans (congrArg _ (hostWrite_reserved d htarget))

/-- A write at a register of a busy engine, `CMD` included (R185). -/
theorem step_regWrite_busy {s : State} {es : List Event} {r : Reg} {d : Word} (hp : s.eng.phase ≠ .idle)
    (hreset : s.world.resetLine = false) (hev : s.nextEvent (.regWrite (regAccess s.plat.regBase r) d) es) :
    step s = .next ((writeRegBusy r d (s.withInputs es)).respond .written) :=
  (step_regWrite hev hreset (issuesCommand_busy _ hp)).trans (congrArg _ (hostWrite_busy r d hp))

/-- A write at a register of an idle engine, `CMD` excepted (R184). -/
theorem step_regWrite_idle {s : State} {es : List Event} {r : Reg} {d : Word} (hs : s.ready) (hr : r ≠ .cmd)
    (hev : s.nextEvent (.regWrite (regAccess s.plat.regBase r) d) es) :
    step s = .next ((writeRegIdle r d (s.withInputs es)).respond .written) := by
  obtain ⟨hp, hreset⟩ := hs
  have hno : issuesCommand (regAccess s.plat.regBase r) s = false :=
    issuesCommand_eq_false (by simp [accessTarget_regAccess, hr])
  exact (step_regWrite hev hreset hno).trans (congrArg _ (hostWrite_idle r d hp))

/-- A write at `CMD` of an idle engine issues the word (R186). -/
theorem step_regWrite_cmd {s : State} {es : List Event} {d : Word} (hs : s.ready)
    (hev : s.nextEvent (.regWrite (regAccess s.plat.regBase .cmd) d) es) :
    step s = issueCommand d ((s.withInputs es).respond .written) :=
  step_command hev hs.2 (issuesCommand_iff.mpr ⟨hs.1, rfl⟩)

/-- Acceptance leaves `WIGN` as it was, whatever the checks give (R24, R200). -/
theorem startBuffer_wign (i : Instr) (s : State) : (startBuffer i s).regs.wign = s.regs.wign := by
  rcases startBuffer_cases i s with ⟨-, h⟩ | ⟨-, -, h⟩ | ⟨-, -, h⟩ | ⟨-, -, h⟩ <;> rw [h] <;> rfl

theorem exec_idle_wign (i : Instr) {s : State} (hp : s.eng.phase = .idle) :
    ∃ t, exec i s = .next t ∧ t.regs.wign = s.regs.wign := by
  rcases block_or_buffer i with hi | hi
  · exact ⟨_, exec_block_idle hi hp, rfl⟩
  · exact ⟨_, exec_buffer_idle hi hp, startBuffer_wign i s⟩

/-- Settles O16: at a register the write is `writeRegBusy`, register by register as the table says; behind the last register
it does nothing. -/
theorem busyWritesAreDropped : Obligations.BusyWritesAreDropped := by
  unfold Obligations.BusyWritesAreDropped
  intro s es off d h4 hoff hp hreset hev
  rcases regOffset_or_reserved h4 with ⟨r, rfl⟩ | hlast
  · obtain ⟨-, -, -, -, -, heng, hmem, -⟩ := writeReg_frame r d (s.withInputs es)
    refine ⟨_, step_regWrite_busy hp hreset hev, heng, hmem, rfl, ?_⟩
    cases r <;> rfl
  · refine ⟨_, step_regWrite_reserved h4 hoff hlast hreset hev, rfl, rfl, rfl, ?_⟩
    rw [if_neg (by omega), if_neg (by omega)]
    rfl

/-- Settles O15: at `CMD` the write issues the word; at another register it is `writeRegIdle`, register by register as the
table says; behind the last register it does nothing. -/
theorem idleWritesReachTheirRegister : Obligations.IdleWritesReachTheirRegister := by
  unfold Obligations.IdleWritesReachTheirRegister
  refine ⟨fun s es d hs hev => ⟨fun i hi => ?legal, fun e he => ?illegal⟩,
    fun s es off d h4 hoff hcmd hs hev => ?other⟩
  case legal =>
    have hstep := (step_regWrite_cmd hs hev).trans (issueCommand_ok hi _)
    obtain ⟨t, hexec, hwign⟩ := exec_idle_wign i (s := (s.withInputs es).respond .written) hs.1
    exact ⟨hstep, t, hstep.trans hexec, hwign⟩
  case illegal => exact (step_regWrite_cmd hs hev).trans (issueCommand_error he _)
  case other =>
    rcases regOffset_or_reserved h4 with ⟨r, rfl⟩ | hlast
    · have hr : r ≠ .cmd := fun h => hcmd (congrArg regOffset h)
      obtain ⟨heng, hmem, -⟩ := writeReg_frame r d (s.withInputs es)
      refine ⟨_, step_regWrite_idle hs hr hev, heng, hmem, rfl, ?_⟩
      cases r <;> rfl
    · refine ⟨_, step_regWrite_reserved h4 hoff hlast hs.2 hev, rfl, rfl, rfl, ?_⟩
      repeat rw [if_neg (by omega)]
      rfl

end Sys2Proof.Machine
end

section
/-! The interrupt output (R207) as the conjunction of `IRQ_EN` and `DONE`: what gives either level; and an illegal word at
`CMD` (R201), which raises it as every end does. -/

namespace Sys2Proof.Machine

theorem State.irq_of_not_done {s : State} (h : s.regs.done = false) : s.irq = false := by
  rw [State.irq, h, Bool.and_false]

theorem State.irq_of_not_irqEn {s : State} (h : s.regs.irqEn = false) : s.irq = false := by
  rw [State.irq, h, Bool.false_and]

theorem State.irq_of_done {s : State} (hen : s.regs.irqEn = true) (hdone : s.regs.done = true) : s.irq = true := by
  rw [State.irq, hen, hdone, Bool.and_self]

/-- Settles O17: the decoder refuses a word that is no command's, and the step of a refused word is `State.illegalWord`. -/
theorem illegalWordEndsAtOnce : Obligations.IllegalWordEndsAtOnce := by
  unfold Obligations.IllegalWordEndsAtOnce
  intro s es w hs hw hev
  obtain ⟨e, he⟩ := exists_decode_eq_error_iff.mpr hw
  exact ⟨_, (step_regWrite_cmd hs hev).trans (issueCommand_error he _), rfl, rfl, rfl, State.not_busy_iff.mpr hs.1,
    fun hen => State.irq_of_done hen rfl⟩

/-- Settles O18: what lowers the output clears `DONE` (R24, R187, R200, R230), every end sets it, and looking at the output
leaves the registers, the engine and memory alone. -/
theorem interruptFollowsDone : Obligations.InterruptFollowsDone := by
  unfold Obligations.InterruptFollowsDone
  refine ⟨fun _ => rfl, fun s d hd => ?acknowledged, fun s i => ?accepted, fun s => ?inReset,
    fun s => State.irq_of_not_irqEn, fun s e a hen => ?ended, fun s es hev => ?sampled⟩
  case acknowledged => exact State.irq_of_not_done (by simp [hd])
  case accepted => exact State.irq_of_not_done rfl
  case inReset =>
    obtain ⟨-, -, hregs, -⟩ := assertReset_frame s
    exact State.irq_of_not_done (by rw [hregs]; rfl)
  case ended =>
    have hend {t : State} (hirqEn : t.regs.irqEn = s.regs.irqEn) : t.regs.done = true → t.irq = true :=
      State.irq_of_done (hirqEn.trans hen)
    exact ⟨hend rfl rfl, hend rfl rfl, hend rfl rfl, hend rfl rfl⟩
  case sampled =>
    obtain ⟨-, -, hregs, heng, hmem, ws, hworld, -⟩ := hostIrq_frame (s.withInputs es)
    exact ⟨_, step_irqSample hev, congrArg World.resp hworld, hregs, heng, hmem⟩

end Sys2Proof.Machine
end

section
/-! The flag `WIGN` (R24, R214): no command touches it, and of the events only a host write and reset do. -/

namespace Sys2Proof.Machine

/-! ### Commands leave `WIGN` alone -/

theorem byteWritten_wign (s : State) : (byteWritten s).regs.wign = s.regs.wign := by
  rcases byteWritten_cases s with ⟨-, h⟩ | ⟨-, -, h⟩ | ⟨-, -, h⟩ <;> rw [h] <;> rfl

theorem advanceBlock_wign {d : Direction} {s t : State} (h : advanceBlock d s = .next t) :
    t.regs.wign = s.regs.wign := by
  obtain ⟨-, ⟨-, rfl⟩ | ⟨-, rfl⟩⟩ := advanceBlock_next h <;> rfl

theorem advanceBuffer_wign {d : Direction} {s t : State} (h : advanceBuffer d s = .next t) :
    t.regs.wign = s.regs.wign := by
  rcases advanceBuffer_next h with ⟨-, -, hread⟩ | ⟨-, -, rfl⟩ | ⟨-, -, rfl⟩ | ⟨-, -, hwrite⟩
  · rcases hread with rfl | rfl | rfl
    · obtain ⟨-, -, hregs, -⟩ := byteRead_frame d s
      rw [hregs]
    · rfl
    · rfl
  · rfl
  · rfl
  · rcases hwrite with rfl | rfl | rfl
    · exact byteWritten_wign s
    · rfl
    · rfl

/-- The engine's own turn never turns its command away, so it leaves `WIGN` as it was. -/
theorem engineTurn_wign {s t : State} (h : engineTurn s = .next t) : t.regs.wign = s.regs.wign := by
  rcases engineTurn_next h with ⟨-, rfl⟩ | ⟨-, hp, u, hu, rfl⟩
  · rfl
  obtain ⟨-, -, hregs, -⟩ := settleRaces_frame u
  rw [hregs]
  rcases exec_next hu with ⟨hidle, -⟩ | ⟨hidle, -⟩ | ⟨-, -, -, hblock⟩ | ⟨-, -, -, hbuf⟩ | ⟨-, hlop, -⟩
  · exact absurd hidle hp
  · exact absurd hidle hp
  · exact advanceBlock_wign hblock
  · exact advanceBuffer_wign hbuf
  · exact absurd rfl hlop

/-- A word issued to an idle engine, legal or not, leaves `WIGN` as it was (R24). -/
theorem issueCommand_wign {w : Word} {s t : State} (hp : s.eng.phase = .idle) (h : issueCommand w s = .next t) :
    t.regs.wign = s.regs.wign := by
  cases hw : decode w with
  | ok i =>
    obtain ⟨u, hu, hwign⟩ := exec_idle_wign i hp
    rw [issueCommand_ok hw, hu] at h
    cases h
    exact hwign
  | error e =>
    rw [issueCommand_error hw] at h
    cases h
    rfl

/-! ### Host writes -/

/-- A write that R185 ignores sets `WIGN` and does nothing else. -/
theorem writeRegBusy_dropped {r : Reg} (d : Word) (s : State) (hid : r ≠ .id) (hstatus : r ≠ .status)
    (hprogress : r ≠ .progress) (hfault : r ≠ .faultAddr) : writeRegBusy r d s = s.dropWrite := by
  cases r
  case id => exact absurd rfl hid
  case status => exact absurd rfl hstatus
  case progress => exact absurd rfl hprogress
  case faultAddr => exact absurd rfl hfault
  all_goals rfl

/-- Of the writes to an idle engine's registers, only that at `STATUS` reaches `WIGN` (R184, R187). -/
theorem writeRegIdle_wign (r : Reg) (d : Word) (s : State) :
    (writeRegIdle r d s).regs.wign = s.regs.wign ∨ (r = .status ∧ (writeRegIdle r d s).regs = s.regs.clearFlags d) := by
  cases r
  case status => exact .inr ⟨rfl, rfl⟩
  all_goals exact .inl rfl

/-- What becomes of `WIGN` when the event `e` takes the state `s` to `t`. -/
inductive WignOutcome (e : Event) (s t : State) : Prop where
  /-- It stays as it was. -/
  | kept (h : t.regs.wign = s.regs.wign)
  /-- Reset takes it to 0 (R230). -/
  | reset (he : e = .resetAssert ∨ e = .resetRelease) (h : t.regs.wign = false)
  /-- A write at `STATUS` clears it where its bit 2 is set (R187). -/
  | acknowledged (d : Word) (he : e = .regWrite (regAccess s.plat.regBase .status) d)
      (h : t.regs = s.regs.clearFlags d)
  /-- A write to the busy engine is ignored, which sets it and does nothing else (R185). -/
  | dropped (a : Access) (d : Word) (he : e = .regWrite a d) (hbusy : s.busy = true)
      (hregs : t.regs = s.regs.dropFlag) (heng : t.eng = s.eng) (hmem : t.mem = s.mem)

/-- A host write that issues no command. -/
theorem hostWrite_wignOutcome (a : Access) (d : Word) (s : State) :
    WignOutcome (.regWrite a d) s (hostWrite a d s) := by
  obtain ⟨-, -, heng, hmem, -, h | ⟨r, rfl, h⟩⟩ := hostWrite_frame a d s
  · exact .kept (by rw [h])
  cases hb : s.busy with
  | true =>
    rw [if_pos hb] at h
    rcases writeRegBusy_regs r d s with hkept | hdrop | ⟨rfl, hclear⟩
    · exact .kept (by rw [h, hkept])
    · exact .dropped _ d rfl hb (h.trans hdrop) heng hmem
    · exact .acknowledged d rfl (h.trans hclear)
  | false =>
    rw [if_neg (by simp [hb])] at h
    rcases writeRegIdle_wign r d s with hkept | ⟨rfl, hclear⟩
    · exact .kept (by rw [h, hkept])
    · exact .acknowledged d rfl (h.trans hclear)

/-! ### Every event -/

theorem takeEvent_wignOutcome {e : Event} {s t : State} (h : takeEvent e s = .next t) : WignOutcome e s t := by
  have hkeep (hregs : t.regs = s.regs) : WignOutcome e s t := .kept (by rw [hregs])
  cases e with
  | engine => exact .kept (engineTurn_wign h)
  | regRead a =>
    cases hr : s.world.resetLine with
    | true => rw [takeEvent_regRead_reset hr] at h; cases h; exact hkeep rfl
    | false =>
      rw [takeEvent_regRead hr] at h
      cases h
      obtain ⟨-, -, hregs, -⟩ := hostRead_frame a s
      exact hkeep hregs
  | regWrite a d =>
    cases hr : s.world.resetLine with
    | true => rw [takeEvent_regWrite_reset hr] at h; cases h; exact hkeep rfl
    | false =>
      cases hc : issuesCommand a s with
      | true =>
        rw [takeEvent_command hr hc] at h
        obtain ⟨hp, -⟩ := issuesCommand_iff.mp hc
        exact .kept (issueCommand_wign (s := s.respond .written) hp h)
      | false =>
        rw [takeEvent_regWrite hr hc] at h
        cases h
        exact hostWrite_wignOutcome a d s
  | irqSample =>
    cases h
    obtain ⟨-, -, hregs, -⟩ := hostIrq_frame s
    exact hkeep hregs
  | memRead a =>
    cases h
    obtain ⟨-, -, hregs, -⟩ := hostMemRead_frame a s
    exact hkeep hregs
  | memWrite a b =>
    cases h
    obtain ⟨-, -, hregs, -⟩ := hostMemWrite_frame a b s
    exact hkeep hregs
  | resetAssert =>
    cases h
    obtain ⟨-, -, hregs, -⟩ := assertReset_frame s
    exact .reset (.inl rfl) (by rw [hregs]; rfl)
  | resetRelease =>
    cases h
    rcases releaseReset_cases s with ⟨-, h⟩ | ⟨-, h⟩
    · exact hkeep (by rw [h])
    · exact .reset (.inr rfl) (by rw [h]; rfl)
  | platformRegions rs => cases h; exact hkeep rfl

/-- A step that changes `WIGN` takes an event, and the outcome is that event's. -/
theorem step_wignOutcome {s t : State} (h : step s = .next t) :
    t.regs.wign = s.regs.wign ∨ ∃ e es, s.nextEvent e es ∧ WignOutcome e (s.withInputs es) t := by
  rcases step_next h with ⟨-, hturn⟩ | ⟨e, es, hev, hevent⟩
  · exact .inl (engineTurn_wign hturn)
  · exact .inr ⟨e, es, hev, takeEvent_wignOutcome hevent⟩

/-- `WIGN` goes from 1 to 0 by reset or by a write of 1 to bit 2 of `STATUS` alone (R214). -/
theorem step_clears_wign {s t : State} (h : step s = .next t) (hs : s.regs.wign = true) (ht : t.regs.wign = false) :
    (∃ es, s.nextEvent .resetAssert es) ∨ (∃ es, s.nextEvent .resetRelease es) ∨
    (∃ d es, d.getLsbD 2 = true ∧ s.nextEvent (.regWrite (regAccess s.plat.regBase .status) d) es) := by
  rcases step_wignOutcome h with hkept | ⟨e, es, hev, houtcome⟩
  · simp [hkept, hs] at ht
  cases houtcome with
  | kept hkept => simp [hkept, hs] at ht
  | reset he =>
    rcases he with rfl | rfl
    · exact .inl ⟨es, hev⟩
    · exact .inr (.inl ⟨es, hev⟩)
  | acknowledged d he hregs =>
    subst he
    have hbit : d.getLsbD 2 = true := by simpa [hregs, hs] using ht
    exact .inr (.inr ⟨d, es, hbit, hev⟩)
  | dropped a d he hbusy hregs => simp [hregs] at ht

/-- `WIGN` goes from 0 to 1 by a write that the busy engine ignores alone, and nothing else changes (R214). -/
theorem step_sets_wign {s t : State} (h : step s = .next t) (hs : s.regs.wign = false) (ht : t.regs.wign = true) :
    s.busy = true ∧ (∃ a d es, s.nextEvent (.regWrite a d) es) ∧
    t.regs = { s.regs with wign := true } ∧ t.eng = s.eng ∧ t.mem = s.mem := by
  rcases step_wignOutcome h with hkept | ⟨e, es, hev, houtcome⟩
  · simp [hkept, hs] at ht
  cases houtcome with
  | kept hkept => simp [hkept, hs] at ht
  | reset he hzero => simp [hzero] at ht
  | acknowledged d he hregs => simp [hregs, hs] at ht
  | dropped a d he hbusy hregs heng hmem =>
    subst he
    exact ⟨hbusy, ⟨a, d, es, hev⟩, hregs, heng, hmem⟩

/-- Settles O47: a write that R185 ignores is `State.dropWrite`, and each change of `WIGN` is the outcome of its event. -/
theorem ignoredWriteFlagIsSticky : Obligations.IgnoredWriteFlagIsSticky := by
  unfold Obligations.IgnoredWriteFlagIsSticky
  refine ⟨fun s es r d hbusy hreset hid hstatus hprogress hfault hev => ?_,
    fun s t h => ⟨step_clears_wign h, step_sets_wign h⟩⟩
  have hstep := step_regWrite_busy (State.busy_iff.mp hbusy) hreset hev
  rw [writeRegBusy_dropped d _ hid hstatus hprogress hfault] at hstep
  exact ⟨_, hstep, rfl, rfl, rfl, rfl⟩

end Sys2Proof.Machine
end

section
/-! The reset input (R230). Asserting it puts the reset values in place. While it is asserted no event reaches the registers
or the internal state, unless it puts the reset values there again; so once they are in place, they stay. -/

namespace Sys2Proof.Machine

/-- An engine of the build `b` whose registers and internal state are those of `State.reset`. -/
structure State.AtReset (b : Build) (s : State) : Prop where
  build : s.build = b
  regs : s.regs = Regs.reset
  eng : s.eng = Engine.reset

theorem State.AtReset.irq {b : Build} {s : State} (h : s.AtReset b) : s.irq = false :=
  State.irq_of_not_done (by rw [h.regs]; rfl)

/-- What leaves the build, the registers and the internal state alone keeps the reset values. -/
theorem State.AtReset.transfer {b : Build} {s t : State} (h : s.AtReset b) (hbuild : t.build = s.build)
    (hregs : t.regs = s.regs) (heng : t.eng = s.eng) : t.AtReset b :=
  ⟨hbuild.trans h.build, hregs.trans h.regs, heng.trans h.eng⟩

theorem State.Inv.atReset {s : State} (hs : s.Inv) (hr : s.world.resetLine = true) : s.AtReset s.build := by
  obtain ⟨hregs, heng⟩ := hs.held_in_reset hr
  exact ⟨rfl, hregs, heng⟩

theorem assertReset_atReset (s : State) : (assertReset s).AtReset s.build := by
  obtain ⟨hbuild, -, hregs, heng, -⟩ := assertReset_frame s
  exact ⟨hbuild, hregs, heng⟩

theorem assertReset_resetLine (s : State) : (assertReset s).world.resetLine = true := rfl

theorem releaseReset_atReset {s : State} (h : s.world.resetLine = true) : (releaseReset s).AtReset s.build := by
  rcases releaseReset_cases s with ⟨hlow, -⟩ | ⟨-, hrel⟩
  · simp [h] at hlow
  · rw [hrel]; exact ⟨rfl, rfl, rfl⟩

theorem releaseReset_resetLine (s : State) : (releaseReset s).world.resetLine = false := by
  rcases releaseReset_cases s with ⟨hlow, hrel⟩ | ⟨-, hrel⟩ <;> rw [hrel]
  · exact hlow
  · rfl

/-- While reset is asserted the engine stands still. -/
theorem engineTurn_inReset {s t : State} (hr : s.world.resetLine = true) (h : engineTurn s = .next t) : t = s := by
  rw [engineTurn_idle (.inl hr)] at h
  cases h
  rfl

/-- No event of the host, of another agent or of the platform moves an engine held in reset from the reset values, its
release included. -/
theorem takeEvent_inReset {b : Build} {e : Event} {s t : State} (hs : s.AtReset b) (hr : s.world.resetLine = true)
    (h : takeEvent e s = .next t) : t.AtReset b := by
  cases e with
  | engine => rwa [engineTurn_inReset hr h]
  | regRead a => rw [takeEvent_regRead_reset hr] at h; cases h; exact hs.transfer rfl rfl rfl
  | regWrite a d => rw [takeEvent_regWrite_reset hr] at h; cases h; exact hs.transfer rfl rfl rfl
  | irqSample =>
    cases h
    obtain ⟨hbuild, -, hregs, heng, -⟩ := hostIrq_frame s
    exact hs.transfer hbuild hregs heng
  | memRead a =>
    cases h
    obtain ⟨hbuild, -, hregs, heng, -⟩ := hostMemRead_frame a s
    exact hs.transfer hbuild hregs heng
  | memWrite a d =>
    cases h
    obtain ⟨hbuild, -, hregs, heng, -⟩ := hostMemWrite_frame a d s
    exact hs.transfer hbuild hregs heng
  | resetAssert => cases h; exact hs.build ▸ assertReset_atReset s
  | resetRelease => cases h; exact hs.build ▸ releaseReset_atReset hr
  | platformRegions rs => cases h; exact hs.transfer rfl rfl rfl

/-- Every step taken while reset is asserted ends with the reset values, and so does the step that releases it. -/
theorem step_inReset {s t : State} (hs : s.Inv) (hr : s.world.resetLine = true) (h : step s = .next t) :
    t.AtReset s.build := by
  have hreset := hs.atReset hr
  rcases step_next h with ⟨-, hturn⟩ | ⟨e, es, -, hevent⟩
  · rwa [engineTurn_inReset hr hturn]
  · exact takeEvent_inReset (s := s.withInputs es) (hreset.transfer rfl rfl rfl) hr hevent

/-- The step that asserts reset ends with the reset values, from any state. -/
theorem step_resetAssert_atReset {s t : State} {es : List Event} (hev : s.nextEvent .resetAssert es)
    (h : step s = .next t) : t.AtReset s.build := by
  rw [step_resetAssert hev] at h
  cases h
  exact assertReset_atReset (s.withInputs es)

/-- While reset is asserted no host transaction is taken: the step takes the event and answers so. -/
theorem step_hostAccess_reset {s : State} {es : List Event} {a : Access} {d : Word} (hr : s.world.resetLine = true)
    (hev : s.nextEvent (.regRead a) es ∨ s.nextEvent (.regWrite a d) es) :
    step s = .next ((s.withInputs es).respond .notTaken) :=
  hev.elim (step_regRead_reset · hr) (step_regWrite_reset · hr)

/-- Settles O10: a step that asserts reset, or is taken while reset is asserted, ends in `State.AtReset`, whose registers
hold the values of 10_state.md section 5; the other clauses are the equations of the three kinds of step. -/
theorem resetGivesEveryRegisterItsResetValue : Obligations.ResetGivesEveryRegisterItsResetValue := by
  unfold Obligations.ResetGivesEveryRegisterItsResetValue
  refine ⟨fun s t hcause h => ?values, fun s es hev => ?asserted, fun s es hev => ?released,
    fun s es a d hr hev => ?untaken⟩
  case values =>
    have hreset : t.AtReset s.build := by
      rcases hcause with ⟨es, hev⟩ | ⟨hs, hr⟩
      · exact step_resetAssert_atReset hev h
      · exact step_inReset hs hr h
    refine ⟨congrArg Engine.phase hreset.eng, hreset.irq, hreset.build, ?_⟩
    rw [hreset.regs]
    exact ⟨rfl, rfl, rfl, rfl, rfl, rfl, rfl, rfl, rfl, rfl, rfl, rfl, rfl⟩
  case asserted => exact ⟨_, step_resetAssert hev, assertReset_resetLine _⟩
  case released => exact ⟨_, step_resetRelease hev, releaseReset_resetLine _⟩
  case untaken => exact ⟨_, step_hostAccess_reset hr hev, rfl, rfl, rfl, hr⟩

end Sys2Proof.Machine
end

section
/-! Everything one step of the machine can do, said once: what the engine's turn makes of the command in flight
(`TurnOutcome`), what an event makes of the machine (`EventOutcome`), and that a step is one of these (`step_outcome`). What
holds of every step is then proved by a case split over the outcomes. -/

namespace Sys2Proof.Machine

/-! ### The engine's turn of the command in flight -/

/-- The buffer of the current block once the byte read in this step has arrived (R145). -/
def State.arrivedBytes (s : State) : Vector Byte 8 :=
  s.eng.rbuf.set s.eng.beat.val (s.mem.read s.eng.byteAddr) s.eng.beat.isLt

/-- The state after the eighth byte of a block has been read: the rounds are to come (R145). -/
def State.blockArrived (s : State) : State :=
  s.setEng (s.eng.blockLoaded (directionOf s.eng.lop) (loadBlock s.build.order s.arrivedBytes) s.arrivedBytes)

/-- The state after the eighth byte of a block has been written, before the block is counted (R148). -/
def State.lastByteStored (s : State) : State := s.setMem (s.mem.write s.eng.byteAddr (outByte s))

/-- The state after the last block has been written back in full and counted (R148, R205). -/
def State.buffersEnd (s : State) : State :=
  (s.lastByteStored.setRegs { s.regs with progress := BitVec.ofNat 32 (s.eng.bidx.toNat + 1) }).complete

/-- What one turn of the engine makes of the command in flight, before races are settled (R124, R145, R204, R205). -/
inductive TurnOutcome (s : State) : State → Prop where
  /-- The platform does not answer the byte access (R240). -/
  | unanswered {k : AccessKind} (hp : s.eng.phase = .bufRead ∨ s.eng.phase = .bufWrite)
      (hr : platformReply s.plat k s.eng.byteAddr = .neverAnswers) : TurnOutcome s s
  /-- A datapath round of either kind of command (R125). -/
  | round (hp : s.eng.phase.runsRounds = true) (hr : s.eng.rcnt ≠ 0#32) :
      TurnOutcome s (roundStep (directionOf s.eng.lop) s)
  /-- A single-block command ends (R120). -/
  | blockFinished (hp : s.eng.phase = .runBlock) (hr : s.eng.rcnt = 0#32) : TurnOutcome s (finishBlock s)
  /-- A byte is read that is not the block's last. -/
  | byteTaken (hp : s.eng.phase = .bufRead) (hbeat : s.eng.beat ≠ 7) : TurnOutcome s s.byteTaken
  /-- The block's last byte is read. -/
  | blockArrived (hp : s.eng.phase = .bufRead) (hbeat : s.eng.beat = 7) : TurnOutcome s s.blockArrived
  /-- A byte read fails (R67). -/
  | readFailed (hp : s.eng.phase = .bufRead) (ha : s.eng.byteAddr < Config.addrSpace) :
      TurnOutcome s (s.raiseBusError s.eng.byteAddr)
  /-- The rounds of a buffer command's block are over. -/
  | roundsOver (hp : s.eng.phase = .bufRounds) (hr : s.eng.rcnt = 0#32) :
      TurnOutcome s (s.setEng { s.eng with beat := 0, phase := .bufWrite })
  /-- A byte is written that is not the block's last. -/
  | byteStored (hp : s.eng.phase = .bufWrite) (ha : s.eng.byteAddr < Config.addrSpace) (hbeat : s.eng.beat ≠ 7) :
      TurnOutcome s s.byteStored
  /-- The block's last byte is written, and another block follows (R148). -/
  | nextBlock (hp : s.eng.phase = .bufWrite) (ha : s.eng.byteAddr < Config.addrSpace) (hbeat : s.eng.beat = 7)
      (hmore : s.eng.bidx.toNat + 1 < s.eng.lnb.toNat) : TurnOutcome s s.lastByteStored.toNextBlock
  /-- The last byte of the last block is written (R148, R205). -/
  | bufferFinished (hp : s.eng.phase = .bufWrite) (ha : s.eng.byteAddr < Config.addrSpace) (hbeat : s.eng.beat = 7)
      (hlast : s.eng.lnb.toNat ≤ s.eng.bidx.toNat + 1) : TurnOutcome s s.buffersEnd
  /-- A byte write fails (R67). -/
  | writeFailed (hp : s.eng.phase = .bufWrite) (ha : s.eng.byteAddr < Config.addrSpace) :
      TurnOutcome s ((s.halfWrite s.eng.byteAddr (outByte s)).raiseBusError s.eng.byteAddr)

/-- The arrival of a byte is one of its two outcomes. -/
theorem turnOutcome_byteRead {s : State} (hp : s.eng.phase = .bufRead) :
    TurnOutcome s (byteRead (directionOf s.eng.lop) s) := by
  rcases byteRead_cases (directionOf s.eng.lop) s with ⟨hbeat, h⟩ | ⟨hbeat, h⟩ <;> rw [h]
  · exact .byteTaken hp hbeat
  · exact .blockArrived hp hbeat

/-- The writing of a byte is one of its three outcomes. -/
theorem turnOutcome_byteWritten {s : State} (hp : s.eng.phase = .bufWrite) (ha : s.eng.byteAddr < Config.addrSpace) :
    TurnOutcome s (byteWritten s) := by
  rcases byteWritten_cases s with ⟨hbeat, h⟩ | ⟨hbeat, hmore, h⟩ | ⟨hbeat, hlast, h⟩ <;> rw [h]
  · exact .byteStored hp ha hbeat
  · exact .nextBlock hp ha hbeat hmore
  · exact .bufferFinished hp ha hbeat hlast

theorem advanceBlock_outcome {s t : State} (h : advanceBlock (directionOf s.eng.lop) s = .next t) :
    TurnOutcome s t := by
  obtain ⟨hp, ⟨hr, rfl⟩ | ⟨hr, rfl⟩⟩ := advanceBlock_next h
  · exact .blockFinished hp hr
  · exact .round (by rw [hp]; rfl) hr

theorem advanceBuffer_outcome {s t : State} (h : advanceBuffer (directionOf s.eng.lop) s = .next t) :
    TurnOutcome s t := by
  cases hp : s.eng.phase with
  | bufRead =>
    rw [advanceBuffer_bufRead hp] at h
    obtain ⟨ha, ⟨-, h⟩ | ⟨-, h⟩ | ⟨hr, rfl⟩⟩ := memAccess_next h
    · cases h; exact turnOutcome_byteRead hp
    · cases h; exact .readFailed hp ha
    · exact .unanswered (.inl hp) hr
  | bufRounds =>
    rw [advanceBuffer_bufRounds hp] at h
    split at h
    · next hr => cases h; exact .roundsOver hp hr
    · next hr => cases h; exact .round (by rw [hp]; rfl) hr
  | bufWrite =>
    rw [advanceBuffer_bufWrite hp] at h
    obtain ⟨ha, ⟨-, h⟩ | ⟨-, h⟩ | ⟨hr, rfl⟩⟩ := memAccess_next h
    · cases h; exact turnOutcome_byteWritten hp ha
    · cases h; exact .writeFailed hp ha
    · exact .unanswered (.inr hp) hr
  | idle => rcases advanceBuffer_next h with ⟨hq, -⟩ | ⟨hq, -⟩ | ⟨hq, -⟩ | ⟨hq, -⟩ <;> simp [hp] at hq
  | runBlock => rcases advanceBuffer_next h with ⟨hq, -⟩ | ⟨hq, -⟩ | ⟨hq, -⟩ | ⟨hq, -⟩ <;> simp [hp] at hq

/-- The command in flight, given its turn. -/
theorem exec_lop_outcome {s t : State} (hp : s.eng.phase ≠ .idle) (h : exec s.eng.lop s = .next t) :
    TurnOutcome s t := by
  rcases exec_next h with ⟨hidle, -⟩ | ⟨hidle, -⟩ | ⟨-, -, -, hblock⟩ | ⟨-, -, -, hbuf⟩ | ⟨-, hlop, -⟩
  · exact absurd hidle hp
  · exact absurd hidle hp
  · exact advanceBlock_outcome hblock
  · exact advanceBuffer_outcome hbuf
  · exact absurd rfl hlop

/-- Only a command in flight has a turn. -/
theorem TurnOutcome.busy {s t : State} (h : TurnOutcome s t) : s.eng.phase ≠ .idle := by
  intro hidle
  cases h with
  | unanswered hp => simp [hidle] at hp
  | round hp => simp [hidle, Phase.runsRounds] at hp
  | _ => simp_all

/-- Of the registers, the engine's turn reaches `V0`, `V1`, `PROGRESS`, `FAULTADDR`, `DONE` and `ERR` (R120, R148, R204). -/
theorem TurnOutcome.regs {s t : State} (h : TurnOutcome s t) :
    t.regs = { s.regs with
      v0 := t.regs.v0, v1 := t.regs.v1, progress := t.regs.progress, faultAddr := t.regs.faultAddr,
      done := t.regs.done, err := t.regs.err } := by
  cases h <;> rfl

/-- Of the world, the engine's turn reaches the count of draws alone (R67). -/
theorem TurnOutcome.frame {s t : State} (h : TurnOutcome s t) :
    t.build = s.build ∧ t.plat = s.plat ∧ t.world = { s.world with draws := t.world.draws } := by
  cases h <;> exact ⟨rfl, rfl, rfl⟩

/-! ### The events -/

/-- The event lets the host observe the end of every command so far (R71, R77, R234; log entry 12). -/
def State.ObservesEnd (s : State) (e : Event) : Prop :=
  (s.ready ∧ e = .regRead (regAccess s.plat.regBase .status)) ∨ (s.irq = true ∧ e = .irqSample)

/-- What the event `e` makes of the machine. -/
inductive EventOutcome (s : State) : Event → State → Prop where
  /-- The engine has nothing to do in its turn (R219, R230, R232). -/
  | rested (h : s.world.resetLine = true ∨ s.eng.phase = .idle) : EventOutcome s .engine s
  /-- The engine's turn of the command in flight, and the races settled where it ends. -/
  | advanced {t : State} (hr : s.world.resetLine = false) (h : TurnOutcome s t) : EventOutcome s .engine (settleRaces t)
  /-- An answer to the host or another agent, which may end the exclusive access to every range. -/
  | answered {e : Event} {p : HostResp} {k : Nat} {ws : List Window}
      (hws : ws = s.world.windows ∨ (ws = [] ∧ s.ObservesEnd e)) :
      EventOutcome s e (s.setWorld { s.world with resp := p, draws := k, windows := ws })
  /-- A host write at a register of an idle engine that issues no command (R184). -/
  | wroteIdle {r : Reg} {d : Word} (hs : s.ready) (hr : r ≠ .cmd) :
      EventOutcome s (.regWrite (regAccess s.plat.regBase r) d) ((writeRegIdle r d s).respond .written)
  /-- A host write at a register of a busy engine (R185). -/
  | wroteBusy {r : Reg} {d : Word} (hp : s.eng.phase ≠ .idle) :
      EventOutcome s (.regWrite (regAccess s.plat.regBase r) d) ((writeRegBusy r d s).respond .written)
  /-- The word of a single-block command at `CMD` of an idle engine (R186, R200). -/
  | acceptedBlock {i : Instr} (hi : i = .encBlock ∨ i = .decBlock) (hs : s.ready) :
      EventOutcome s (.regWrite (regAccess s.plat.regBase .cmd) (encode i))
        (startBlock i (directionOf i) (s.respond .written))
  /-- The word of a buffer command at `CMD` of an idle engine (R186, R200). -/
  | acceptedBuffer {i : Instr} (hi : i = .encBuf ∨ i = .decBuf) (hs : s.ready) :
      EventOutcome s (.regWrite (regAccess s.plat.regBase .cmd) (encode i)) (startBuffer i (s.respond .written))
  /-- An illegal word at `CMD` of an idle engine (R201). -/
  | illegal {w : Word} (hs : s.ready) :
      EventOutcome s (.regWrite (regAccess s.plat.regBase .cmd) w) (s.respond .written).illegalWord
  /-- A byte of memory written by another agent (R77). -/
  | memWritten {a : BitVec 32} {b : Byte} : EventOutcome s (.memWrite a b) (hostMemWrite a b s)
  | resetAsserted : EventOutcome s .resetAssert (assertReset s)
  | resetReleased (hr : s.world.resetLine = true) :
      EventOutcome s .resetRelease (s.resetEngine.setWorld { s.world with resetLine := false })
  | resetNotHeld : EventOutcome s .resetRelease s
  /-- The platform changes its answers. -/
  | configured {rs : List Region} :
      EventOutcome s (.platformRegions rs) { s with plat := { s.plat with regions := rs } }

theorem EventOutcome.respond (s : State) (e : Event) (p : HostResp) : EventOutcome s e (s.respond p) :=
  .answered (k := s.world.draws) (.inl rfl)

theorem engineTurn_outcome {s t : State} (h : engineTurn s = .next t) : EventOutcome s .engine t := by
  rcases engineTurn_next h with ⟨hrest, rfl⟩ | ⟨hr, hp, u, hu, rfl⟩
  · exact .rested hrest
  · exact .advanced hr (exec_lop_outcome hp hu)

theorem hostRead_outcome (a : Access) {s : State} (hr : s.world.resetLine = false) :
    EventOutcome s (.regRead a) (hostRead a s) := by
  unfold hostRead
  split
  · exact .respond s _ _
  · exact .respond s _ _
  · exact .respond s _ _
  · next r htarget =>
    split
    · next hobs =>
      obtain ⟨rfl, hidle⟩ : r = .status ∧ s.busy = false := by simpa [observesEnd] using hobs
      have hready : s.ready := ⟨State.not_busy_iff.mp hidle, hr⟩
      exact .answered (k := s.world.draws) (.inr ⟨rfl, .inl ⟨hready, by rw [accessTarget_register htarget]⟩⟩)
    · exact .respond s _ _

theorem hostIrq_outcome (s : State) : EventOutcome s .irqSample (hostIrq s) := by
  unfold hostIrq
  dsimp only
  split
  · next h => exact .answered (k := s.world.draws) (.inr ⟨rfl, .inr ⟨h, rfl⟩⟩)
  · exact .respond s _ _

theorem hostMemRead_outcome (a : BitVec 32) (s : State) : EventOutcome s (.memRead a) (hostMemRead a s) := by
  unfold hostMemRead
  split
  · exact .respond s _ _
  · exact .answered (.inl rfl)

theorem hostWrite_outcome (a : Access) (d : Word) {s : State} (hr : s.world.resetLine = false)
    (hc : issuesCommand a s = false) : EventOutcome s (.regWrite a d) (hostWrite a d s) := by
  cases htarget : accessTarget s.plat.regBase a with
  | outside => unfold hostWrite; rw [htarget]; exact .respond s _ _
  | erroneous => rw [hostWrite_erroneous d htarget]; exact .respond s _ _
  | reserved => rw [hostWrite_reserved d htarget]; exact .respond s _ _
  | register r =>
    obtain rfl := accessTarget_register htarget
    by_cases hp : s.eng.phase = .idle
    · rw [hostWrite_idle r d hp]
      refine .wroteIdle ⟨hp, hr⟩ ?_
      rintro rfl
      rw [issuesCommand_iff.mpr ⟨hp, rfl⟩] at hc
      cases hc
    · rw [hostWrite_busy r d hp]
      exact .wroteBusy hp

theorem issueCommand_outcome {w : Word} {s t : State} (hs : s.ready)
    (h : issueCommand w (s.respond .written) = .next t) :
    EventOutcome s (.regWrite (regAccess s.plat.regBase .cmd) w) t := by
  cases hw : decode w with
  | error e =>
    rw [issueCommand_error hw] at h
    cases h
    exact .illegal hs
  | ok i =>
    obtain rfl := decode_eq_ok_iff_eq_encode.mp hw
    rw [issueCommand_ok hw] at h
    rcases block_or_buffer i with hi | hi
    · rw [exec_block_idle hi (s := s.respond .written) hs.1] at h
      cases h
      exact .acceptedBlock hi hs
    · rw [exec_buffer_idle hi (s := s.respond .written) hs.1] at h
      cases h
      exact .acceptedBuffer hi hs

theorem takeEvent_outcome {e : Event} {s t : State} (h : takeEvent e s = .next t) : EventOutcome s e t := by
  cases e with
  | engine => exact engineTurn_outcome h
  | regRead a =>
    cases hr : s.world.resetLine with
    | true => rw [takeEvent_regRead_reset hr] at h; cases h; exact .respond s _ _
    | false => rw [takeEvent_regRead hr] at h; cases h; exact hostRead_outcome a hr
  | regWrite a d =>
    cases hr : s.world.resetLine with
    | true => rw [takeEvent_regWrite_reset hr] at h; cases h; exact .respond s _ _
    | false =>
      cases hc : issuesCommand a s with
      | true =>
        obtain ⟨hp, rfl⟩ := issuesCommand_iff.mp hc
        rw [takeEvent_command hr hc] at h
        exact issueCommand_outcome ⟨hp, hr⟩ h
      | false => rw [takeEvent_regWrite hr hc] at h; cases h; exact hostWrite_outcome a d hr hc
  | irqSample => cases h; exact hostIrq_outcome s
  | memRead a => cases h; exact hostMemRead_outcome a s
  | memWrite a b => cases h; exact .memWritten
  | resetAssert => cases h; exact .resetAsserted
  | resetRelease =>
    cases h
    rcases releaseReset_cases s with ⟨-, h⟩ | ⟨hr, h⟩ <;> rw [h]
    · exact .resetNotHeld
    · exact .resetReleased hr
  | platformRegions rs => cases h; exact .configured

/-! ### The step -/

/-- `e` is the event that the next step takes, and `es` come after it; with none left it is the engine's turn (R182, log
entry 6). -/
def State.Takes (s : State) (e : Event) (es : List Event) : Prop :=
  s.nextEvent e es ∨ (e = .engine ∧ es = [] ∧ s.world.inputs = [])

/-- Only the engine's turn can come without an event. -/
theorem State.Takes.nextEvent {s : State} {e : Event} {es : List Event} (h : s.Takes e es) (he : e ≠ .engine) :
    s.nextEvent e es :=
  h.resolve_right fun hturn => he hturn.1

/-- Every step is the outcome of the event it takes. -/
theorem step_outcome {s t : State} (h : step s = .next t) :
    ∃ e es, s.Takes e es ∧ EventOutcome (s.withInputs es) e t := by
  rcases step_next h with ⟨hnil, hturn⟩ | ⟨e, es, hev, hevent⟩
  · have hself : s.withInputs [] = s := by rw [← hnil]; rfl
    exact ⟨.engine, [], .inr ⟨rfl, rfl, hnil⟩, by rw [hself]; exact engineTurn_outcome hturn⟩
  · exact ⟨e, es, .inl hev, takeEvent_outcome hevent⟩

end Sys2Proof.Machine
end

section
/-! `State.Inv` and `State.DatapathInv` are kept by every outcome of a step. An idle engine meets most of `State.Inv` for free;
a turn that leaves a buffer command running changes the iterator and the datapath alone; and a turn that ends a command
leaves an idle engine with its races settled. -/

namespace Sys2Proof.Machine

/-! ### The invariant of an idle engine, and of a buffer command that goes on -/

/-- What an idle engine still has to meet. -/
theorem State.Inv.of_idle {s : State} (hp : s.eng.phase = .idle) (hmem : s.mem.wf) (hraced : s.world.raced = [])
    (hwindows : ∀ w ∈ s.world.windows, w.base + 8 * w.blocks ≤ Config.addrSpace)
    (hreset : s.world.resetLine = true → s.regs = Regs.reset ∧ s.eng = Engine.reset) : s.Inv where
  mem_wf := hmem
  phase_fits := by rw [hp]; rfl
  busy_flags := fun h => absurd hp h
  busy_operands := fun h => absurd hp h
  buffer_range := fun h => by simp [hp, Phase.ofBuffer] at h
  rounds_left := fun h => by simp [hp, Phase.runsRounds] at h
  idle_raced := fun _ => hraced
  windows_fit := hwindows
  raced_fit := by simp [hraced]
  held_in_reset := hreset

/-- A busy engine is not held in reset. -/
theorem State.Inv.released_of_busy {s : State} (hs : s.Inv) (hp : s.eng.phase ≠ .idle) : s.world.resetLine = false := by
  by_contra h
  obtain ⟨-, heng⟩ := hs.held_in_reset (by simpa using h)
  exact hp (by rw [heng]; rfl)

/-- In a phase of the buffer commands the command in flight is one of them. -/
theorem State.Inv.bufferCommand {s : State} (hs : s.Inv) (hp : s.eng.phase.ofBuffer = true) :
    isBufferCommand s.eng.lop = true := by
  have hfits := hs.phase_fits
  cases hq : s.eng.phase <;> rw [hq] at hp hfits
  case idle => cases hp
  case runBlock => cases hp
  all_goals exact hfits

theorem Phase.ne_idle_of_ofBuffer {p : Phase} (h : p.ofBuffer = true) : p ≠ .idle := by
  rintro rfl
  cases h

/-- A buffer command that goes on keeps the invariant where the iterator stays in the range, `PROGRESS` counts its blocks and
the rounds left are at most `R`. -/
theorem State.Inv.buffer_goesOn {s t : State} (hs : s.Inv) (hp : s.eng.phase.ofBuffer = true)
    (hq : t.eng.phase.ofBuffer = true)
    (heng : t.eng = { s.eng with
      w0 := t.eng.w0, w1 := t.eng.w1, sum := t.eng.sum, rcnt := t.eng.rcnt, bidx := t.eng.bidx, phase := t.eng.phase,
      beat := t.eng.beat, rbuf := t.eng.rbuf })
    (hregs : t.regs = { s.regs with progress := t.regs.progress }) (hworld : t.world = s.world) (hmem : t.mem.wf)
    (hidx : t.eng.bidx.toNat < s.eng.lnb.toNat) (hprogress : t.regs.progress.toNat = t.eng.bidx.toNat)
    (hrounds : t.eng.phase = .bufRounds → t.eng.rcnt.toNat ≤ s.eng.lr.toNat) : t.Inv := by
  have hbusy := Phase.ne_idle_of_ofBuffer hp
  have hbusy' := Phase.ne_idle_of_ofBuffer hq
  obtain ⟨hbase, hlnb, hok, -, -⟩ := hs.buffer_range hp
  refine ⟨hmem, ?fits, fun _ => ?flags, fun _ => ?operands, fun _ => ?range, fun hruns => ?rounds,
    fun hidle => absurd hidle hbusy', hworld ▸ hs.windows_fit, hworld ▸ hs.raced_fit, fun hreset => ?reset⟩
  case fits =>
    have hlop : isBufferCommand t.eng.lop = true := by rw [heng]; exact hs.bufferCommand hp
    cases hphase : t.eng.phase with
    | idle => rfl
    | runBlock => rw [hphase] at hq; cases hq
    | bufRead => exact hlop
    | bufRounds => exact hlop
    | bufWrite => exact hlop
  case flags => rw [hregs]; exact hs.busy_flags hbusy
  case operands => rw [heng, hregs]; exact hs.busy_operands hbusy
  case range =>
    have hlbase : t.eng.lbase = s.eng.lbase := by rw [heng]
    have hcount : t.eng.lnb = s.eng.lnb := by rw [heng]
    refine ⟨hlbase.trans (by rw [hbase, hregs]), by rw [hcount, hregs]; exact hlnb, by rw [hregs]; exact hok,
      hcount ▸ hidx, hprogress⟩
  case rounds =>
    have hlr : t.eng.lr = s.eng.lr := by rw [heng]
    have hphase : t.eng.phase = .bufRounds := by
      cases hphase : t.eng.phase <;> rw [hphase] at hq hruns
      case runBlock => cases hq
      all_goals cases hruns
    exact hlr ▸ hrounds hphase
  case reset =>
    rw [hworld, hs.released_of_busy hbusy] at hreset
    cases hreset

/-- Settling the races after the end of a command restores the invariant. -/
theorem State.Inv.settled_of_idle {s : State} (hp : s.eng.phase = .idle) (hmem : s.mem.wf)
    (hwindows : ∀ w ∈ s.world.windows, w.base + 8 * w.blocks ≤ Config.addrSpace)
    (hraced : ∀ a ∈ s.world.raced, a + 8 ≤ Config.addrSpace) (hreset : s.world.resetLine = false) :
    (settleRaces s).Inv := by
  obtain ⟨-, -, -, heng, -, -, hline, hws⟩ := settleRaces_frame s
  exact .of_idle (by rw [heng]; exact hp) (settleRaces_wf hmem hraced) (settleRaces_idle hp) (hws ▸ hwindows)
    (by rw [hline, hreset]; nofun)

/-- A failed byte write keeps memory's canonical form (R67). -/
theorem State.halfWrite_wf {s : State} {a : Nat} (b : Byte) (hmem : s.mem.wf) (ha : a < Config.addrSpace) :
    (s.halfWrite a b).mem.wf := by
  rw [State.halfWrite_mem]
  split
  · exact Memory.wf_write b hmem ha
  · exact hmem

/-! ### The engine's turn -/

/-- A round leaves fewer rounds to run. -/
theorem toNat_sub_one {r : Word} (hr : r ≠ 0#32) : (r - 1#32).toNat + 1 = r.toNat := by bv_omega

theorem State.Inv.afterRound {s : State} (hs : s.Inv) (hp : s.eng.phase.runsRounds = true) (hr : s.eng.rcnt ≠ 0#32) :
    (roundStep (directionOf s.eng.lop) s).Inv where
  mem_wf := hs.mem_wf
  phase_fits := hs.phase_fits
  busy_flags := hs.busy_flags
  busy_operands := hs.busy_operands
  buffer_range := hs.buffer_range
  rounds_left := fun _ => by
    have hleft := hs.rounds_left hp
    have hone := toNat_sub_one hr
    change (s.eng.rcnt - 1#32).toNat ≤ s.eng.lr.toNat
    omega
  idle_raced := hs.idle_raced
  windows_fit := hs.windows_fit
  raced_fit := hs.raced_fit
  held_in_reset := fun h => by
    have hbusy : s.eng.phase ≠ .idle := fun hidle => by rw [hidle] at hp; cases hp
    have hreset := hs.released_of_busy hbusy
    rw [roundStep_world, hreset] at h
    cases h

/-- Each turn keeps the invariant: the iterator by `buffer_goesOn`, a round by `afterRound`, an end by settling the races. -/
theorem TurnOutcome.inv {s t : State} (h : TurnOutcome s t) (hs : s.Inv) : (settleRaces t).Inv := by
  have hbusy := h.busy
  have hreset := hs.released_of_busy hbusy
  have goesOn {u : State} (hp : u.eng.phase ≠ .idle) (hu : u.Inv) : (settleRaces u).Inv := by
    rwa [settleRaces_eq_self (.inl hp)]
  have iterator {p : Phase} (hp : s.eng.phase = p) (hq : p.ofBuffer = true) : s.eng.phase.ofBuffer = true ∧
      s.eng.bidx.toNat < s.eng.lnb.toNat ∧ s.regs.progress.toNat = s.eng.bidx.toNat := by
    rw [← hp] at hq
    obtain ⟨-, -, -, hidx, hprogress⟩ := hs.buffer_range hq
    exact ⟨hq, hidx, hprogress⟩
  cases h with
  | unanswered => exact goesOn hbusy hs
  | round hp hr => exact goesOn hbusy (hs.afterRound hp hr)
  | blockFinished => exact .settled_of_idle rfl hs.mem_wf hs.windows_fit hs.raced_fit hreset
  | byteTaken hp =>
    obtain ⟨hbuf, hidx, hprogress⟩ := iterator hp rfl
    exact goesOn hbusy (hs.buffer_goesOn hbuf hbuf rfl rfl rfl hs.mem_wf hidx hprogress
      fun hrounds => absurd (hp.symm.trans hrounds) nofun)
  | blockArrived hp =>
    obtain ⟨hbuf, hidx, hprogress⟩ := iterator hp rfl
    exact goesOn nofun (hs.buffer_goesOn hbuf rfl rfl rfl rfl hs.mem_wf hidx hprogress fun _ => le_rfl)
  | readFailed => exact .settled_of_idle rfl hs.mem_wf hs.windows_fit hs.raced_fit hreset
  | roundsOver hp =>
    obtain ⟨hbuf, hidx, hprogress⟩ := iterator hp rfl
    exact goesOn nofun (hs.buffer_goesOn hbuf rfl rfl rfl rfl hs.mem_wf hidx hprogress nofun)
  | byteStored hp ha =>
    obtain ⟨hbuf, hidx, hprogress⟩ := iterator hp rfl
    exact goesOn hbusy (hs.buffer_goesOn hbuf hbuf rfl rfl rfl (Memory.wf_write _ hs.mem_wf ha) hidx hprogress
      fun hrounds => absurd (hp.symm.trans hrounds) nofun)
  | nextBlock hp ha _ hmore =>
    obtain ⟨hbuf, -, -⟩ := iterator hp rfl
    have hnext : s.lastByteStored.toNextBlock.eng.bidx.toNat = s.eng.bidx.toNat + 1 :=
      State.toNextBlock_bidx (s := s.lastByteStored) hmore
    have hprogress : (BitVec.ofNat 32 (s.eng.bidx.toNat + 1)).toNat = s.eng.bidx.toNat + 1 := by
      have := s.eng.bidx.isLt
      rw [BitVec.toNat_ofNat]
      omega
    exact goesOn nofun (hs.buffer_goesOn hbuf rfl rfl rfl rfl (Memory.wf_write _ hs.mem_wf ha)
      (by rw [hnext]; exact hmore) (hprogress.trans hnext.symm) nofun)
  | bufferFinished _ ha =>
    exact .settled_of_idle rfl (Memory.wf_write _ hs.mem_wf ha) hs.windows_fit hs.raced_fit hreset
  | writeFailed _ ha =>
    exact .settled_of_idle rfl (State.halfWrite_wf _ hs.mem_wf ha) hs.windows_fit hs.raced_fit hreset

/-! ### The events -/

/-- What reaches no more than the answer, the draws, and the windows by closing them, keeps the invariant. -/
theorem State.Inv.answered {s : State} (hs : s.Inv) {p : HostResp} {k : Nat} {ws : List Window}
    (hws : ws = s.world.windows ∨ ws = []) :
    (s.setWorld { s.world with resp := p, draws := k, windows := ws }).Inv where
  mem_wf := hs.mem_wf
  phase_fits := hs.phase_fits
  busy_flags := hs.busy_flags
  busy_operands := hs.busy_operands
  buffer_range := hs.buffer_range
  rounds_left := hs.rounds_left
  idle_raced := hs.idle_raced
  windows_fit := by
    rcases hws with rfl | rfl
    · exact hs.windows_fit
    · nofun
  raced_fit := hs.raced_fit
  held_in_reset := hs.held_in_reset

theorem State.Inv.withInputs {s : State} (hs : s.Inv) (es : List Event) : (s.withInputs es).Inv :=
  ⟨hs.mem_wf, hs.phase_fits, hs.busy_flags, hs.busy_operands, hs.buffer_range, hs.rounds_left, hs.idle_raced,
    hs.windows_fit, hs.raced_fit, hs.held_in_reset⟩

/-- A write at a busy engine's registers changes flags alone, and never sets `DONE` (R185, R187). -/
theorem writeRegBusy_regs_eq (r : Reg) (d : Word) (s : State) :
    (writeRegBusy r d s).regs =
      { s.regs with done := (writeRegBusy r d s).regs.done, wign := (writeRegBusy r d s).regs.wign } ∧
    (s.regs.done = false → (writeRegBusy r d s).regs.done = false) := by
  rcases writeRegBusy_regs r d s with h | h | ⟨-, h⟩ <;> rw [h]
  · exact ⟨rfl, id⟩
  · exact ⟨rfl, id⟩
  · exact ⟨rfl, fun hdone => by simp [hdone]⟩

theorem State.Inv.wroteBusy {s : State} (hs : s.Inv) (hp : s.eng.phase ≠ .idle) (r : Reg) (d : Word) :
    ((writeRegBusy r d s).respond .written).Inv := by
  obtain ⟨-, -, -, -, -, heng, hmem, -, -, hworld⟩ := writeReg_frame r d s
  obtain ⟨hregs, hdone⟩ := writeRegBusy_regs_eq r d s
  obtain ⟨hflag, herr⟩ := hs.busy_flags hp
  refine ⟨hmem ▸ hs.mem_wf, ?fits, fun _ => ⟨hdone hflag, ?err⟩, fun _ => ?operands, ?range, ?rounds,
    fun hidle => absurd (by rwa [← heng]) hp, ?windows, ?raced, fun hreset => ?reset⟩
  all_goals simp only [State.respond_eng, State.respond_regs, State.respond_world, heng, hworld] at *
  case fits => exact hs.phase_fits
  case err => rw [hregs]; exact herr
  case operands => rw [hregs]; exact hs.busy_operands hp
  case range => rw [hregs]; exact hs.buffer_range
  case rounds => exact hs.rounds_left
  case windows => exact hs.windows_fit
  case raced => exact hs.raced_fit
  case reset => simp [hs.released_of_busy hp] at hreset

/-- A write at an idle engine's registers (R184). -/
theorem State.Inv.wroteIdle {s : State} (hs : s.Inv) (hready : s.ready) (r : Reg) (d : Word) :
    ((writeRegIdle r d s).respond .written).Inv := by
  obtain ⟨hp, hreset⟩ := hready
  obtain ⟨heng, hmem, -, -, hworld, -⟩ := writeReg_frame r d s
  refine .of_idle ?_ (hmem ▸ hs.mem_wf) ?_ ?_ ?_
  all_goals simp only [State.respond_eng, State.respond_world, heng, hworld]
  · exact hp
  · exact hs.idle_raced hp
  · exact hs.windows_fit
  · simp [hreset]

theorem State.Inv.acceptedBlock {s : State} (hs : s.Inv) (hready : s.ready) {i : Instr}
    (hi : i = .encBlock ∨ i = .decBlock) : (startBlock i (directionOf i) s).Inv where
  mem_wf := hs.mem_wf
  phase_fits := isBlockCommand_iff.mpr hi
  busy_flags := fun _ => ⟨rfl, rfl⟩
  busy_operands := fun _ => ⟨rfl, rfl⟩
  buffer_range := nofun
  rounds_left := fun _ => le_rfl
  idle_raced := nofun
  windows_fit := hs.windows_fit
  raced_fit := hs.raced_fit
  held_in_reset := fun h => by rw [startBlock_world, hready.2] at h; cases h

/-- An iteration begins inside the range that the checks accepted (R143, R145). -/
theorem State.Inv.acceptedIteration {s : State} (hs : s.Inv) (hready : s.ready) {i : Instr}
    (hi : i = .encBuf ∨ i = .decBuf) (hok : s.regs.bufferOk) (hn : blockCount s.regs.size ≠ 0) :
    (startIteration (acceptBuffer i s)).Inv where
  mem_wf := hs.mem_wf
  phase_fits := isBufferCommand_iff.mpr hi
  busy_flags := fun _ => ⟨rfl, rfl⟩
  busy_operands := fun _ => ⟨rfl, rfl⟩
  buffer_range := fun _ => by
    have hlnb := toNat_ofNat_blockCount s.regs.size
    refine ⟨rfl, hlnb, hok, ?_, rfl⟩
    change 0 < (BitVec.ofNat 30 (blockCount s.regs.size)).toNat
    omega
  rounds_left := nofun
  idle_raced := nofun
  windows_fit := fun w hw => by
    rcases List.mem_cons.mp hw with rfl | hw
    · exact outOfRange_eq_false.mp hok.2
    · exact hs.windows_fit w hw
  raced_fit := hs.raced_fit
  held_in_reset := fun h => by
    rw [startIteration_world, acceptBuffer_world, hready.2] at h
    cases h

theorem State.Inv.acceptedBuffer {s : State} (hs : s.Inv) (hready : s.ready) {i : Instr}
    (hi : i = .encBuf ∨ i = .decBuf) : (startBuffer i s).Inv := by
  have ended {t : State} (hp : t.eng.phase = .idle) (hmem : t.mem = s.mem) (hworld : t.world = s.world) : t.Inv :=
    .of_idle hp (hmem ▸ hs.mem_wf) (hworld ▸ hs.idle_raced hready.1) (hworld ▸ hs.windows_fit)
      (by rw [hworld, hready.2]; nofun)
  rcases startBuffer_cases i s with ⟨-, h⟩ | ⟨-, -, h⟩ | ⟨-, -, h⟩ | ⟨hok, hn, h⟩ <;> rw [h]
  · exact ended rfl rfl rfl
  · exact ended rfl rfl rfl
  · exact ended rfl rfl rfl
  · exact hs.acceptedIteration hready hi hok hn

/-- The blocks another agent writes into lie inside the address space (R77). -/
theorem State.Inv.ownedBlocks_fit {s : State} (hs : s.Inv) (a : Nat) : ∀ b ∈ s.ownedBlocks a, b + 8 ≤ Config.addrSpace := by
  intro b hb
  obtain ⟨w, hw, -, -, -, -, hfit⟩ := mem_ownedBlocks hb
  exact hfit.trans (hs.windows_fit w hw)

theorem State.Inv.memWritten {s : State} (hs : s.Inv) (a : BitVec 32) (b : Byte) : (hostMemWrite a b s).Inv := by
  obtain ⟨-, -, hregs, heng, hmem, k, hworld⟩ := hostMemWrite_frame a b s
  have howned := hs.ownedBlocks_fit a.toNat
  refine ⟨?mem, heng ▸ hs.phase_fits, ?flags, ?operands, ?range, heng ▸ hs.rounds_left, fun hidle => ?idle, ?windows,
    ?raced, ?reset⟩
  case mem => rw [hmem]; exact scrambleBlocks_wf (Memory.wf_write b hs.mem_wf a.isLt) howned
  case flags => rw [heng, hregs]; exact hs.busy_flags
  case operands => rw [heng, hregs]; exact hs.busy_operands
  case range => rw [heng, hregs]; exact hs.buffer_range
  case idle =>
    rw [heng] at hidle
    simp [hworld, State.not_busy_iff.mpr hidle, hs.idle_raced hidle]
  case windows => rw [hworld]; exact hs.windows_fit
  case raced =>
    rw [hworld]
    dsimp only
    split
    · exact fun x hx => (List.mem_append.mp hx).elim (howned x) (hs.raced_fit x)
    · exact hs.raced_fit
  case reset => rw [hworld, heng, hregs]; exact hs.held_in_reset

theorem State.Inv.resetAsserted {s : State} (hs : s.Inv) : (assertReset s).Inv := by
  obtain ⟨-, -, hregs, heng, -, -, hws, hraced⟩ := assertReset_frame s
  have hcut : (cutWrite s).mem.wf ∧ (cutWrite s).world.raced = s.world.raced := by
    rcases cutWrite_cases s with h | ⟨-, ha, h⟩ <;> rw [h]
    · exact ⟨hs.mem_wf, rfl⟩
    · exact ⟨State.halfWrite_wf _ hs.mem_wf ha, rfl⟩
  have hmem : (assertReset s).mem.wf :=
    settleRaces_wf (s := (cutWrite s).resetEngine) hcut.1 (hcut.2 ▸ hs.raced_fit)
  exact .of_idle (by rw [heng]; rfl) hmem hraced (by rw [hws]; nofun) fun _ => ⟨hregs, heng⟩

theorem EventOutcome.inv {e : Event} {s t : State} (h : EventOutcome s e t) (hs : s.Inv) : t.Inv := by
  have hanswer : (s.respond .written).Inv := hs.answered (.inl rfl)
  cases h with
  | rested => exact hs
  | advanced _ hturn => exact hturn.inv hs
  | answered hws => exact hs.answered (hws.imp_right And.left)
  | wroteIdle hready => exact hs.wroteIdle hready _ _
  | wroteBusy hp => exact hs.wroteBusy hp _ _
  | acceptedBlock hi hready => exact hanswer.acceptedBlock hready hi
  | acceptedBuffer hi hready => exact hanswer.acceptedBuffer hready hi
  | illegal hready =>
    exact .of_idle hready.1 hs.mem_wf (hs.idle_raced hready.1) hs.windows_fit fun h => by
      rw [State.illegalWord_world, State.respond_world, hready.2] at h
      cases h
  | memWritten => exact hs.memWritten _ _
  | resetAsserted => exact hs.resetAsserted
  | resetReleased hr =>
    obtain ⟨-, heng⟩ := hs.held_in_reset hr
    exact .of_idle rfl hs.mem_wf (hs.idle_raced (by rw [heng]; rfl)) hs.windows_fit nofun
  | resetNotHeld => exact hs
  | configured =>
    exact ⟨hs.mem_wf, hs.phase_fits, hs.busy_flags, hs.busy_operands, hs.buffer_range, hs.rounds_left, hs.idle_raced,
      hs.windows_fit, hs.raced_fit, hs.held_in_reset⟩

theorem State.Inv.of_step {s t : State} (hs : s.Inv) (h : step s = .next t) : t.Inv := by
  obtain ⟨e, es, -, hout⟩ := step_outcome h
  exact hout.inv (hs.withInputs es)

/-- Settles O40: each outcome of a step keeps the invariant. -/
theorem stepKeepsInvariant : Obligations.StepKeepsInvariant := by
  unfold Obligations.StepKeepsInvariant
  exact fun _ _ hs h => hs.of_step h

end Sys2Proof.Machine
end

section
/-! `State.DatapathInv` is kept by every outcome of a step: it speaks of the phases that run rounds or write a block back, and
there only the engine's own turn reaches the datapath. With it, a single-block command's end holds the transform. -/

namespace Sys2Proof.Machine

/-- In the other phases there is nothing to meet. -/
theorem State.DatapathInv.of_phase {s : State} (hp : s.eng.phase = .idle ∨ s.eng.phase = .bufRead) : s.DatapathInv := by
  refine ⟨fun h => ?_, fun h => ?_, fun h => ?_⟩ <;> simp [h] at hp

/-- What leaves the build, the internal state and `V0`, `V1` alone leaves the datapath on its way. -/
theorem State.DatapathInv.transfer {s t : State} (hs : s.DatapathInv) (hbuild : t.build = s.build) (heng : t.eng = s.eng)
    (hv0 : t.regs.v0 = s.regs.v0) (hv1 : t.regs.v1 = s.regs.v1) : t.DatapathInv := by
  have hremaining : t.remaining = s.remaining := by rw [State.remaining, hbuild, heng]; rfl
  refine ⟨?_, ?_, ?_⟩ <;> rw [heng, hbuild]
  · rw [hremaining, hv0, hv1]; exact hs.block_rounds
  · rw [hremaining]; exact hs.buffer_rounds
  · exact hs.buffer_write

/-- With no round left, what remains is what the datapath holds. -/
theorem State.remaining_of_done {s : State} (hr : s.eng.rcnt = 0#32) :
    s.remaining = ⟨s.eng.w0, s.eng.w1, s.eng.sum⟩ := by
  rw [State.remaining, hr]; rfl

/-- With no round left, the datapath's block is the transform that the rounds were to give. -/
theorem State.block_of_done {s : State} {c : CipherStructure} {d : Direction} {b : Block} {k : Key} {r : Word}
    (hr : s.eng.rcnt = 0#32) (h : s.remaining = runRounds c d b k r) : s.eng.block = transform c d b k r := by
  rw [transform, ← h, State.remaining_of_done hr]; rfl

theorem State.DatapathInv.afterRound {s : State} (hs : s.DatapathInv) (hp : s.eng.phase.runsRounds = true)
    (hr : s.eng.rcnt ≠ 0#32) : (roundStep (directionOf s.eng.lop) s).DatapathInv := by
  refine ⟨fun h => ?_, fun h => ?_, fun h => ?_⟩
  · rw [roundStep_remaining hr]; exact hs.block_rounds h
  · rw [roundStep_remaining hr]; exact hs.buffer_rounds h
  · change s.eng.phase = .bufWrite at h
    rw [h] at hp
    cases hp

theorem TurnOutcome.datapathInv {s t : State} (h : TurnOutcome s t) (hs : s.DatapathInv) :
    (settleRaces t).DatapathInv := by
  suffices ht : t.DatapathInv by
    obtain ⟨hbuild, -, hregs, heng, -⟩ := settleRaces_frame t
    exact ht.transfer hbuild heng (by rw [hregs]) (by rw [hregs])
  cases h with
  | unanswered => exact hs
  | round hp hr => exact hs.afterRound hp hr
  | blockFinished => exact .of_phase (.inl rfl)
  | byteTaken hp => exact .of_phase (.inr hp)
  | blockArrived => exact ⟨nofun, fun _ => rfl, nofun⟩
  | readFailed => exact .of_phase (.inl rfl)
  | roundsOver hp hr => exact ⟨nofun, nofun, fun _ => State.block_of_done hr (hs.buffer_rounds hp)⟩
  | byteStored hp =>
    refine ⟨fun h => ?_, fun h => ?_, fun _ => hs.buffer_write hp⟩ <;> change s.eng.phase = _ at h <;>
      rw [hp] at h <;> cases h
  | nextBlock => exact .of_phase (.inr rfl)
  | bufferFinished => exact .of_phase (.inl rfl)
  | writeFailed => exact .of_phase (.inl rfl)

theorem startBuffer_phase (i : Instr) (s : State) :
    (startBuffer i s).eng.phase = .idle ∨ (startBuffer i s).eng.phase = .bufRead := by
  rcases startBuffer_cases i s with ⟨-, h⟩ | ⟨-, -, h⟩ | ⟨-, -, h⟩ | ⟨-, -, h⟩ <;> rw [h]
  · exact .inl rfl
  · exact .inl rfl
  · exact .inl rfl
  · exact .inr rfl

theorem EventOutcome.datapathInv {e : Event} {s t : State} (h : EventOutcome s e t) (hs : s.DatapathInv) :
    t.DatapathInv := by
  cases h with
  | rested => exact hs
  | advanced _ hturn => exact hturn.datapathInv hs
  | answered => exact hs.transfer rfl rfl rfl rfl
  | @wroteIdle r d hready =>
    obtain ⟨heng, -⟩ := writeReg_frame r d s
    exact .of_phase (.inl (by rw [State.respond_eng, heng]; exact hready.1))
  | @wroteBusy r d =>
    obtain ⟨-, -, -, -, -, heng, -, hbuild, -⟩ := writeReg_frame r d s
    obtain ⟨hregs, -⟩ := writeRegBusy_regs_eq r d s
    exact hs.transfer hbuild heng (by rw [State.respond_regs, hregs]) (by rw [State.respond_regs, hregs])
  | acceptedBlock => exact ⟨fun _ => rfl, nofun, nofun⟩
  | acceptedBuffer => exact .of_phase (startBuffer_phase _ _)
  | illegal hready => exact .of_phase (.inl hready.1)
  | @memWritten a b =>
    obtain ⟨hbuild, -, hregs, heng, -⟩ := hostMemWrite_frame a b s
    exact hs.transfer hbuild heng (by rw [hregs]) (by rw [hregs])
  | resetAsserted =>
    obtain ⟨-, -, -, heng, -⟩ := assertReset_frame s
    exact .of_phase (.inl (by rw [heng]; rfl))
  | resetReleased => exact .of_phase (.inl rfl)
  | resetNotHeld => exact hs
  | configured => exact hs.transfer rfl rfl rfl rfl

/-- Settles O42: each outcome of a step keeps the datapath on its way, the engine's turn by the round it runs. -/
theorem stepKeepsDatapathInvariant : Obligations.StepKeepsDatapathInvariant := by
  unfold Obligations.StepKeepsDatapathInvariant
  intro s t _ hs h
  obtain ⟨e, es, -, hout⟩ := step_outcome h
  exact hout.datapathInv (s := s.withInputs es) (hs.transfer rfl rfl rfl rfl)

/-- Settles O39: the reset state is idle, with empty memory, no range and no race. -/
theorem invariantHoldsAtReset : Obligations.InvariantHoldsAtReset := by
  unfold Obligations.InvariantHoldsAtReset
  exact ⟨.of_idle rfl Memory.wf_nil rfl nofun nofun, .of_phase (.inl rfl)⟩

/-! ### The end of a single-block command -/

/-- The engine's turn ends a single-block command by its write-back alone. -/
theorem TurnOutcome.of_runBlock_to_idle {s t : State} (h : TurnOutcome s t) (hp : s.eng.phase = .runBlock)
    (ht : t.eng.phase = .idle) : s.eng.rcnt = 0#32 ∧ t = finishBlock s := by
  cases h with
  | blockFinished _ hr => exact ⟨hr, rfl⟩
  | unanswered hq => simp [hp] at hq
  | round =>
    rw [roundStep_eng, Engine.oneRound_phase, hp] at ht
    cases ht
  | _ => simp_all

/-- An event that leaves a single-block command's engine idle is a reset or the command's end. -/
theorem EventOutcome.of_runBlock_to_idle {e : Event} {s t : State} (h : EventOutcome s e t)
    (hp : s.eng.phase = .runBlock) (ht : t.eng.phase = .idle) :
    t.regs = Regs.reset ∨ (s.eng.rcnt = 0#32 ∧ t.regs = (finishBlock s).regs) := by
  have hbusy : s.eng.phase ≠ .idle := by simp [hp]
  have unmoved (heng : t.eng = s.eng) : False := hbusy (by rw [← heng]; exact ht)
  cases h with
  | rested => exact absurd ht hbusy
  | @advanced u _ hturn =>
    obtain ⟨-, -, hregs, heng, -⟩ := settleRaces_frame u
    obtain ⟨hr, rfl⟩ := hturn.of_runBlock_to_idle hp (heng ▸ ht)
    exact .inr ⟨hr, hregs⟩
  | answered => exact absurd ht hbusy
  | wroteIdle hready => exact absurd hready.1 hbusy
  | @wroteBusy r d =>
    obtain ⟨-, -, -, -, -, heng, -⟩ := writeReg_frame r d s
    exact (unmoved heng).elim
  | acceptedBlock _ hready => exact absurd hready.1 hbusy
  | acceptedBuffer _ hready => exact absurd hready.1 hbusy
  | illegal hready => exact absurd hready.1 hbusy
  | @memWritten a b =>
    obtain ⟨-, -, -, heng, -⟩ := hostMemWrite_frame a b s
    exact (unmoved heng).elim
  | resetAsserted =>
    obtain ⟨-, -, hregs, -⟩ := assertReset_frame s
    exact .inl hregs
  | resetReleased => exact .inl rfl
  | resetNotHeld => exact absurd ht hbusy
  | configured => exact absurd ht hbusy

/-- Settles O43: the command's end writes back the datapath's block, which the datapath invariant makes the transform. -/
theorem blockResultAtEveryInterleaving : Obligations.BlockResultAtEveryInterleaving := by
  unfold Obligations.BlockResultAtEveryInterleaving
  intro s t hs hd hp h ht
  obtain ⟨e, es, -, hout⟩ := step_outcome h
  refine (hout.of_runBlock_to_idle (s := s.withInputs es) hp ht).imp_right fun ⟨hr, hregs⟩ => ?_
  obtain ⟨hkey, hrounds⟩ := hs.busy_operands (by simp [hp])
  have hblock := State.block_of_done hr (hd.block_rounds hp)
  rw [hkey, hrounds] at hblock
  rw [hregs]
  exact ⟨rfl, rfl, hblock⟩

/-! ### Runs -/

/-- The invariant holds along every run that starts in it. -/
theorem State.Inv.of_runsTo {n : Nat} {s t : State} (hs : s.Inv) (h : RunsTo n s t) : t.Inv := by
  induction n generalizing s with
  | zero =>
    obtain rfl : s = t := Host.Outcome.next.inj h
    exact hs
  | succ n ih =>
    obtain ⟨u, hu, hrest⟩ := runsTo_succ_iff.mp h
    exact ih (hs.of_step hu) hrest

/-- Settles O44: the invariant holds along the run and gives the flags of a busy engine. -/
theorem busyAndDoneNeverTogether : Obligations.BusyAndDoneNeverTogether := by
  unfold Obligations.BusyAndDoneNeverTogether
  exact fun s t n hs h hbusy => (hs.of_runsTo h).busy_flags (State.busy_iff.mp hbusy)

/-! ### No run stops -/

/-- The byte that a buffer command in flight reaches next lies in the address space (R143). -/
theorem State.Inv.byteAddr_lt {s : State} (hs : s.Inv) (hp : s.eng.phase.ofBuffer = true) :
    s.eng.byteAddr < Config.addrSpace := by
  obtain ⟨hbase, hlnb, hok, hidx, -⟩ := hs.buffer_range hp
  have hfit := outOfRange_eq_false.mp hok.2
  have hbeat := s.eng.beat.isLt
  rw [Engine.byteAddr, Engine.blockAddr, hbase]
  omega

/-- A byte access in the address space answers whatever the platform does. -/
theorem memAccess_exists {k : AccessKind} {a : Nat} {ok err : State → State} {s : State} (ha : a < Config.addrSpace) :
    ∃ t, memAccess k a (fun u => .next (ok u)) (fun u => .next (err u)) s = .next t := by
  cases hr : platformReply s.plat k a with
  | completes => exact ⟨_, memAccess_completes ha hr⟩
  | busError => exact ⟨_, memAccess_busError ha hr⟩
  | neverAnswers => exact ⟨_, memAccess_neverAnswers ha hr⟩

theorem State.Inv.advanceBuffer_exists {s : State} (hs : s.Inv) (hp : s.eng.phase.ofBuffer = true) (d : Direction) :
    ∃ t, advanceBuffer d s = .next t := by
  have ha := hs.byteAddr_lt hp
  cases hq : s.eng.phase with
  | idle => rw [hq] at hp; cases hp
  | runBlock => rw [hq] at hp; cases hp
  | bufRead => rw [advanceBuffer_bufRead hq]; exact memAccess_exists ha
  | bufRounds => rw [advanceBuffer_bufRounds hq]; split <;> exact ⟨_, rfl⟩
  | bufWrite => rw [advanceBuffer_bufWrite hq]; exact memAccess_exists ha

/-- The command in flight always has a next step. -/
theorem State.Inv.exec_lop_exists {s : State} (hs : s.Inv) (hp : s.eng.phase ≠ .idle) :
    ∃ t, exec s.eng.lop s = .next t := by
  by_cases hbuf : s.eng.phase.ofBuffer = true
  · have hlop := isBufferCommand_iff.mp (hs.bufferCommand hbuf)
    rw [exec_buffer_inFlight hlop rfl hp]
    exact hs.advanceBuffer_exists hbuf _
  · have hrun : s.eng.phase = .runBlock := by
      cases hq : s.eng.phase <;> simp [hq, Phase.ofBuffer] at hp hbuf ⊢
    have hlop : isBlockCommand s.eng.lop = true := by
      have hfits := hs.phase_fits
      rwa [hrun] at hfits
    rw [exec_block (isBlockCommand_iff.mp hlop), withEngine_inFlight hp rfl, advanceBlock_runBlock hrun]
    split <;> exact ⟨_, rfl⟩

theorem State.Inv.engineTurn_exists {s : State} (hs : s.Inv) : ∃ t, engineTurn s = .next t := by
  by_cases hp : s.eng.phase = .idle
  · exact ⟨s, engineTurn_idle (.inr hp)⟩
  · obtain ⟨u, hu⟩ := hs.exec_lop_exists hp
    exact ⟨_, engineTurn_busy (hs.released_of_busy hp) hp hu⟩

/-- A word at `CMD` of an idle engine always has a next state. -/
theorem issueCommand_exists (w : Word) {s : State} (hp : s.eng.phase = .idle) : ∃ t, issueCommand w s = .next t := by
  cases hw : decode w with
  | ok i => rw [issueCommand_ok hw]; exact exec_idle i hp
  | error e => exact ⟨_, issueCommand_error hw s⟩

theorem State.Inv.takeEvent_exists {s : State} (hs : s.Inv) (e : Event) : ∃ t, takeEvent e s = .next t := by
  cases e with
  | engine => exact hs.engineTurn_exists
  | regWrite a d =>
    cases hr : s.world.resetLine with
    | true => exact ⟨_, takeEvent_regWrite_reset hr⟩
    | false =>
      cases hc : issuesCommand a s with
      | true =>
        rw [takeEvent_command hr hc]
        exact issueCommand_exists d (issuesCommand_iff.mp hc).1
      | false => exact ⟨_, takeEvent_regWrite hr hc⟩
  | _ => exact ⟨_, rfl⟩

theorem State.Inv.step_exists {s : State} (hs : s.Inv) : ∃ t, step s = .next t := by
  cases hin : s.world.inputs with
  | nil => rw [step_nil hin]; exact hs.engineTurn_exists
  | cons e es => rw [step_cons hin]; exact (hs.withInputs es).takeEvent_exists e

/-- Settles O41: the iterator stays in the address space and the phase fits the command, so neither fault is met. -/
theorem machineNeverStops : Obligations.MachineNeverStops := by
  unfold Obligations.MachineNeverStops
  exact fun _ hs => hs.step_exists

end Sys2Proof.Machine
end

section
/-! What may change one piece of the state, read off the outcomes of a step: the configuration (R20, R61), the keys (R28),
`ERR` on an idle engine (R206), `FAULTADDR` (R33, R211) and the ranges under exclusive access (R77). -/

namespace Sys2Proof.Machine

/-! ### Acceptance of a buffer command -/

/-- What acceptance of a buffer command leaves alone, whatever its checks give (R200, R203). -/
theorem startBuffer_frame (i : Instr) (s : State) :
    (startBuffer i s).build = s.build ∧ (startBuffer i s).plat = s.plat ∧ (startBuffer i s).mem = s.mem ∧
    (startBuffer i s).regs = { s.regs with
      progress := 0#32, done := (startBuffer i s).regs.done, err := (startBuffer i s).regs.err } ∧
    (startBuffer i s).world = { s.world with windows := (startBuffer i s).world.windows } := by
  rcases startBuffer_cases i s with ⟨-, h⟩ | ⟨-, -, h⟩ | ⟨-, -, h⟩ | ⟨-, -, h⟩ <;> rw [h] <;>
    exact ⟨rfl, rfl, rfl, rfl, rfl⟩

/-- Acceptance opens a range only where it starts the iteration (R77; log entry 13). -/
theorem startBuffer_windows (i : Instr) (s : State) :
    (startBuffer i s).world.windows = s.world.windows ∨
    ((startBuffer i s).world.windows =
        { base := s.regs.addr.toNat, blocks := blockCount s.regs.size } :: s.world.windows ∧
      (startBuffer i s).eng.phase = .bufRead) := by
  rcases startBuffer_cases i s with ⟨-, h⟩ | ⟨-, -, h⟩ | ⟨-, -, h⟩ | ⟨-, -, h⟩ <;> rw [h]
  · exact .inl rfl
  · exact .inl rfl
  · exact .inl rfl
  · exact .inr ⟨rfl, rfl⟩

/-! ### The configuration -/

/-- No event changes the build, and only the platform's own event changes the platform (R20, R61; log entry 23). -/
theorem EventOutcome.configuration {e : Event} {s t : State} (h : EventOutcome s e t) :
    t.build = s.build ∧ (t.plat = s.plat ∨ ∃ rs, e = .platformRegions rs ∧ t.plat = { s.plat with regions := rs }) := by
  have kept {u : State} (hbuild : u.build = s.build) (hplat : u.plat = s.plat) :
      u.build = s.build ∧ (u.plat = s.plat ∨ ∃ rs, e = .platformRegions rs ∧ u.plat = { s.plat with regions := rs }) :=
    ⟨hbuild, .inl hplat⟩
  cases h with
  | rested => exact kept rfl rfl
  | @advanced u _ hturn =>
    obtain ⟨hbuild, hplat, -⟩ := settleRaces_frame u
    obtain ⟨hbuild', hplat', -⟩ := hturn.frame
    exact kept (hbuild.trans hbuild') (hplat.trans hplat')
  | answered => exact kept rfl rfl
  | @wroteIdle r d =>
    obtain ⟨-, -, hbuild, hplat, -⟩ := writeReg_frame r d s
    exact kept hbuild hplat
  | @wroteBusy r d =>
    obtain ⟨-, -, -, -, -, -, -, hbuild, hplat, -⟩ := writeReg_frame r d s
    exact kept hbuild hplat
  | acceptedBlock => exact kept rfl rfl
  | @acceptedBuffer i =>
    obtain ⟨hbuild, hplat, -⟩ := startBuffer_frame i (s.respond .written)
    exact kept hbuild hplat
  | illegal => exact kept rfl rfl
  | @memWritten a b =>
    obtain ⟨hbuild, hplat, -⟩ := hostMemWrite_frame a b s
    exact kept hbuild hplat
  | resetAsserted =>
    obtain ⟨hbuild, hplat, -⟩ := assertReset_frame s
    exact kept hbuild hplat
  | resetReleased => exact kept rfl rfl
  | resetNotHeld => exact kept rfl rfl
  | @configured rs => exact ⟨rfl, .inr ⟨rs, rfl, rfl⟩⟩

/-- Settles O45: `ID` reads the build, which no outcome changes. -/
theorem configurationNeverChanges : Obligations.ConfigurationNeverChanges := by
  unfold Obligations.ConfigurationNeverChanges
  intro s t h
  obtain ⟨e, es, htakes, hout⟩ := step_outcome h
  obtain ⟨hbuild, hplat⟩ := hout.configuration
  refine ⟨hbuild, ?base, congrArg idWord hbuild, fun hno => ?plat⟩
  case base => rcases hplat with hplat | ⟨rs, -, hplat⟩ <;> rw [hplat] <;> rfl
  case plat =>
    rcases hplat with hplat | ⟨rs, rfl, -⟩
    · exact hplat
    · exact absurd (htakes.nextEvent nofun) (hno rs es)

/-! ### The keys -/

/-- Of the writes to an idle engine's registers, only those at the key registers reach a key (R184). -/
theorem writeRegIdle_key (r : Reg) (d : Word) (s : State) :
    (writeRegIdle r d s).regs.key = s.regs.key ∨ (r = .key0 ∨ r = .key1 ∨ r = .key2 ∨ r = .key3) := by
  cases r
  case key0 => exact .inr (.inl rfl)
  case key1 => exact .inr (.inr (.inl rfl))
  case key2 => exact .inr (.inr (.inr (.inl rfl)))
  case key3 => exact .inr (.inr (.inr (.inr rfl)))
  all_goals exact .inl rfl

theorem EventOutcome.key {e : Event} {s t : State} (h : EventOutcome s e t) :
    t.regs.key = s.regs.key ∨ e = .resetAssert ∨ e = .resetRelease ∨
    ∃ r d, (r = .key0 ∨ r = .key1 ∨ r = .key2 ∨ r = .key3) ∧ s.ready ∧ e = .regWrite (regAccess s.plat.regBase r) d := by
  cases h with
  | rested => exact .inl rfl
  | @advanced u _ hturn =>
    obtain ⟨-, -, hregs, -⟩ := settleRaces_frame u
    exact .inl (by rw [hregs, hturn.regs])
  | answered => exact .inl rfl
  | @wroteIdle r d hready =>
    exact (writeRegIdle_key r d s).imp_right fun hr => .inr (.inr ⟨r, d, hr, hready, rfl⟩)
  | @wroteBusy r d =>
    obtain ⟨hregs, -⟩ := writeRegBusy_regs_eq r d s
    exact .inl (by rw [State.respond_regs, hregs])
  | acceptedBlock => exact .inl rfl
  | @acceptedBuffer i =>
    obtain ⟨-, -, -, hregs, -⟩ := startBuffer_frame i (s.respond .written)
    exact .inl (by rw [hregs]; rfl)
  | illegal => exact .inl rfl
  | @memWritten a b =>
    obtain ⟨-, -, hregs, -⟩ := hostMemWrite_frame a b s
    exact .inl (by rw [hregs])
  | resetAsserted => exact .inr (.inl rfl)
  | resetReleased => exact .inr (.inr (.inl rfl))
  | resetNotHeld => exact .inl rfl
  | configured => exact .inl rfl

/-- Settles O46: no command, and of the events only reset and a write at a key register, reaches a key. -/
theorem onlyTheHostWritesKeys : Obligations.OnlyTheHostWritesKeys := by
  unfold Obligations.OnlyTheHostWritesKeys
  intro s t h hkey
  obtain ⟨e, es, htakes, hout⟩ := step_outcome h
  rcases hout.key with hkept | rfl | rfl | ⟨r, d, hr, hready, rfl⟩
  · exact absurd hkept hkey
  · exact .inl ⟨es, htakes.nextEvent nofun⟩
  · exact .inr (.inl ⟨es, htakes.nextEvent nofun⟩)
  · exact .inr (.inr ⟨r, d, es, hr, hready, htakes.nextEvent nofun⟩)

/-! ### `ERR` while idle -/

/-- No write to an idle engine's registers reaches `ERR` or `FAULTADDR` (R184, R187). -/
theorem writeRegIdle_result (r : Reg) (d : Word) (s : State) :
    (writeRegIdle r d s).regs.err = s.regs.err ∧ (writeRegIdle r d s).regs.faultAddr = s.regs.faultAddr := by
  cases r <;> exact ⟨rfl, rfl⟩

theorem EventOutcome.err_of_idle {e : Event} {s t : State} (h : EventOutcome s e t) (hp : s.eng.phase = .idle) :
    t.regs.err = s.regs.err ∨ e = .resetAssert ∨ e = .resetRelease ∨
    ∃ w, e = .regWrite (regAccess s.plat.regBase .cmd) w := by
  cases h with
  | rested => exact .inl rfl
  | advanced _ hturn => exact absurd hp hturn.busy
  | answered => exact .inl rfl
  | @wroteIdle r d => exact .inl (writeRegIdle_result r d s).1
  | wroteBusy hbusy => exact absurd hp hbusy
  | acceptedBlock => exact .inr (.inr (.inr ⟨_, rfl⟩))
  | acceptedBuffer => exact .inr (.inr (.inr ⟨_, rfl⟩))
  | illegal => exact .inr (.inr (.inr ⟨_, rfl⟩))
  | @memWritten a b =>
    obtain ⟨-, -, hregs, -⟩ := hostMemWrite_frame a b s
    exact .inl (by rw [hregs])
  | resetAsserted => exact .inr (.inl rfl)
  | resetReleased => exact .inr (.inr (.inl rfl))
  | resetNotHeld => exact .inl rfl
  | configured => exact .inl rfl

/-- Settles O49: an idle engine has no turn, and of the host's writes only one at `CMD` reaches `ERR`. -/
theorem errorCodeStaysUntilTheNextCommand : Obligations.ErrorCodeStaysUntilTheNextCommand := by
  unfold Obligations.ErrorCodeStaysUntilTheNextCommand
  intro s t hp h herr
  obtain ⟨e, es, htakes, hout⟩ := step_outcome h
  rcases hout.err_of_idle hp with hkept | rfl | rfl | ⟨w, rfl⟩
  · exact absurd hkept herr
  · exact .inl ⟨es, htakes.nextEvent nofun⟩
  · exact .inr (.inl ⟨es, htakes.nextEvent nofun⟩)
  · exact .inr (.inr ⟨w, es, htakes.nextEvent nofun⟩)

/-! ### `FAULTADDR` -/

/-- The turn ends the command with `BUS_ERROR`, and `FAULTADDR` is the address of its access (R204, R211). -/
structure EndsInBusError (s t : State) : Prop where
  phase : t.eng.phase = .idle
  err : t.regs.err = .busError
  done : t.regs.done = true
  faultAddr : t.regs.faultAddr.toNat = s.eng.byteAddr

theorem endsInBusError_raiseBusError {s u : State} (ha : s.eng.byteAddr < Config.addrSpace) :
    EndsInBusError s (u.raiseBusError s.eng.byteAddr) where
  phase := rfl
  err := rfl
  done := rfl
  faultAddr := by
    rw [State.raiseBusError_regs, Regs.endFlags_faultAddr, BitVec.toNat_ofNat, Nat.mod_eq_of_lt ha]

/-- A turn leaves `FAULTADDR` alone and ends no command with `BUS_ERROR`, or does both together. -/
theorem TurnOutcome.faultAddr {s t : State} (h : TurnOutcome s t) (herr : s.regs.err = .ok) :
    (t.regs.faultAddr = s.regs.faultAddr ∧ t.regs.err = .ok) ∨ EndsInBusError s t := by
  cases h with
  | readFailed _ ha => exact .inr (endsInBusError_raiseBusError ha)
  | writeFailed _ ha => exact .inr (endsInBusError_raiseBusError ha)
  | blockFinished => exact .inl ⟨rfl, rfl⟩
  | bufferFinished => exact .inl ⟨rfl, rfl⟩
  | _ => exact .inl ⟨rfl, herr⟩

/-- An event leaves `FAULTADDR` alone and ends no command with `BUS_ERROR`, or is a turn that does both, or asserts reset. -/
theorem EventOutcome.faultAddr {e : Event} {s t : State} (h : EventOutcome s e t) (hs : s.Inv) :
    (t.regs.faultAddr = s.regs.faultAddr ∧ (s.eng.phase ≠ .idle → t.regs.err = .ok)) ∨
    (s.eng.phase ≠ .idle ∧ EndsInBusError s t) ∨ (e = .resetAssert ∧ t.regs = Regs.reset) := by
  have kept {u : State} (hregs : u.regs = s.regs) :
      u.regs.faultAddr = s.regs.faultAddr ∧ (s.eng.phase ≠ .idle → u.regs.err = .ok) := by
    rw [hregs]
    exact ⟨rfl, fun hp => (hs.busy_flags hp).2⟩
  cases h with
  | rested => exact .inl (kept rfl)
  | @advanced u _ hturn =>
    obtain ⟨-, -, hregs, heng, -⟩ := settleRaces_frame u
    rcases hturn.faultAddr (hs.busy_flags hturn.busy).2 with ⟨hfault, herr⟩ | hend
    · rw [hregs]
      exact .inl ⟨hfault, fun _ => herr⟩
    · obtain ⟨hphase, herr, hdone, hfault⟩ := hend
      refine .inr (.inl ⟨hturn.busy, ⟨?_, ?_, ?_, ?_⟩⟩)
      · rw [heng]; exact hphase
      · rw [hregs]; exact herr
      · rw [hregs]; exact hdone
      · rw [hregs]; exact hfault
  | answered => exact .inl (kept rfl)
  | @wroteIdle r d hready => exact .inl ⟨(writeRegIdle_result r d s).2, fun hp => absurd hready.1 hp⟩
  | @wroteBusy r d hp =>
    obtain ⟨hregs, -⟩ := writeRegBusy_regs_eq r d s
    refine .inl ⟨?_, fun _ => ?_⟩ <;> rw [State.respond_regs, hregs]
    exact (hs.busy_flags hp).2
  | acceptedBlock _ hready => exact .inl ⟨rfl, fun hp => absurd hready.1 hp⟩
  | @acceptedBuffer i _ hready =>
    obtain ⟨-, -, -, hregs, -⟩ := startBuffer_frame i (s.respond .written)
    exact .inl ⟨by rw [hregs]; rfl, fun hp => absurd hready.1 hp⟩
  | illegal hready => exact .inl ⟨rfl, fun hp => absurd hready.1 hp⟩
  | @memWritten a b =>
    obtain ⟨-, -, hregs, -⟩ := hostMemWrite_frame a b s
    exact .inl (kept hregs)
  | resetAsserted =>
    obtain ⟨-, -, hregs, -⟩ := assertReset_frame s
    exact .inr (.inr ⟨rfl, hregs⟩)
  | resetReleased hr =>
    obtain ⟨hregs, -⟩ := hs.held_in_reset hr
    exact .inl (kept hregs.symm)
  | resetNotHeld => exact .inl (kept rfl)
  | configured => exact .inl (kept rfl)

/-- Settles O48: a bus error ends the command and names its address, in one turn; reset is the one other change. -/
theorem faultAddressChangesOnlyOnBusErrors : Obligations.FaultAddressChangesOnlyOnBusErrors := by
  unfold Obligations.FaultAddressChangesOnlyOnBusErrors
  refine ⟨fun s t hs h hbusy _ herr => ?_, fun s t hs h hchange => ?_⟩ <;>
    obtain ⟨e, es, htakes, hout⟩ := step_outcome h <;>
    rcases hout.faultAddr (hs.withInputs es) with ⟨hkept, hok⟩ | ⟨hp, hend⟩ | ⟨rfl, hreset⟩
  · rw [hok hbusy] at herr
    cases herr
  · exact hend.faultAddr
  · rw [hreset] at herr
    cases herr
  · exact absurd hkept hchange
  · exact .inr ⟨hp, hend.phase, hend.err, hend.done⟩
  · exact .inl ⟨⟨es, htakes.nextEvent nofun⟩, by rw [hreset]; rfl⟩

/-! ### The ranges under exclusive access -/

/-- An event leaves the ranges alone, is the acceptance of a buffer command that iterates and adds its range, or lifts them
all (R77; log entries 12 and 13). -/
theorem EventOutcome.windows {e : Event} {s t : State} (h : EventOutcome s e t) :
    t.world.windows = s.world.windows ∨
    (t.world.windows = { base := s.regs.addr.toNat, blocks := blockCount s.regs.size } :: s.world.windows ∧
      s.ready ∧ t.eng.phase = .bufRead ∧
      ∃ i, (i = .encBuf ∨ i = .decBuf) ∧ e = .regWrite (regAccess s.plat.regBase .cmd) (encode i)) ∨
    (t.world.windows = [] ∧ (e = .resetAssert ∨ s.ObservesEnd e)) := by
  cases h with
  | rested => exact .inl rfl
  | @advanced u _ hturn =>
    obtain ⟨-, -, -, -, -, -, -, hws⟩ := settleRaces_frame u
    obtain ⟨-, -, hworld⟩ := hturn.frame
    exact .inl (by rw [hws, hworld])
  | answered hws =>
    rcases hws with rfl | ⟨rfl, hobs⟩
    · exact .inl rfl
    · exact .inr (.inr ⟨rfl, .inr hobs⟩)
  | @wroteIdle r d =>
    obtain ⟨-, -, -, -, hworld, -⟩ := writeReg_frame r d s
    exact .inl (by rw [State.respond_world, hworld])
  | @wroteBusy r d =>
    obtain ⟨-, -, -, -, -, -, -, -, -, hworld⟩ := writeReg_frame r d s
    exact .inl (by rw [State.respond_world, hworld])
  | acceptedBlock => exact .inl rfl
  | @acceptedBuffer i hi hready =>
    exact (startBuffer_windows i (s.respond .written)).imp_right fun ⟨hws, hphase⟩ =>
      .inl ⟨hws, hready, hphase, i, hi, rfl⟩
  | illegal => exact .inl rfl
  | @memWritten a b =>
    obtain ⟨-, -, -, -, -, k, hworld⟩ := hostMemWrite_frame a b s
    exact .inl (by rw [hworld])
  | resetAsserted =>
    obtain ⟨-, -, -, -, -, -, hws, -⟩ := assertReset_frame s
    exact .inr (.inr ⟨hws, .inl rfl⟩)
  | resetReleased => exact .inl rfl
  | resetNotHeld => exact .inl rfl
  | configured => exact .inl rfl

/-- Settles O56: the three outcomes of `EventOutcome.windows`, with the event that the step took. -/
theorem exclusiveAccessLastsUntilObserved : Obligations.ExclusiveAccessLastsUntilObserved := by
  unfold Obligations.ExclusiveAccessLastsUntilObserved
  intro s t h hchange
  obtain ⟨e, es, htakes, hout⟩ := step_outcome h
  rcases hout.windows with hkept | ⟨hws, hready, hphase, i, hi, rfl⟩ | ⟨hws, rfl | ⟨hready, rfl⟩ | ⟨hirq, rfl⟩⟩
  · exact absurd hkept hchange
  · exact .inl ⟨hws, hready, hphase, i, es, hi, htakes.nextEvent nofun⟩
  · exact .inr ⟨hws, .inl ⟨es, htakes.nextEvent nofun⟩⟩
  · exact .inr ⟨hws, .inr (.inl ⟨hready, es, htakes.nextEvent nofun⟩)⟩
  · exact .inr ⟨hws, .inr (.inr ⟨hirq, es, htakes.nextEvent nofun⟩)⟩

end Sys2Proof.Machine
end

section
/-! The meanings of the four commands, case by case: acceptance (R200, R203), one step of a command in flight (R125, R145), a
command turned away (R185), the frames, and how `step` calls on them (R186). -/

namespace Sys2Proof.Machine

/-! ### Acceptance -/

theorem startBuffer_misaligned (i : Instr) {s : State} (h : s.regs.misaligned = true) :
    startBuffer i s = (acceptBuffer i s).raise .misaligned := if_pos h

theorem startBuffer_outOfRange (i : Instr) {s : State} (hm : s.regs.misaligned = false)
    (hr : s.regs.outOfRange = true) : startBuffer i s = (acceptBuffer i s).raise .range := by
  rcases startBuffer_cases i s with ⟨h, -⟩ | ⟨-, -, h⟩ | ⟨hok, -⟩ | ⟨hok, -⟩
  · rw [hm] at h; cases h
  · exact h
  · rw [hok.2] at hr; cases hr
  · rw [hok.2] at hr; cases hr

/-- Acceptance of a buffer command latches its opcode, key and round count, whatever the checks give (R200). -/
theorem startBuffer_latches (i : Instr) (s : State) :
    (startBuffer i s).eng.lop = i ∧ (startBuffer i s).eng.lk = s.regs.key ∧ (startBuffer i s).eng.lr = s.regs.rounds := by
  rcases startBuffer_cases i s with ⟨-, h⟩ | ⟨-, -, h⟩ | ⟨-, -, h⟩ | ⟨-, -, h⟩ <;> rw [h] <;> exact ⟨rfl, rfl, rfl⟩

/-- Settles O20: `startBlock` for the block commands; for the buffer commands the four ends of acceptance in the order of
their checks. -/
theorem acceptanceLatchesTheOperands : Obligations.AcceptanceLatchesTheOperands := by
  unfold Obligations.AcceptanceLatchesTheOperands
  intro s hp
  refine ⟨⟨_, exec_block_idle (.inl rfl) hp, rfl, rfl, rfl, rfl, rfl, rfl⟩,
    ⟨_, exec_block_idle (.inr rfl) hp, rfl, rfl, rfl, rfl, rfl, rfl⟩, fun i hi => ?_⟩
  obtain ⟨hbuild, hplat, hmem, -, -⟩ := startBuffer_frame i s
  obtain ⟨hlop, hlk, hlr⟩ := startBuffer_latches i s
  refine ⟨_, exec_buffer_idle hi hp, hmem, hbuild, hplat, hlop, hlk, hlr, ?_⟩
  split
  · next h => rw [startBuffer_misaligned i (misaligned_iff.mpr h)]; exact ⟨rfl, rfl⟩
  next halign =>
  have hm : s.regs.misaligned = false := Bool.eq_false_iff.mpr fun h => halign (misaligned_iff.mp h)
  split
  · next h => rw [startBuffer_outOfRange i hm (outOfRange_iff.mpr h)]; exact ⟨rfl, rfl⟩
  next hrange =>
  have hok : s.regs.bufferOk := ⟨hm, outOfRange_eq_false.mpr (not_lt.mp hrange)⟩
  split
  · next hn => rw [startBuffer_empty i hok hn]; exact ⟨rfl, rfl⟩
  next hn =>
  rw [startBuffer_iterates i hok hn]
  exact ⟨rfl, rfl, rfl, toNat_ofNat_blockCount s.regs.size, rfl, rfl⟩

/-- Settles O21: the two ends of acceptance in which a check fails. -/
theorem failedChecksTouchNoMemory : Obligations.FailedChecksTouchNoMemory := by
  unfold Obligations.FailedChecksTouchNoMemory
  intro s i hp hi
  refine ⟨fun hsafe hsize => ?misaligned, fun halign hrange => ?outOfRange⟩
  case misaligned =>
    have hstart := startBuffer_misaligned i (misaligned_iff.mpr ⟨hsafe, hsize⟩)
    exact ⟨_, (exec_buffer_idle hi hp).trans (congrArg _ hstart), rfl, rfl, rfl, rfl, rfl, rfl⟩
  case outOfRange =>
    have hstart := startBuffer_outOfRange i (misaligned_eq_false.mpr halign) (outOfRange_iff.mpr hrange)
    exact ⟨_, (exec_buffer_idle hi hp).trans (congrArg _ hstart), rfl, rfl, rfl, rfl, rfl, rfl⟩

/-! ### One step of a command in flight -/

/-- The turn of a single-block command that is in flight (R124). -/
theorem exec_block_inFlight {i : Instr} (hi : i = .encBlock ∨ i = .decBlock) {s : State} (hl : s.eng.lop = i)
    (hp : s.eng.phase ≠ .idle) : exec i s = advanceBlock (directionOf i) s :=
  (exec_block hi s).trans (withEngine_inFlight hp hl)

/-- Settles O23: the two outcomes of a single-block command's turn. -/
theorem blockCommandStepByStep : Obligations.BlockCommandStepByStep := by
  unfold Obligations.BlockCommandStepByStep
  intro s i hi hp hl
  have hturn := (exec_block_inFlight hi hl (by simp [hp])).trans (advanceBlock_runBlock hp)
  exact ⟨fun hr => hturn.trans (if_neg hr), fun hr => hturn.trans (if_pos hr)⟩

/-- A byte read that completes (R145). -/
theorem exec_buffer_read {i : Instr} (hi : i = .encBuf ∨ i = .decBuf) {s : State} (hl : s.eng.lop = i)
    (hp : s.eng.phase = .bufRead) (ha : s.eng.byteAddr < 2 ^ 32)
    (hr : platformReply s.plat .read s.eng.byteAddr = .completes) : exec i s = .next (byteRead (directionOf i) s) := by
  rw [exec_buffer_inFlight hi hl (by simp [hp]), advanceBuffer_bufRead hp, memAccess_completes ha hr]

/-- A byte write that completes (R145). -/
theorem exec_buffer_write {i : Instr} (hi : i = .encBuf ∨ i = .decBuf) {s : State} (hl : s.eng.lop = i)
    (hp : s.eng.phase = .bufWrite) (ha : s.eng.byteAddr < 2 ^ 32)
    (hr : platformReply s.plat .write s.eng.byteAddr = .completes) : exec i s = .next (byteWritten s) := by
  rw [exec_buffer_inFlight hi hl (by simp [hp]), advanceBuffer_bufWrite hp, memAccess_completes ha hr]

/-- Once its eighth byte arrives, the buffer's words are those of the seven bytes before and this one (R64). -/
theorem loadBlock_set_last (o : ByteOrder) (bs : Vector Byte 8) (b : Byte) :
    loadBlock o (bs.set 7 b) = ⟨load32 o bs[0] bs[1] bs[2] bs[3], load32 o bs[4] bs[5] bs[6] b⟩ := by
  simp [loadBlock]

/-- Settles O26: the two outcomes of a byte's arrival. -/
theorem bufferReadsOneByteAStep : Obligations.BufferReadsOneByteAStep := by
  unfold Obligations.BufferReadsOneByteAStep
  intro s i hi hp hl ha hr
  have hexec := exec_buffer_read hi hl hp ha hr
  rcases byteRead_cases (directionOf i) s with ⟨hne, h⟩ | ⟨heq, h⟩ <;> rw [h] at hexec
  · exact ⟨fun _ => hexec, fun heq => absurd heq hne⟩
  · refine ⟨fun hne => absurd heq hne, fun _ =>
      ⟨_, hexec, rfl, rfl, rfl, rfl, rfl, rfl, rfl, ?w0, ?w1, rfl, rfl, rfl, rfl, rfl, rfl⟩⟩
    all_goals
      have hbytes : s.eng.rbuf.set s.eng.beat.val (s.mem.read s.eng.byteAddr) s.eng.beat.isLt =
          s.eng.rbuf.set 7 (s.mem.read s.eng.byteAddr) := by
        congr 1
        rw [heq]; rfl
      simp only [State.setEng_eng, Engine.startRounds_w0, Engine.startRounds_w1, hbytes, loadBlock_set_last]

/-- Settles O27: the two outcomes of a turn in `BUF_ROUNDS`. -/
theorem bufferRoundsOneRoundAStep : Obligations.BufferRoundsOneRoundAStep := by
  unfold Obligations.BufferRoundsOneRoundAStep
  intro s i hi hp hl
  have hturn := (exec_buffer_inFlight hi hl (by simp [hp])).trans (advanceBuffer_bufRounds hp)
  exact ⟨fun hr => hturn.trans (if_neg hr), fun hr => hturn.trans (if_pos hr)⟩

/-- Settles O28: memory is one byte's write, and the registers and the iterator follow the three outcomes of it. -/
theorem bufferWritesOneByteAStep : Obligations.BufferWritesOneByteAStep := by
  unfold Obligations.BufferWritesOneByteAStep
  intro s i hi hp hl hm ha hr
  refine ⟨_, exec_buffer_write hi hl hp ha hr, ?byte, fun a hne => ?others, byteWritten_world s, ?_⟩
  case byte => rw [byteWritten_mem, Memory.read_write_same _ _ hm.1]; rfl
  case others => rw [byteWritten_mem, Memory.read_write_other _ _ _ hne]
  rcases byteWritten_cases s with ⟨hne, h⟩ | ⟨heq, hmore, h⟩ | ⟨heq, hlast, h⟩ <;> rw [h]
  · exact ⟨fun _ => ⟨rfl, rfl⟩, fun heq => absurd heq hne, fun heq => absurd heq hne⟩
  · exact ⟨fun hne => absurd heq hne, fun _ _ => ⟨rfl, rfl⟩, fun _ hlast => absurd hmore (by omega)⟩
  · exact ⟨fun hne => absurd heq hne, fun _ hmore => absurd hmore (by omega), fun _ _ => ⟨rfl, rfl⟩⟩

/-! ### A command turned away, and the two faults -/

/-- A command given to an engine busy with another one (R185; log entry 7). -/
theorem exec_turnedAway {i : Instr} {s : State} (hp : s.eng.phase ≠ .idle) (hl : s.eng.lop ≠ i) :
    exec i s = .next s.dropWrite := by
  rcases block_or_buffer i with hi | hi
  · exact (exec_block hi s).trans (withEngine_turnedAway hp hl)
  · exact (exec_buffer hi s).trans (withEngine_turnedAway hp hl)

/-- Settles O35, by `exec_turnedAway`. -/
theorem busyEngineTurnsOtherCommandsAway : Obligations.BusyEngineTurnsOtherCommandsAway := by
  unfold Obligations.BusyEngineTurnsOtherCommandsAway
  exact fun s i hp hl => exec_turnedAway hp hl

theorem advanceBlock_misfit {d : Direction} {s : State} (hp : s.eng.phase ≠ .runBlock) :
    advanceBlock d s = .fault (.phaseNotOfCommand s.eng.phase) := by
  unfold advanceBlock
  split
  · next h => exact absurd h hp
  · rfl

theorem advanceBuffer_misfit {d : Direction} {s : State} (hp : s.eng.phase = .runBlock) :
    advanceBuffer d s = .fault (.phaseNotOfCommand s.eng.phase) := by
  unfold advanceBuffer
  rw [hp]

theorem memAccess_outside {k : AccessKind} {a : Nat} {ok err : State → Result} {s : State} (ha : 2 ^ 32 ≤ a) :
    memAccess k a ok err s = .fault (.outsideAddressSpace a) := if_neg (not_lt.mpr ha)

/-- Settles O36: a turn in a phase of the other family, and a byte access behind the last address. -/
theorem misfitStatesFault : Obligations.MisfitStatesFault := by
  unfold Obligations.MisfitStatesFault
  refine ⟨fun s i hl hfits => ?phase, fun s i hi hl hp ha => ?address⟩
  case phase =>
    have hbusy : s.eng.phase ≠ .idle := fun hidle => by rw [hidle] at hfits; cases hfits
    rcases block_or_buffer i with hi | hi
    · rw [exec_block_inFlight hi hl hbusy]
      refine advanceBlock_misfit fun hrun => ?_
      rw [hrun, phaseOfCommand, isBlockCommand_iff.mpr hi] at hfits
      cases hfits
    · rw [exec_buffer_inFlight hi hl hbusy]
      refine advanceBuffer_misfit ?_
      have hbuf := isBufferCommand_iff.mpr hi
      cases hp : s.eng.phase with
      | runBlock => rfl
      | idle => exact absurd hp hbusy
      | bufRead => simp [hp, phaseOfCommand, hbuf] at hfits
      | bufRounds => simp [hp, phaseOfCommand, hbuf] at hfits
      | bufWrite => simp [hp, phaseOfCommand, hbuf] at hfits
  case address =>
    rcases hp with hp | hp
    · rw [exec_buffer_inFlight hi hl (by simp [hp]), advanceBuffer_bufRead hp, memAccess_outside ha]
    · rw [exec_buffer_inFlight hi hl (by simp [hp]), advanceBuffer_bufWrite hp, memAccess_outside ha]

/-! ### The frames -/

/-- Settles O25: acceptance and a round leave all but the flags alone, the last step writes `V0`, `V1` and the flags, a
command turned away sets `WIGN`. -/
theorem blockCommandFrame : Obligations.BlockCommandFrame := by
  unfold Obligations.BlockCommandFrame
  intro s t i hi h
  by_cases hp : s.eng.phase = .idle
  · rw [exec_block_idle hi hp] at h
    cases h
    exact ⟨rfl, rfl, rfl, rfl, rfl, rfl, rfl, rfl, rfl, rfl, rfl, rfl, fun _ => rfl,
      fun _ => ⟨rfl, rfl, fun hbusy => absurd hp hbusy⟩⟩
  by_cases hl : s.eng.lop = i
  · rw [exec_block_inFlight hi hl hp] at h
    obtain ⟨hrun, ⟨hr, rfl⟩ | ⟨hr, rfl⟩⟩ := advanceBlock_next h
    · exact ⟨rfl, rfl, rfl, rfl, rfl, rfl, rfl, rfl, rfl, rfl, rfl, rfl, fun _ => rfl,
        fun hnot => absurd ⟨hrun, hl, hr⟩ hnot⟩
    · exact ⟨rfl, rfl, rfl, rfl, rfl, rfl, rfl, rfl, rfl, rfl, rfl, rfl, fun _ => rfl,
        fun _ => ⟨rfl, rfl, fun _ => ⟨rfl, rfl⟩⟩⟩
  · rw [exec_turnedAway hp hl] at h
    cases h
    exact ⟨rfl, rfl, rfl, rfl, rfl, rfl, rfl, rfl, rfl, rfl, rfl, rfl,
      fun hmine => (hmine.elim hp hl).elim, fun _ => ⟨rfl, rfl, fun _ => ⟨rfl, rfl⟩⟩⟩

/-- What a turn of a buffer command in flight leaves alone (R148, R153, R211). -/
structure BufferTurnFrame (s t : State) : Prop where
  /-- Of the registers, `PROGRESS`, `FAULTADDR` and the flags of the end may change. -/
  regs : t.regs = { s.regs with
    progress := t.regs.progress, faultAddr := t.regs.faultAddr, done := t.regs.done, err := t.regs.err }
  /-- Of memory, the byte of a `BUF_WRITE` step. -/
  mem : ∀ a, ¬ (s.eng.phase = .bufWrite ∧ a = s.eng.byteAddr) → t.mem.read a = s.mem.read a
  faultAddr : t.regs.faultAddr ≠ s.regs.faultAddr →
    t.regs.err = .busError ∧ t.regs.faultAddr = BitVec.ofNat 32 s.eng.byteAddr
  progress : t.regs.progress ≠ s.regs.progress → s.eng.phase = .bufWrite ∧ s.eng.beat = 7

/-- A turn that touches neither memory, nor `PROGRESS`, nor `FAULTADDR`. -/
theorem BufferTurnFrame.of_kept {s t : State} (hregs : t.regs = s.regs) (hmem : t.mem = s.mem) : BufferTurnFrame s t where
  regs := by rw [hregs]
  mem := fun a _ => by rw [hmem]
  faultAddr := fun h => absurd (by rw [hregs]) h
  progress := fun h => absurd (by rw [hregs]) h

theorem halfWrite_read_other {s : State} {a x : Nat} (b : Byte) (hx : x ≠ a) :
    (s.halfWrite a b).mem.read x = s.mem.read x := by
  rw [State.halfWrite_mem]
  split
  · exact Memory.read_write_other _ _ _ hx
  · rfl

theorem TurnOutcome.bufferFrame {s t : State} (h : TurnOutcome s t) (hp : s.eng.phase ≠ .runBlock) :
    BufferTurnFrame s t := by
  have stored {a : Nat} (hwrite : s.eng.phase = .bufWrite)
      (ha : ¬ (s.eng.phase = .bufWrite ∧ a = s.eng.byteAddr)) :
      (s.mem.write s.eng.byteAddr (outByte s)).read a = s.mem.read a :=
    Memory.read_write_other _ _ _ fun heq => ha ⟨hwrite, heq⟩
  cases h with
  | unanswered => exact .of_kept rfl rfl
  | round => exact .of_kept rfl rfl
  | blockFinished hrun => exact absurd hrun hp
  | byteTaken => exact .of_kept rfl rfl
  | blockArrived => exact .of_kept rfl rfl
  | readFailed => exact ⟨rfl, fun _ _ => rfl, fun _ => ⟨rfl, rfl⟩, fun hne => absurd rfl hne⟩
  | roundsOver => exact .of_kept rfl rfl
  | byteStored hwrite =>
    exact ⟨rfl, fun a => stored hwrite, fun hne => absurd rfl hne, fun hne => absurd rfl hne⟩
  | nextBlock hwrite _ hbeat =>
    exact ⟨rfl, fun a => stored hwrite, fun hne => absurd rfl hne, fun _ => ⟨hwrite, hbeat⟩⟩
  | bufferFinished hwrite _ hbeat =>
    exact ⟨rfl, fun a => stored hwrite, fun hne => absurd rfl hne, fun _ => ⟨hwrite, hbeat⟩⟩
  | writeFailed hwrite =>
    exact ⟨rfl, fun a ha => halfWrite_read_other _ fun heq => ha ⟨hwrite, heq⟩, fun _ => ⟨rfl, rfl⟩,
      fun hne => absurd rfl hne⟩

/-- Settles O34: acceptance by `startBuffer_frame`, a turn in flight by `BufferTurnFrame`, a command turned away sets
`WIGN`. -/
theorem bufferCommandFrame : Obligations.BufferCommandFrame := by
  unfold Obligations.BufferCommandFrame
  intro s t i hi h
  by_cases hp : s.eng.phase = .idle
  · rw [exec_buffer_idle hi hp] at h
    cases h
    obtain ⟨hbuild, hplat, hmem, hregs, hworld⟩ := startBuffer_frame i s
    rw [hbuild, hplat, hmem, hregs, hworld]
    exact ⟨rfl, rfl, rfl, rfl, rfl, rfl, rfl, rfl, rfl, rfl, rfl, rfl, rfl, rfl, fun _ => rfl, fun _ _ => rfl,
      fun hne => absurd rfl hne, fun _ => .inl hp⟩
  by_cases hl : s.eng.lop = i
  · subst hl
    have hout := exec_lop_outcome hp h
    have hrun : s.eng.phase ≠ .runBlock := fun hrun => by
      rw [exec_buffer_inFlight hi rfl hp, advanceBuffer_misfit hrun] at h
      cases h
    obtain ⟨hbuild, hplat, hworld⟩ := hout.frame
    obtain ⟨hregs, hmem, hfault, hprogress⟩ := hout.bufferFrame hrun
    refine ⟨hbuild, hplat, by rw [hworld], by rw [hworld], by rw [hworld], by rw [hworld], by rw [hregs], by rw [hregs],
      by rw [hregs], by rw [hregs], by rw [hregs], by rw [hregs], by rw [hregs], by rw [hregs], fun _ => by rw [hregs],
      fun a ha => hmem a fun hwrite => ha ⟨hwrite.1, rfl, hwrite.2⟩, hfault, fun hne => ?_⟩
    obtain ⟨hwrite, hbeat⟩ := hprogress hne
    exact .inr ⟨hwrite, rfl, hbeat⟩
  · rw [exec_turnedAway hp hl] at h
    cases h
    exact ⟨rfl, rfl, rfl, rfl, rfl, rfl, rfl, rfl, rfl, rfl, rfl, rfl, rfl, rfl, fun hmine => (hmine.elim hp hl).elim,
      fun _ _ => rfl, fun hne => absurd rfl hne, fun hne => absurd rfl hne⟩

/-! ### How a step calls on the meanings -/

/-- Settles O37: a write at `CMD` of an idle engine issues its word, and a legal word is its command's meaning. -/
theorem stepRunsTheDecodedCommand : Obligations.StepRunsTheDecodedCommand := by
  unfold Obligations.StepRunsTheDecodedCommand
  exact fun s es w i hs hw hev => (step_regWrite_cmd hs hev).trans (issueCommand_ok hw _)

/-- Settles O38: the engine's turn runs the command in flight, or rests. -/
theorem engineTurnRunsTheCommandInFlight : Obligations.EngineTurnRunsTheCommandInFlight := by
  unfold Obligations.EngineTurnRunsTheCommandInFlight
  intro s u hturn
  obtain ⟨hstep, heng, hline⟩ : step s = engineTurn u ∧ u.eng = s.eng ∧ u.world.resetLine = s.world.resetLine := by
    rcases hturn with ⟨hin, rfl⟩ | ⟨es, hev, rfl⟩
    · exact ⟨step_nil hin, rfl, rfl⟩
    · exact ⟨step_engine hev, rfl, rfl⟩
  rw [hstep, ← heng, ← hline]
  exact ⟨fun t hr hp hexec => ⟨engineTurn_busy hr hp hexec, settleRaces_eq_self⟩, engineTurn_idle⟩

end Sys2Proof.Machine
end

section
/-! Runs of the engine left to itself: a single-block command to its end (R124, R125), a buffer command's range (R145 to
R147), an access that is never answered, and the bound within which every command ends (R240). -/

namespace Sys2Proof.Machine

/-! ### A single-block command -/

/-- A single-block command is in flight, and the engine is left to itself. -/
structure State.RunningBlock (s : State) : Prop where
  command : s.eng.lop = .encBlock ∨ s.eng.lop = .decBlock
  phase : s.eng.phase = .runBlock
  inputs : s.world.inputs = []
  released : s.world.resetLine = false
  raced : s.world.raced = []

theorem State.RunningBlock.busy {s : State} (hs : s.RunningBlock) : s.eng.phase ≠ .idle := by simp [hs.phase]

theorem State.RunningBlock.step_eq {s u : State} (hs : s.RunningBlock)
    (h : advanceBlock (directionOf s.eng.lop) s = .next u) (hworld : u.world = s.world) : step s = .next u := by
  have hexec : exec s.eng.lop s = .next u := (exec_block_inFlight hs.command rfl hs.busy).trans h
  rw [step_nil hs.inputs, engineTurn_busy hs.released hs.busy hexec, settleRaces_eq_self (.inr (hworld ▸ hs.raced))]

theorem State.RunningBlock.step_round {s : State} (hs : s.RunningBlock) (hr : s.eng.rcnt ≠ 0#32) :
    step s = .next (roundStep (directionOf s.eng.lop) s) :=
  hs.step_eq ((advanceBlock_runBlock hs.phase).trans (if_neg hr)) rfl

theorem State.RunningBlock.step_finish {s : State} (hs : s.RunningBlock) (hr : s.eng.rcnt = 0#32) :
    step s = .next (finishBlock s) :=
  hs.step_eq ((advanceBlock_runBlock hs.phase).trans (if_pos hr)) rfl

/-- `t` is `s` some rounds later: the datapath has moved, with the same end before it, and nothing else has. -/
structure RoundsLater (s t : State) : Prop where
  running : t.RunningBlock
  remaining : t.remaining = s.remaining
  regs : t.regs = s.regs
  mem : t.mem = s.mem
  build : t.build = s.build
  plat : t.plat = s.plat

/-- `n` of the rounds left, in `n` steps. -/
theorem State.RunningBlock.runsTo_rounds {n : Nat} {s : State} (hs : s.RunningBlock) (hn : n ≤ s.eng.rcnt.toNat) :
    ∃ t, RunsTo n s t ∧ RoundsLater s t ∧ t.eng.rcnt.toNat + n = s.eng.rcnt.toNat := by
  induction n generalizing s with
  | zero => exact ⟨s, .refl s, ⟨hs, rfl, rfl, rfl, rfl, rfl⟩, rfl⟩
  | succ n ih =>
    have hr : s.eng.rcnt ≠ 0#32 := fun h => by simp [h] at hn
    have hone : (roundStep (directionOf s.eng.lop) s).eng.rcnt.toNat + 1 = s.eng.rcnt.toNat := toNat_sub_one hr
    have hnext : (roundStep (directionOf s.eng.lop) s).RunningBlock :=
      ⟨hs.command, hs.phase, hs.inputs, hs.released, hs.raced⟩
    obtain ⟨t, hrun, ⟨hrunning, hremaining, hregs, hmem, hbuild, hplat⟩, hleft⟩ := ih hnext (by omega)
    rw [roundStep_remaining hr] at hremaining
    exact ⟨t, .head (hs.step_round hr) hrun, ⟨hrunning, hremaining, hregs, hmem, hbuild, hplat⟩, by omega⟩

/-- The state in which a single-block command that the host issues begins its rounds (R120). -/
def State.rounding (i : Instr) (s : State) : State := startBlock i (directionOf i) s.issued

theorem State.rounding_runningBlock {i : Instr} (hi : i = .encBlock ∨ i = .decBlock) {s : State}
    (hraced : s.world.raced = []) : (s.rounding i).RunningBlock :=
  ⟨hi, rfl, rfl, rfl, hraced⟩

theorem State.rounding_remaining (i : Instr) (s : State) :
    (s.rounding i).remaining =
      runRounds s.build.cipher (directionOf i) ⟨s.regs.v0, s.regs.v1⟩ s.regs.key s.regs.rounds := rfl

/-- Acceptance and then `n` of the `R` rounds. -/
theorem runsTo_roundsLater {i : Instr} (hi : i = .encBlock ∨ i = .decBlock) {s : State} (hin : s.world.inputs = [])
    (hraced : s.world.raced = []) {n : Nat} (hn : n ≤ s.regs.rounds.toNat) :
    ∃ t, RunsTo (n + 1) (s.withFetchWord 32 (encode i).toNat) t ∧ RoundsLater (s.rounding i) t ∧
      t.eng.rcnt.toNat + n = s.regs.rounds.toNat := by
  have haccept : step (s.withFetchWord 32 (encode i).toNat) = .next (s.rounding i) :=
    (step_withFetchWord hin i).trans (exec_block_idle hi rfl)
  obtain ⟨t, hrun, hlater, hleft⟩ := (s.rounding_runningBlock hi hraced).runsTo_rounds hn
  exact ⟨t, .head haccept hrun, hlater, hleft⟩

/-- Settles O24: after acceptance and `R` rounds no round is left, and the end writes back what the rounds gave. -/
theorem blockCommandsTransformTheirBlock : Obligations.BlockCommandsTransformTheirBlock := by
  unfold Obligations.BlockCommandsTransformTheirBlock
  intro s i hi _ hin hraced
  refine ⟨?ended, fun n hlo hhi => ?running⟩
  case ended =>
    obtain ⟨t, hrun, ht, hleft⟩ := runsTo_roundsLater hi hin hraced (le_refl s.regs.rounds.toNat)
    have hr : t.eng.rcnt = 0#32 := BitVec.eq_of_toNat_eq (Nat.add_eq_right.mp hleft)
    have hblock := State.block_of_done hr (ht.remaining.trans (s.rounding_remaining i))
    refine ⟨_, hrun.trans (.head (ht.running.step_finish hr) (.refl _)), ?_, rfl, ht.mem, ht.build, ht.plat⟩
    rw [← hblock, finishBlock_regs, ht.regs]
    rfl
  case running =>
    obtain ⟨m, rfl⟩ : ∃ m, n = m + 1 := ⟨n - 1, by omega⟩
    obtain ⟨t, hrun, ht, -⟩ := runsTo_roundsLater (n := m) hi hin hraced (by omega)
    exact ⟨t, hrun, State.busy_iff.mpr ht.running.busy, ht.regs, ht.mem⟩

/-! ### A buffer command -/

/-- Settles O31: `runsTo_bufferDone`, for a range that passes the checks. -/
theorem bufferCommandsTransformTheirBlocks : Obligations.BufferCommandsTransformTheirBlocks := by
  unfold Obligations.BufferCommandsTransformTheirBlocks
  intro s i hi _ hin hraced halign hrange hmem
  obtain ⟨t, hrun, ht⟩ :=
    runsTo_bufferDone hi hin hraced ⟨misaligned_eq_false.mpr halign, outOfRange_eq_false.mpr hrange⟩ hmem
  exact ⟨t, hrun, ht.mem, ht.regs, ht.idle, ht.build, ht.plat⟩

/-- Settles O32: each block's write stays inside the block. -/
theorem blocksAreTransformedIndependently : Obligations.BlocksAreTransformedIndependently := by
  unfold Obligations.BlocksAreTransformedIndependently
  exact fun bd d k r n a m hm ha =>
    ⟨fun j hj => blockAt_cipherBlocks bd d k r hm ha hj, fun x hx => cipherBlocks_read_outside bd d k r hm ha hx⟩

/-! ### An access that is never answered -/

/-- A byte access that is not answered leaves the machine where it is. -/
theorem State.Inv.step_unanswered {s : State} (hs : s.Inv) (hin : s.world.inputs = [])
    (hhang : (s.eng.phase = .bufRead ∧ platformReply s.plat .read s.eng.byteAddr = .neverAnswers) ∨
      (s.eng.phase = .bufWrite ∧ platformReply s.plat .write s.eng.byteAddr = .neverAnswers)) :
    step s = .next s := by
  have hbuf : s.eng.phase.ofBuffer = true := by rcases hhang with ⟨hp, -⟩ | ⟨hp, -⟩ <;> rw [hp] <;> rfl
  have hbusy := Phase.ne_idle_of_ofBuffer hbuf
  have ha := hs.byteAddr_lt hbuf
  have hexec : exec s.eng.lop s = .next s := by
    rw [exec_buffer_inFlight (isBufferCommand_iff.mp (hs.bufferCommand hbuf)) rfl hbusy]
    rcases hhang with ⟨hp, hr⟩ | ⟨hp, hr⟩
    · rw [advanceBuffer_bufRead hp, memAccess_neverAnswers ha hr]
    · rw [advanceBuffer_bufWrite hp, memAccess_neverAnswers ha hr]
  rw [step_nil hin, engineTurn_busy (hs.released_of_busy hbusy) hbusy hexec, settleRaces_eq_self (.inl hbusy)]

theorem runsTo_self {s : State} (h : step s = .next s) (n : Nat) : RunsTo n s s := by
  induction n with
  | zero => exact .refl s
  | succ n ih => exact .head h ih

/-- Settles O30: the step is the state itself, and so is every run. -/
theorem unansweredAccessHangsTheEngine : Obligations.UnansweredAccessHangsTheEngine := by
  unfold Obligations.UnansweredAccessHangsTheEngine
  exact fun s n hs hin hhang => runsTo_self (hs.step_unanswered hin hhang) n

/-! ### Every command ends -/

/-- The steps that the blocks after the current one take. -/
def State.laterBlocks (s : State) : Nat := (s.eng.lnb.toNat - (s.eng.bidx.toNat + 1)) * (17 + s.eng.lr.toNat)

/-- The steps that the command in flight still takes where no access fails (R125, R145). -/
def State.stepsLeft (s : State) : Nat :=
  match s.eng.phase with
  | .idle => 0
  | .runBlock => s.eng.rcnt.toNat + 1
  | .bufRead => s.laterBlocks + (8 - s.eng.beat.val) + (s.eng.lr.toNat + 1) + 8
  | .bufRounds => s.laterBlocks + (s.eng.rcnt.toNat + 1) + 8
  | .bufWrite => s.laterBlocks + (8 - s.eng.beat.val)

theorem State.stepsLeft_runBlock {s : State} (hp : s.eng.phase = .runBlock) : s.stepsLeft = s.eng.rcnt.toNat + 1 := by
  rw [State.stepsLeft, hp]

theorem State.stepsLeft_bufRead {s : State} (hp : s.eng.phase = .bufRead) :
    s.stepsLeft = s.laterBlocks + (8 - s.eng.beat.val) + (s.eng.lr.toNat + 1) + 8 := by rw [State.stepsLeft, hp]

theorem State.stepsLeft_bufRounds {s : State} (hp : s.eng.phase = .bufRounds) :
    s.stepsLeft = s.laterBlocks + (s.eng.rcnt.toNat + 1) + 8 := by rw [State.stepsLeft, hp]

theorem State.stepsLeft_bufWrite {s : State} (hp : s.eng.phase = .bufWrite) :
    s.stepsLeft = s.laterBlocks + (8 - s.eng.beat.val) := by rw [State.stepsLeft, hp]

/-- The steps left are within the bound of `stepBound` (R240). -/
theorem State.Inv.stepsLeft_le {s : State} (hs : s.Inv) (hbusy : s.eng.phase ≠ .idle) : s.stepsLeft ≤ stepBound s := by
  have inBuffer (hp : s.eng.phase.ofBuffer = true) :
      s.laterBlocks + (17 + s.eng.lr.toNat) ≤ s.eng.lnb.toNat * (17 + s.eng.lr.toNat) := by
    obtain ⟨-, -, -, hidx, -⟩ := hs.buffer_range hp
    rw [State.laterBlocks, ← Nat.succ_mul]
    exact Nat.mul_le_mul_right _ (by omega)
  have hrounds := hs.rounds_left
  cases hp : s.eng.phase with
  | idle => exact absurd hp hbusy
  | runBlock => rw [s.stepsLeft_runBlock hp, stepBound, if_pos hp]
  | bufRead =>
    have := inBuffer (by rw [hp]; rfl)
    rw [s.stepsLeft_bufRead hp, stepBound, if_neg (by simp [hp])]
    omega
  | bufRounds =>
    have := inBuffer (by rw [hp]; rfl)
    have := hrounds (by rw [hp]; rfl)
    rw [s.stepsLeft_bufRounds hp, stepBound, if_neg (by simp [hp])]
    omega
  | bufWrite =>
    have := inBuffer (by rw [hp]; rfl)
    rw [s.stepsLeft_bufWrite hp, stepBound, if_neg (by simp [hp])]
    omega

/-- A round takes one of the steps left. -/
theorem stepsLeft_roundStep {s : State} (hp : s.eng.phase.runsRounds = true) (hr : s.eng.rcnt ≠ 0#32) :
    (roundStep (directionOf s.eng.lop) s).stepsLeft + 1 = s.stepsLeft := by
  have hone : (roundStep (directionOf s.eng.lop) s).eng.rcnt.toNat + 1 = s.eng.rcnt.toNat := toNat_sub_one hr
  have hlater : (roundStep (directionOf s.eng.lop) s).laterBlocks = s.laterBlocks := rfl
  cases hq : s.eng.phase with
  | runBlock =>
    rw [s.stepsLeft_runBlock hq, State.stepsLeft_runBlock (s := roundStep _ s) hq]
    omega
  | bufRounds =>
    rw [s.stepsLeft_bufRounds hq, State.stepsLeft_bufRounds (s := roundStep _ s) hq]
    omega
  | idle => rw [hq] at hp; cases hp
  | bufRead => rw [hq] at hp; cases hp
  | bufWrite => rw [hq] at hp; cases hp

/-- The next block's steps are the first of those that come after the current block. -/
theorem laterBlocks_toNextBlock {s : State} (hmore : s.eng.bidx.toNat + 1 < s.eng.lnb.toNat) :
    s.toNextBlock.laterBlocks + (17 + s.eng.lr.toNat) = s.laterBlocks := by
  have hlnb : s.toNextBlock.eng.lnb = s.eng.lnb := rfl
  have hlr : s.toNextBlock.eng.lr = s.eng.lr := rfl
  rw [State.laterBlocks, State.laterBlocks, State.toNextBlock_bidx hmore, hlnb, hlr, ← Nat.succ_mul]
  congr 1
  omega

/-- Where every access is answered, a turn ends the command or takes one of the steps left. -/
theorem TurnOutcome.stepsLeft {s t : State} (h : TurnOutcome s t) (hplat : alwaysAnswers s.plat) :
    (t.eng.phase = .idle ∧ t.regs.done = true) ∨ (t.eng.phase ≠ .idle ∧ t.stepsLeft + 1 = s.stepsLeft) := by
  have hbusy := h.busy
  cases h with
  | unanswered _ hr => exact absurd hr (hplat _ _)
  | round hp hr => exact .inr ⟨hbusy, stepsLeft_roundStep hp hr⟩
  | blockFinished => exact .inl ⟨rfl, rfl⟩
  | byteTaken hp hbeat =>
    have hnext : s.byteTaken.eng.beat.val = s.eng.beat.val + 1 := (Fin8.val_succ hbeat).1
    have hlast := (Fin8.val_succ hbeat).2
    have hlater : s.byteTaken.laterBlocks = s.laterBlocks := rfl
    have hlr : s.byteTaken.eng.lr = s.eng.lr := rfl
    refine .inr ⟨hbusy, ?_⟩
    rw [s.stepsLeft_bufRead hp, s.byteTaken.stepsLeft_bufRead hp, hlater, hlr]
    omega
  | blockArrived hp hbeat =>
    have hlater : s.blockArrived.laterBlocks = s.laterBlocks := rfl
    have hrcnt : s.blockArrived.eng.rcnt = s.eng.lr := rfl
    have hval : s.eng.beat.val = 7 := by rw [hbeat]; rfl
    refine .inr ⟨nofun, ?_⟩
    rw [s.stepsLeft_bufRead hp, s.blockArrived.stepsLeft_bufRounds rfl, hlater, hrcnt]
    omega
  | readFailed => exact .inl ⟨rfl, rfl⟩
  | roundsOver hp hr =>
    refine .inr ⟨nofun, ?_⟩
    rw [s.stepsLeft_bufRounds hp, State.stepsLeft_bufWrite rfl, hr]
    rfl
  | byteStored hp _ hbeat =>
    have hnext : s.byteStored.eng.beat.val = s.eng.beat.val + 1 := (Fin8.val_succ hbeat).1
    have hlast := (Fin8.val_succ hbeat).2
    have hlater : s.byteStored.laterBlocks = s.laterBlocks := rfl
    refine .inr ⟨hbusy, ?_⟩
    rw [s.stepsLeft_bufWrite hp, s.byteStored.stepsLeft_bufWrite hp, hlater]
    omega
  | nextBlock hp _ hbeat hmore =>
    have hlater : s.lastByteStored.toNextBlock.laterBlocks + (17 + s.eng.lr.toNat) = s.laterBlocks :=
      laterBlocks_toNextBlock (s := s.lastByteStored) hmore
    have hlr : s.lastByteStored.toNextBlock.eng.lr = s.eng.lr := rfl
    have hfirst : s.lastByteStored.toNextBlock.eng.beat.val = 0 := rfl
    have hval : s.eng.beat.val = 7 := by rw [hbeat]; rfl
    refine .inr ⟨nofun, ?_⟩
    rw [s.stepsLeft_bufWrite hp, State.stepsLeft_bufRead rfl, hlr]
    omega
  | bufferFinished => exact .inl ⟨rfl, rfl⟩
  | writeFailed => exact .inl ⟨rfl, rfl⟩

theorem State.stepsLeft_congr {s t : State} (h : t.eng = s.eng) : t.stepsLeft = s.stepsLeft := by
  simp only [State.stepsLeft, State.laterBlocks, h]

/-- A command in flight has a step to take. -/
theorem State.stepsLeft_pos {s : State} (hbusy : s.eng.phase ≠ .idle) : 0 < s.stepsLeft := by
  have hbeat := s.eng.beat.isLt
  cases hp : s.eng.phase with
  | idle => exact absurd hp hbusy
  | runBlock => rw [s.stepsLeft_runBlock hp]; omega
  | bufRead => rw [s.stepsLeft_bufRead hp]; omega
  | bufRounds => rw [s.stepsLeft_bufRounds hp]; omega
  | bufWrite => rw [s.stepsLeft_bufWrite hp]; omega

/-- One step of a busy engine left to itself ends the command or takes one of the steps left. -/
theorem State.Inv.step_stepsLeft {s : State} (hs : s.Inv) (hin : s.world.inputs = []) (hbusy : s.eng.phase ≠ .idle)
    (hplat : alwaysAnswers s.plat) :
    ∃ t, step s = .next t ∧ t.world.inputs = [] ∧ t.plat = s.plat ∧
      ((t.eng.phase = .idle ∧ t.regs.done = true) ∨ (t.eng.phase ≠ .idle ∧ t.stepsLeft + 1 = s.stepsLeft)) := by
  obtain ⟨u, hu⟩ := hs.exec_lop_exists hbusy
  have hout := exec_lop_outcome hbusy hu
  obtain ⟨-, hplat', hworld⟩ := hout.frame
  obtain ⟨-, hplat'', hregs, heng, hinputs, -⟩ := settleRaces_frame u
  refine ⟨settleRaces u, (step_nil hin).trans (engineTurn_busy (hs.released_of_busy hbusy) hbusy hu), ?_,
    hplat''.trans hplat', ?_⟩
  · rw [hinputs, hworld]; exact hin
  · rw [heng, hregs, State.stepsLeft_congr heng]; exact hout.stepsLeft hplat

/-- A busy engine left to itself is idle, with `DONE` set, within the steps left. -/
theorem State.Inv.ends_within {n : Nat} {s : State} (hs : s.Inv) (hin : s.world.inputs = [])
    (hbusy : s.eng.phase ≠ .idle) (hplat : alwaysAnswers s.plat) (hn : s.stepsLeft ≤ n) :
    ∃ m t, m ≤ n ∧ RunsTo m s t ∧ t.eng.phase = .idle ∧ t.regs.done = true := by
  induction n generalizing s with
  | zero => exact absurd (State.stepsLeft_pos hbusy) (by omega)
  | succ n ih =>
    obtain ⟨t, hstep, hin', hplat', ⟨hidle, hdone⟩ | ⟨hbusy', hleft⟩⟩ := hs.step_stepsLeft hin hbusy hplat
    · exact ⟨1, t, by omega, .head hstep (.refl t), hidle, hdone⟩
    · obtain ⟨m, u, hm, hrun, hend⟩ := ih (hs.of_step hstep) hin' hbusy' (hplat' ▸ hplat) (by omega)
      exact ⟨m + 1, u, by omega, .head hstep hrun, hend⟩

/-- Settles O50: the steps left are within the bound, and each step takes one of them or ends the command. -/
theorem everyCommandEnds : Obligations.EveryCommandEnds := by
  unfold Obligations.EveryCommandEnds
  exact fun s hs hin hbusy hplat => hs.ends_within hin hbusy hplat (hs.stepsLeft_le hbusy)

end Sys2Proof.Machine
end

section
/-! The host and the other agents: what a reset cuts short (R231), host reads (R182, R183), another agent's accesses to
memory (R77; log entries 10 to 12 and 26), and the lines of a host program (R85; log entry 27). -/

namespace Sys2Proof.Machine

/-! ### A reset during a command -/

/-- With no race to settle, the cut byte is all that asserting reset does to memory (R231). -/
theorem assertReset_mem {s : State} (hraced : s.world.raced = []) : (assertReset s).mem = (cutWrite s).mem := by
  have hcut : (cutWrite s).world.raced = [] := by
    rcases cutWrite_cases s with h | ⟨-, -, h⟩ <;> rw [h] <;> exact hraced
  have hsettle : settleRaces (cutWrite s).resetEngine = (cutWrite s).resetEngine := settleRaces_eq_self (.inr hcut)
  rw [assertReset, State.setWorld_mem, hsettle]
  rfl

/-- A write cut short leaves every byte but its own alone, and its own old or written (R231). -/
theorem cutWrite_read {s : State} (hm : s.mem.wf) (x : Nat) :
    (cutWrite s).mem.read x = s.mem.read x ∨
    (s.eng.phase = .bufWrite ∧ x = s.eng.byteAddr ∧ (cutWrite s).mem.read x = outByte s) := by
  rcases cutWrite_cases s with h | ⟨hp, -, h⟩ <;> rw [h]
  · exact .inl rfl
  · exact (halfWrite_read hm s.eng.byteAddr x (outByte s)).imp_right fun ⟨hx, hb⟩ => ⟨hp, hx, hb⟩

/-- Settles O11: of memory, asserting reset reaches the byte cut short alone. -/
theorem resetKeepsMemoryButForTheByteInFlight : Obligations.ResetKeepsMemoryButForTheByteInFlight := by
  unfold Obligations.ResetKeepsMemoryButForTheByteInFlight
  intro s es hm hev hraced
  have hreset := assertReset_atReset (s.withInputs es)
  have hmem := assertReset_mem (s := s.withInputs es) hraced
  have hread (x : Nat) := cutWrite_read (s := s.withInputs es) hm x
  refine ⟨_, step_resetAssert hev, by rw [hreset.regs]; rfl, hreset.irq, by rw [hreset.regs]; rfl,
    fun a ha => ?others, fun _ => ?own⟩ <;> rw [hmem]
  case others => exact (hread a).resolve_right fun ⟨hp, hx, _⟩ => ha ⟨hp, hx⟩
  case own => exact (hread s.eng.byteAddr).imp_right fun ⟨_, _, hb⟩ => hb

/-! ### Host reads -/

/-- Settles O13: a read in reset is not taken, and out of reset it is `hostRead_frame`. -/
theorem readsHaveNoSideEffect : Obligations.ReadsHaveNoSideEffect := by
  unfold Obligations.ReadsHaveNoSideEffect
  intro s es a hev
  cases hr : s.world.resetLine with
  | true => exact ⟨_, step_regRead_reset hev hr, rfl, rfl, rfl, rfl, rfl, rfl, hr⟩
  | false =>
    obtain ⟨hbuild, hplat, hregs, heng, hmem, ws, p, hworld, -⟩ := hostRead_frame a (s.withInputs es)
    refine ⟨_, step_regRead hev hr, hregs, heng, hmem, hbuild, hplat, ?_, ?_⟩ <;> rw [hworld]
    · rfl
    · exact hr

/-- The state with other keys, in the registers and latched. -/
def State.withKeys (k lk : Key) (s : State) : State :=
  { s with regs := { s.regs with key := k }, eng := { s.eng with lk := lk } }

/-- No read returns a key (R28). -/
theorem readReg_withKeys (k lk : Key) (r : Reg) (s : State) : readReg r (s.withKeys k lk) = readReg r s := by
  cases r <;> rfl

/-- A host read does the same whatever the keys are. -/
theorem hostRead_withKeys (k lk : Key) (a : Access) (s : State) :
    hostRead a (s.withKeys k lk) = (hostRead a s).withKeys k lk := by
  have hplat : (s.withKeys k lk).plat = s.plat := rfl
  cases htarget : accessTarget s.plat.regBase a with
  | outside => simp only [hostRead, hplat, htarget]; rfl
  | erroneous => simp only [hostRead, hplat, htarget]; rfl
  | reserved => simp only [hostRead, hplat, htarget]; rfl
  | register r =>
    have hobs : observesEnd r (s.withKeys k lk) = observesEnd r s := rfl
    simp only [hostRead, hplat, htarget, hobs, readReg_withKeys]
    split <;> rfl

theorem step_regRead_withKeys {s : State} {es : List Event} {a : Access} (hev : s.nextEvent (.regRead a) es)
    (k lk : Key) : ∃ t, step s = .next t ∧ step (s.withKeys k lk) = .next (t.withKeys k lk) := by
  cases hr : s.world.resetLine with
  | true => exact ⟨_, step_regRead_reset hev hr, step_regRead_reset (s := s.withKeys k lk) hev hr⟩
  | false =>
    refine ⟨_, step_regRead hev hr, (step_regRead (s := s.withKeys k lk) hev hr).trans (congrArg _ ?_)⟩
    exact hostRead_withKeys k lk a (s.withInputs es)

/-- Settles O19: the read does the same in both states, and leaves the keys. -/
theorem keysAreNeverReadBack : Obligations.KeysAreNeverReadBack := by
  unfold Obligations.KeysAreNeverReadBack
  intro s t es a hsame hev
  have ht : t = s.withKeys t.regs.key t.eng.lk := hsame
  obtain ⟨u, hs, hkeys⟩ := step_regRead_withKeys hev t.regs.key t.eng.lk
  exact ⟨u, u.withKeys t.regs.key t.eng.lk, hs, by rw [ht]; exact hkeys, rfl, rfl⟩

/-! ### Other agents and memory -/

theorem hostMemRead_outside {s : State} {a : BitVec 32} (h : s.ownedBlocks a.toNat = []) :
    (hostMemRead a s).world.resp = .memData (s.mem.read a.toNat) := by
  rw [hostMemRead, if_pos h]; rfl

theorem hostMemRead_inside {s : State} {a : BitVec 32} (h : s.ownedBlocks a.toNat ≠ []) :
    (hostMemRead a s).world.resp = .memData (Config.freeByte s.world.draws) := by
  rw [hostMemRead, if_neg h]; rfl

/-- Settles O51: a byte is in some range exactly when a block of it is owned. -/
theorem racingReadsAreFree : Obligations.RacingReadsAreFree := by
  unfold Obligations.RacingReadsAreFree
  intro s es a hev
  obtain ⟨-, -, hregs, heng, hmem, -⟩ := hostMemRead_frame a (s.withInputs es)
  refine ⟨_, step_memRead hev, hregs, heng, hmem, fun ⟨w, hw, hlo, hhi⟩ => ?inside, fun hout => ?outside⟩
  case inside =>
    refine hostMemRead_inside (s := s.withInputs es) fun hnil => ?_
    have := ownedBlocks_eq_nil_iff.mp hnil w hw
    omega
  case outside => exact hostMemRead_outside (s := s.withInputs es) (ownedBlocks_eq_nil_iff.mpr hout)

/-- A byte outside the block that holds `a` is not one of the eight that a race there reaches. -/
theorem blockOf_disjoint {w : Window} {a x : Nat} (hlo : w.base ≤ a)
    (hx : x < w.base ∨ (x - w.base) / 8 ≠ (a - w.base) / 8) : x < w.blockOf a ∨ w.blockOf a + 8 ≤ x := by
  rw [Window.blockOf]
  omega

/-- Settles O52: outside every range nothing is scrambled; inside, the blocks written into are. -/
theorem hostMemoryWritesReachTheirByte : Obligations.HostMemoryWritesReachTheirByte := by
  unfold Obligations.HostMemoryWritesReachTheirByte
  intro s es a b hm hev
  obtain ⟨-, -, hregs, heng, hmem, k, hworld⟩ := hostMemWrite_frame a b (s.withInputs es)
  refine ⟨_, step_memWrite hev, hregs, heng, by rw [hworld], fun hout x => ?outside, fun x hx hblocks => ?inside⟩ <;>
    rw [hmem]
  case outside =>
    have hnil : (s.withInputs es).ownedBlocks a.toNat = [] := ownedBlocks_eq_nil_iff.mpr hout
    rw [hnil]
    exact Memory.read_write hm.1 a.toNat x b
  case inside =>
    refine (scrambleBlocks_read _ fun c hc => ?_).trans (Memory.read_write_other _ _ _ hx)
    obtain ⟨w, hw, hholds, rfl, -⟩ := mem_ownedBlocks hc
    obtain ⟨hlo, hhi⟩ : w.base ≤ a.toNat ∧ a.toNat < w.base + 8 * w.blocks := by simpa [Window.holds] using hholds
    exact blockOf_disjoint hlo (hblocks w hw hlo hhi)

/-- With every range lifted, a read of memory returns the byte (log entry 26). -/
theorem step_memRead_published {s : State} {es : List Event} {a : BitVec 32} (hev : s.nextEvent (.memRead a) es)
    (hws : s.world.windows = []) :
    ∃ t, step s = .next t ∧ t.world.resp = .memData (s.mem.read a.toNat) ∧ t.mem = s.mem := by
  obtain ⟨-, -, -, -, hmem, -⟩ := hostMemRead_frame a (s.withInputs es)
  have hnil : (s.withInputs es).ownedBlocks a.toNat = [] := ownedBlocks_eq_nil_iff.mpr (by simp [hws])
  exact ⟨_, step_memRead hev, hostMemRead_outside hnil, hmem⟩

/-- A read of `STATUS` on an idle engine lifts every range (R71, R77; log entry 12). -/
theorem hostRead_status_idle {s : State} (hp : s.eng.phase = .idle) :
    hostRead (regAccess s.plat.regBase .status) s = (s.respond (.data (readReg .status s))).closeWindows := by
  unfold hostRead
  rw [accessTarget_regAccess]
  exact if_pos (by simp [observesEnd, State.not_busy_iff.mpr hp])

/-- A sight of the interrupt output at 1 lifts every range (R71, R77). -/
theorem hostIrq_high {s : State} (h : s.irq = true) : hostIrq s = (s.respond (.irq s.irq)).closeWindows := if_pos h

/-- Settles O53: either observation lifts every range, and the read after it returns the byte. -/
theorem observingTheEndPublishesMemory : Obligations.ObservingTheEndPublishesMemory := by
  unfold Obligations.ObservingTheEndPublishesMemory
  intro s es a hr hobs
  obtain ⟨u, hu, hmem, hws, hev⟩ : ∃ u, step s = .next u ∧ u.mem = s.mem ∧ u.world.windows = [] ∧
      u.nextEvent (.memRead a) es := by
    rcases hobs with ⟨hp, hev⟩ | ⟨hirq, hev⟩
    · have hstatus := hostRead_status_idle (s := s.withInputs (.memRead a :: es)) hp
      exact ⟨_, (step_regRead hev hr).trans (congrArg _ hstatus), rfl, rfl, rfl⟩
    · have hhigh := hostIrq_high (s := s.withInputs (.memRead a :: es)) hirq
      exact ⟨_, (step_irqSample hev).trans (congrArg _ hhigh), rfl, rfl, rfl⟩
  obtain ⟨t, ht, hresp, hmem'⟩ := step_memRead_published hev hws
  rw [hmem] at hresp hmem'
  exact ⟨t, RunsTo.head hu (.head ht (.refl t)), hresp, hmem'⟩

/-! ### The lines of a host program -/

/-- A turn at a line is the step of its transaction. -/
theorem hostTurn_of_step {h : HostRun} {op : HostOp} {rest : List HostOp} {t : State} (ht : h.todo = op :: rest)
    (hstep : step (h.machine.withInputs [op.event h.machine.plat.regBase]) = .next t) :
    hostTurn h = .next (h.answered op rest t) := by
  rw [hostTurn_cons ht, hstep, HostResult.ofStep_next]

/-- Out of reset, a program's read of a register is answered with its value and changes no register, no internal state and no
memory (R182, R183). -/
theorem step_program_read {s : State} (r : Reg) (hr : s.world.resetLine = false) :
    ∃ t, step (s.withInputs [.regRead (regAccess s.plat.regBase r)]) = .next t ∧ t.regs = s.regs ∧ t.eng = s.eng ∧
      t.mem = s.mem ∧ t.world.resp = .data (readReg r s) := by
  have hstep := step_regRead (s := s.withInputs [.regRead (regAccess s.plat.regBase r)]) rfl hr
  obtain ⟨-, -, hregs, heng, hmem, -⟩ := hostRead_frame (regAccess s.plat.regBase r) (s.withInputs [])
  refine ⟨_, hstep, hregs, heng, hmem, ?_⟩
  refine (hostRead_resp (accessTarget_regAccess _ r)).trans (congrArg _ ?_)
  exact readReg_congr rfl rfl rfl r

/-- Of the flags of `STATUS`, only the one at position 1 shows in bit 1. -/
theorem flagBit_getLsbD_one (b : Bool) :
    (flagBit b 0).getLsbD 1 = false ∧ (flagBit b 1).getLsbD 1 = b ∧ (flagBit b 2).getLsbD 1 = false := by
  cases b <;> decide

/-- Bit 1 of `STATUS` is `DONE` (R24). -/
theorem statusWord_done (s : State) : (statusWord s).getLsbD 1 = s.regs.done := by
  have hcode : (s.regs.err.code <<< 4).getLsbD 1 = false := by simp
  obtain ⟨hbusy, -, -⟩ := flagBit_getLsbD_one s.busy
  obtain ⟨-, hdone, -⟩ := flagBit_getLsbD_one s.regs.done
  obtain ⟨-, -, hwign⟩ := flagBit_getLsbD_one s.regs.wign
  simp only [statusWord, BitVec.getLsbD_or, hbusy, hdone, hwign, hcode, Bool.false_or, Bool.or_false]

/-- A command's acceptance, and an illegal word, leave the host's answer as it is. -/
theorem issueCommand_resp {w : Word} {s t : State} (hp : s.eng.phase = .idle) (h : issueCommand w s = .next t) :
    t.world.resp = s.world.resp := by
  cases hw : decode w with
  | error e => rw [issueCommand_error hw] at h; cases h; rfl
  | ok i =>
    rw [issueCommand_ok hw] at h
    rcases block_or_buffer i with hi | hi
    · rw [exec_block_idle hi hp] at h; cases h; rfl
    · rw [exec_buffer_idle hi hp] at h
      cases h
      obtain ⟨-, -, -, -, hworld⟩ := startBuffer_frame i s
      rw [hworld]

/-- A program's write of a register is answered, whatever it starts: not taken in reset, taken otherwise (log entry 27). -/
theorem takeEvent_regWrite_resp {s t : State} {r : Reg} {d : Word}
    (h : takeEvent (.regWrite (regAccess s.plat.regBase r) d) s = .next t) :
    t.world.resp = if s.world.resetLine then .notTaken else .written := by
  cases hr : s.world.resetLine with
  | true => rw [takeEvent_regWrite_reset hr] at h; cases h; rfl
  | false =>
    cases hc : issuesCommand (regAccess s.plat.regBase r) s with
    | true =>
      rw [takeEvent_command hr hc] at h
      exact issueCommand_resp (s := s.respond .written) (issuesCommand_iff.mp hc).1 h
    | false =>
      rw [takeEvent_regWrite hr hc] at h
      cases h
      unfold hostWrite
      rw [accessTarget_regAccess]
      rfl

/-- Settles O55: a turn is the step of its line's transaction, and the answer says whether the line is over. -/
theorem hostTurnsFollowTheProgram : Obligations.HostTurnsFollowTheProgram := by
  unfold Obligations.HostTurnsFollowTheProgram
  refine ⟨fun h rest hop hr => ?waitDone, fun h rest r hop hr => ?rd, fun h rest r d hop hs => ?wr,
    fun h rest a hop => ?memRead, fun h rest a b hop => ?memWrite⟩
  case waitDone =>
    obtain ⟨t, hstep, hregs, heng, hmem, hresp⟩ := step_program_read .status hr
    refine ⟨_, hostTurn_of_step hop hstep, hregs, heng, hmem, by rw [HostRun.answered_answers, hresp], ?_⟩
    have hdone : HostOp.over t.world.resp .waitDone = h.machine.regs.done := by
      rw [hresp]; exact statusWord_done h.machine
    rw [HostRun.answered_todo, hdone]
  case rd =>
    obtain ⟨t, hstep, hregs, heng, hmem, hresp⟩ := step_program_read r hr
    exact ⟨_, hostTurn_of_step hop hstep, hregs, heng, hmem, by rw [HostRun.answered_answers, hresp], rfl⟩
  case wr =>
    obtain ⟨t, hstep⟩ := (hs.withInputs [.regWrite (regAccess h.machine.plat.regBase r) d]).step_exists
    have hresp := takeEvent_regWrite_resp (s := h.machine.withInputs []) hstep
    exact ⟨_, hostTurn_of_step hop hstep, rfl, by rw [HostRun.answered_answers, hresp]; rfl, hstep⟩
  case memRead =>
    have hstep := step_memRead (s := h.machine.withInputs [.memRead a]) rfl
    exact ⟨_, hostTurn_of_step hop hstep, rfl, rfl, hstep⟩
  case memWrite =>
    have hstep := step_memWrite (s := h.machine.withInputs [.memWrite a b]) rfl
    exact ⟨_, hostTurn_of_step hop hstep, rfl, rfl, hstep⟩

end Sys2Proof.Machine
end

section
/-! What is read off one definition: the fields of an illegal word (R82), the table's words (R81), the round formulas
(R103 to R117), the reset values (10_state.md section 5) and the packing of key bytes (R155). -/

namespace Sys2Proof

/-! ### Illegal words by field -/

/-- The bits above OP are 0 exactly when MBZ is. -/
theorem shiftRight_eq_zero_iff {w : Word} : w >>> 4 = 0#32 ↔ mbzField w = 0 := by
  have hshift : (w >>> 4).toNat = w.toNat / 2 ^ 4 := by rw [BitVec.toNat_ushiftRight, Nat.shiftRight_eq_div_pow]
  have hmbz : (mbzField w).toNat = w.toNat / 2 ^ 4 := by
    have hw := w.isLt
    rw [mbzField, BitVec.extractLsb'_toNat, Nat.shiftRight_eq_div_pow, Nat.mod_eq_of_lt (by omega)]
  rw [← BitVec.toNat_inj, ← BitVec.toNat_inj, hshift, hmbz]
  rfl

/-- The word with the bits above OP cut off is OP as a number. -/
theorem toNat_and_mask (w : Word) : (w &&& 0xF#32).toNat = (opField w).toNat := by
  rw [opField, BitVec.extractLsb'_toNat, BitVec.toNat_and]
  exact Nat.and_two_pow_sub_one_eq_mod w.toNat 4

/-- The operations that no command has (R82). -/
theorem decodeOp_eq_error_iff {op : BitVec 4} : decodeOp op = .error .reservedOp ↔ op.toNat = 0 ∨ 5 ≤ op.toNat := by
  unfold decodeOp
  split
  case h_5 h1 h2 h3 h4 =>
    have hne : op.toNat ≠ 1 ∧ op.toNat ≠ 2 ∧ op.toNat ≠ 3 ∧ op.toNat ≠ 4 := ⟨h1, h2, h3, h4⟩
    exact ⟨fun _ => by omega, fun _ => rfl⟩
  all_goals
    next hop => exact ⟨nofun, fun h => absurd h (by omega)⟩

theorem decodeOp_ne_mbzNotZero (op : BitVec 4) : decodeOp op ≠ .error .mbzNotZero := by
  unfold decodeOp
  split <;> nofun

/-- Settles O2: the decoder looks at MBZ first, and at OP only where MBZ is 0. -/
theorem illegalWordsByField : Obligations.IllegalWordsByField := by
  unfold Obligations.IllegalWordsByField
  intro w
  have hop : (w &&& 0xF#32 = 0#32 ∨ 0x5#32 ≤ w &&& 0xF#32) ↔ decodeOp (opField w) = .error .reservedOp := by
    rw [decodeOp_eq_error_iff, ← toNat_and_mask, ← BitVec.toNat_inj, BitVec.le_def]
    rfl
  rw [hop, ne_eq, shiftRight_eq_zero_iff, decode]
  split
  · next hmbz =>
    exact ⟨⟨fun h => absurd h (decodeOp_ne_mbzNotZero _), fun h => absurd hmbz h⟩, ⟨fun h => ⟨hmbz, h⟩, And.right⟩⟩
  · next hmbz => exact ⟨⟨fun _ => hmbz, fun _ => rfl⟩, ⟨nofun, fun h => absurd h.1 hmbz⟩⟩

/-- Settles O3: each word's fields, decoded. -/
theorem tableWordsDecode : Obligations.TableWordsDecode := by
  unfold Obligations.TableWordsDecode
  exact ⟨rfl, rfl, rfl, rfl, rfl, rfl, rfl, rfl, rfl, rfl⟩

end Sys2Proof

namespace Sys2Proof.Machine

/-! ### The round formulas -/

theorem idx0_eq (s : Word) : idx0 s = s.toNat % 4 := by
  rw [idx0, BitVec.toNat_and]
  exact Nat.and_two_pow_sub_one_eq_mod s.toNat 2

theorem idx1_eq (s : Word) : idx1 s = s.toNat / 2 ^ 11 % 4 := by
  rw [idx1, BitVec.toNat_and, BitVec.toNat_ushiftRight, Nat.shiftRight_eq_div_pow]
  exact Nat.and_two_pow_sub_one_eq_mod (s.toNat / 2 ^ 11) 2

/-- Settles O4: a mask of two bits is a remainder by 4; the rest is the definition of each term and each round. -/
theorem roundFormulas : Obligations.RoundFormulas := by
  unfold Obligations.RoundFormulas
  exact ⟨fun _ _ _ _ => rfl, fun _ => rfl, fun s => ⟨idx0_eq s, idx1_eq s⟩, fun _ => ⟨rfl, rfl, rfl, rfl⟩,
    fun _ _ _ _ => ⟨rfl, rfl⟩, fun _ _ _ _ => ⟨rfl, rfl⟩⟩

/-! ### The reset state -/

/-- Settles O9: the register map on `Regs.reset` and the default build. -/
theorem registersReadTheirResetValues : Obligations.RegistersReadTheirResetValues := by
  unfold Obligations.RegistersReadTheirResetValues
  exact ⟨rfl, rfl, rfl, rfl, rfl, rfl, rfl, rfl, rfl, rfl, rfl, rfl, rfl⟩

/-! ### Key bytes -/

/-- Settles O54: the two branches of the length check. -/
theorem keyBytesPackIntoKeyWords : Obligations.KeyBytesPackIntoKeyWords := by
  unfold Obligations.KeyBytesPackIntoKeyWords
  exact ⟨fun _ _ _ _ _ _ _ _ _ _ _ _ _ _ _ _ _ => if_pos rfl, fun _ _ h => if_neg h⟩

end Sys2Proof.Machine
end
